-- ==== Sys2Proof/Word.lean ====
section
/-!
DEFINITION. The word types of WSFC: bytes, the 4-byte mask key, the five fields of a base header.
Rules: 00_scope.md R8, R9; 10_state.md R21; 20_memory.md R62; 30_encoding.md R91.
-/

namespace Sys2Proof

/-- A byte: 8 bits, bit 7 the most significant (00_scope.md R8). -/
abbrev Byte := BitVec 8

/-- The width of `PAYLEN`, `POS` and `CMD.LEN` (10_state.md R27, R30, R41). -/
abbrev Word64 := BitVec 64

/-- A mask key: four bytes in wire order, not an integer (20_memory.md R62). -/
structure Key where
  k0 : Byte
  k1 : Byte
  k2 : Byte
  k3 : Byte
deriving DecidableEq, Repr

/-- The field tuple of a base header (30_encoding.md R91, R121). `rsv` is the 3-bit field `byte0[6:4]`,
so its bit 2 is `rsv[0]` (10_state.md R23). -/
structure Header where
  fin : BitVec 1
  rsv : BitVec 3
  opcode : BitVec 4
  mask : BitVec 1
  len7 : BitVec 7
deriving DecidableEq, Repr

end Sys2Proof
end

