-- ==== Sys2Proof/Config.lean ====
section
/-!
DEFINITION. What an implementation of WSFC fixes (00_scope.md R7) and the model's free values.
The opaque constants have no body: no proof can see a value of them.
-/

namespace Sys2Proof

/-- DESIGN CHOICE (log 12). How far `MAX_PAYLOAD` lies above its lower bound, left open by 00_scope.md R7 (D12). -/
opaque Config.capacityAbove : Nat

/-- `PAYLEN_MAX`, the largest payload length (00_scope.md R7). -/
abbrev Config.payloadLengthMax : Nat := 2 ^ 63 - 1

/-- `MAX_PAYLOAD`: a parameter, `70000 <= MAX_PAYLOAD <= PAYLEN_MAX` (00_scope.md R7, D12; log 12). -/
def Config.maxPayload : Nat := 70000 + Config.capacityAbove % (2 ^ 63 - 70000)

/-- Free value (log 13): the bytes of the keys that KEYGEN supplies under no law (42_masking.md R153, U2). -/
opaque Config.freeKeyByte : Nat → BitVec 8

/-- The parameter `HAS_LEN64` of this hardware (00_scope.md R7: true). -/
def Config.hasLen64 : Bool := true

/-- `HDR_BASE`, bytes in the base header (00_scope.md R7). -/
abbrev Config.headerBase : Nat := 2

/-- `LEN7_LITERAL_MAX`, the largest length the 7-bit field itself carries (00_scope.md R7). -/
abbrev Config.literalMax : Nat := 125

/-- `EXT16_MAX`, the largest length of the 16-bit extension (00_scope.md R7). -/
abbrev Config.extension16Max : Nat := 65535

/-- `MIN_DECODE_BYTES` (00_scope.md R7; 90_conflicts.md C2). -/
abbrev Config.minDecodeBytes : Nat := 3

/-- The longest header, 2 + 8 + 4 bytes (10_state.md R44, 41_length_field.md R143). -/
abbrev Config.longestHeader : Nat := 14

end Sys2Proof
end

