-- ==== Sys2Proof/Syntax.lean ====
section
/-!
DEFINITION. The instructions of WSFC: one constructor per row of spec/opcode_table.json, in the table's order.
-/

namespace Sys2Proof

/-- The rows of spec/opcode_table.json.

* Opcode rows (45_opcodes.md R190 to R205): operands are the other fields of the base header.
* Shape rows (30_encoding.md R93 to R98): operands are byte 0, which a shape row does not test, and `len7`
  where the row leaves it open.
* Operations (10_state.md R41): operands stand in the register `CMD`.
* Functions (R130, R131, R140 to R143, R153): operands as the rule gives them.
* The pseudo-operation `WRITE code msg` (30_encoding.md R122), `code` in 0..6. -/
inductive Instr where
  | continuation (fin : BitVec 1) (rsv : BitVec 3) (mask : BitVec 1) (len7 : BitVec 7)
  | text (fin : BitVec 1) (rsv : BitVec 3) (mask : BitVec 1) (len7 : BitVec 7)
  | binary (fin : BitVec 1) (rsv : BitVec 3) (mask : BitVec 1) (len7 : BitVec 7)
  | rsvd3 (fin : BitVec 1) (rsv : BitVec 3) (mask : BitVec 1) (len7 : BitVec 7)
  | rsvd4 (fin : BitVec 1) (rsv : BitVec 3) (mask : BitVec 1) (len7 : BitVec 7)
  | rsvd5 (fin : BitVec 1) (rsv : BitVec 3) (mask : BitVec 1) (len7 : BitVec 7)
  | rsvd6 (fin : BitVec 1) (rsv : BitVec 3) (mask : BitVec 1) (len7 : BitVec 7)
  | rsvd7 (fin : BitVec 1) (rsv : BitVec 3) (mask : BitVec 1) (len7 : BitVec 7)
  | close (fin : BitVec 1) (rsv : BitVec 3) (mask : BitVec 1) (len7 : BitVec 7)
  | ping (fin : BitVec 1) (rsv : BitVec 3) (mask : BitVec 1) (len7 : BitVec 7)
  | pong (fin : BitVec 1) (rsv : BitVec 3) (mask : BitVec 1) (len7 : BitVec 7)
  | rsvd11 (fin : BitVec 1) (rsv : BitVec 3) (mask : BitVec 1) (len7 : BitVec 7)
  | rsvd12 (fin : BitVec 1) (rsv : BitVec 3) (mask : BitVec 1) (len7 : BitVec 7)
  | rsvd13 (fin : BitVec 1) (rsv : BitVec 3) (mask : BitVec 1) (len7 : BitVec 7)
  | rsvd14 (fin : BitVec 1) (rsv : BitVec 3) (mask : BitVec 1) (len7 : BitVec 7)
  | rsvd15 (fin : BitVec 1) (rsv : BitVec 3) (mask : BitVec 1) (len7 : BitVec 7)
  | l7u (b0 : Byte) (len7 : BitVec 7)
  | l16u (b0 : Byte)
  | l64u (b0 : Byte)
  | l7m (b0 : Byte) (len7 : BitVec 7)
  | l16m (b0 : Byte)
  | l64m (b0 : Byte)
  | encode
  | decode
  | recv
  | xmask
  | reset
  | hpack (fin : BitVec 1) (rsv : BitVec 3) (opcode : BitVec 4) (mask : BitVec 1) (len7 : BitVec 7)
  | hunpack (b0 b1 : Byte)
  | lsel (length : Word64)
  | extn (len7 : BitVec 7)
  | lext (len7 : BitVec 7) (ext : List Byte)
  | poff (mask : BitVec 1) (len7 : BitVec 7)
  | keygen
  | write (code : Fin 7) (msg : List Byte)
deriving DecidableEq, Repr

end Sys2Proof
end

