-- ==== Sys2Proof/Machine/State.lean ====
section
/-!
DEFINITION. The state of WSFC as plain data, its reset, and the reasons a step can stop.
Rules: 10_state.md R20 to R49; 60_exceptions.md R211, R214.
-/

namespace Sys2Proof.Machine

/-- One copy of the frame field registers: `TX.*` (10_state.md R21) or `RX.*` (R22). -/
structure FieldRegs where
  fin : BitVec 1
  rsv : BitVec 3
  opcode : BitVec 4
  mask : BitVec 1
  len7 : BitVec 7
  paylen : Word64
  key : Key
deriving DecidableEq, Repr

/-- A byte buffer: cells of (offset, byte) with strictly rising offsets. An offset that is not listed holds no value
(10_state.md R44, R49; log 10). -/
abbrev Memory := List Host.Cell

/-- The hardware errors, the values of `ERR` (60_exceptions.md R211). -/
inductive ErrorCode where
  | none
  | malformedPacket
  | invalidExtendedLength
  | unsupportedPlatform
deriving DecidableEq, Repr

/-- `CMD.KIND`, an enumerated type with no binary code (10_state.md R41, D4). -/
inductive CmdKind where
  | encode
  | decode
  | recv
  | xmask
  | reset
deriving DecidableEq, Repr

/-- The command descriptor `CMD` (10_state.md R41). `key` is a byte sequence, so that a key that is not four bytes can be
refused (60_exceptions.md R214, `BadKey`). -/
structure Cmd where
  kind : CmdKind
  opcode : BitVec 4
  useMask : BitVec 1
  len : Word64
  key : List Byte
deriving DecidableEq, Repr

/-- The two sides of the field registers (10_state.md R21, R22). -/
inductive Side where
  | tx
  | rx
deriving DecidableEq, Repr

/-- The names of the field registers (10_state.md R21, R22). -/
inductive Field where
  | fin
  | rsv
  | opcode
  | mask
  | len7
  | paylen
  | key
deriving DecidableEq, Repr

/-- The buffers the host fills (10_state.md R44, column "written by"). -/
inductive InBuffer where
  | txp
  | rxi
deriving DecidableEq, Repr

/-- The buffers the host reads (10_state.md R44, column "read by"). -/
inductive OutBuffer where
  | txo
  | rxp
  | xmo
deriving DecidableEq, Repr

/-- A byte that the socket has delivered, and whether it is byte 0 of a frame (70_reset_and_hazards.md R252). Where the
frames begin is the peer's to say: it is part of the delivery (log 20). -/
structure SocketByte where
  byte : Byte
  first : Bool
deriving DecidableEq, Repr

/-- The host's side of the socket (70_reset_and_hazards.md R241, R252): the bytes that the host has read and not pushed
yet, oldest first, and whether it has pushed any since the last reset. DESIGN CHOICE (log 20). -/
structure Socket where
  bytes : List SocketByte
  begun : Bool
deriving DecidableEq, Repr

/-- The bytes alone. -/
def Socket.data (k : Socket) : List Byte :=
  k.bytes.map SocketByte.byte

/-- One interaction of the host, of the key source or of the socket: one row of the table of 10_state.md R48, the
pseudo-operation `WRITE` (30_encoding.md R122), the socket's delivery of bytes to the host, and the host's dropping of
bytes it has read and will not push (70_reset_and_hazards.md R252; log 20). DESIGN CHOICE (log 1). -/
inductive HostAction where
  | issue (c : Cmd)
  | write (code : Fin 7) (msg : List Byte)
  | place (b : InBuffer) (offset : Nat) (bytes : List Byte)
  | deliver (bytes : List SocketByte)
  | drain (count : Nat)
  | push (bytes : List Byte)
  | supplyKey (k : Key)
  | readStatus
  | readCap
  | readField (side : Side) (f : Field)
  | readBytes (b : OutBuffer) (offset count : Nat)
deriving DecidableEq, Repr

/-- What the block returned to the host's last read (10_state.md R48, column "block returns"), or the value of the
function row run last. DESIGN CHOICE (log 6). -/
inductive Reply where
  | nothing
  | status (err : BitVec 2) (txv rxv : Bool)
  | capability (hasLen64 : Bool)
  | value (v : Word64)
  | bytes (bs : List Byte)
  | header (h : Header)
  | lengthField (len7 : BitVec 7) (ext : List Byte)
deriving DecidableEq, Repr

/-- Why the machine stops with a fault. -/
inductive Fault where
  /-- Raised by the host's writes into TXP and RXI at an offset outside the buffer's space, which 10_state.md R45 says
  does not exist (log 16). Safe: the model stops where no behaviour is given. -/
  | noSuchOffset
deriving DecidableEq, Repr

/-- Why an instruction or an interaction is refused (00_scope.md R12, 60_exceptions.md R214). -/
inductive Refusal where
  /-- Raised by `exec`'s arms for an instruction that has no meaning yet. Safe: the model stops. -/
  | notModelled (mnemonic : String)
  /-- Raised by every operation but RESET and by the frame rows while `ERR` is not 0 (60_exceptions.md R214).
  Safe: the spec assigns no behaviour. -/
  | faulted
  /-- Raised by every operation but RESET while a RECV holds, and by what else R66 keeps the host from doing then
  (60_exceptions.md R214, 20_memory.md R66, R71; log 17). Safe. -/
  | busy
  /-- Raised by ENCODE, XMASK, DECODE, RECV, the frame rows and WRITE above the capacity (60_exceptions.md R214). Safe. -/
  | payloadTooLarge
  /-- Raised by XMASK when `CMD.KEY` is not exactly four bytes (60_exceptions.md R214). Safe. -/
  | badKey
  /-- Raised by a read of a register or of buffer bytes that hold no value (60_exceptions.md R214, 10_state.md R25;
  for the operations' own reads log 15). Safe. -/
  | noValue
  /-- Raised by a host write into RXI while a RECV, which ends as a DECODE of RXI, is not complete
  (60_exceptions.md R214, 20_memory.md R74; log 17). Safe. -/
  | bufferChanged
  /-- Raised by a push of bytes that are not the next ones the socket has delivered (70_reset_and_hazards.md R252, R260
  item 4; 93_implementation_defined.md U6; log 20). Safe. -/
  | notFromSocket
  /-- Raised by a first push after a reset that does not begin with byte 0 of a frame, and by a drain after it, which
  would leave bytes of the stream out (70_reset_and_hazards.md R252; 93_implementation_defined.md U6; log 20). Safe. -/
  | streamNotAligned
  /-- Raised by ENCODE, LSEL and DECODE for a 64-bit length when `HAS_LEN64 = 0`
  (93_implementation_defined.md U5; log 14). Safe. -/
  | len64Unspecified
  /-- Raised by LSEL, LEXT and the L7 rows on an operand outside the operand type of their rule (log 22). Safe. -/
  | operandOutsideType
deriving DecidableEq, Repr

/-- The state of WSFC (10_state.md R20), then the model's own fields (logs 1, 6, 13, 20). -/
structure State where
  /-- `TX.*` (R21). -/
  tx : FieldRegs
  /-- `RX.*` (R22). -/
  rx : FieldRegs
  /-- `TX.POS` (R30). -/
  txPos : Word64
  /-- `RX.POS` (R30). -/
  rxPos : Word64
  /-- `ERR` (R35, R36). -/
  err : ErrorCode
  /-- `TXV` (R35, R37). -/
  txv : Bool
  /-- `RXV` (R35, R37). -/
  rxv : Bool
  /-- `TXP` (R44). -/
  txp : Memory
  /-- `TXO` (R44). -/
  txo : Memory
  /-- `RXI` (R44). -/
  rxi : Memory
  /-- `RXP` (R44). -/
  rxp : Memory
  /-- `XMO` (R44). -/
  xmo : Memory
  /-- `RXQ`, oldest byte first (R46). -/
  rxq : List Byte
  /-- `CMD` (R41). -/
  cmd : Cmd
  /-- `CAP.HAS_LEN64` (R43). -/
  hasLen64 : Bool
  /-- The RECV that is not complete, with the bytes it has taken from `RXQ` (R46, 44_frame_decode.md R177; log 2). -/
  recv : Option (List Byte)
  /-- Model: keys supplied to KEYGEN and not drawn yet (log 13). -/
  keys : List Key
  /-- Model: keys drawn as free values so far (log 13). -/
  draws : Nat
  /-- Model: the bytes that the host has read from the socket and not pushed yet (70_reset_and_hazards.md R241, R252;
  log 20). -/
  socket : Socket
  /-- Model: the host's coming interactions, oldest first (log 1). -/
  host : List HostAction
  /-- Model: what the last read returned (log 6). -/
  reply : Reply
deriving DecidableEq, Repr

/-- The stored bits of field registers that hold no value after reset (10_state.md R25, R49).
DESIGN CHOICE (log 9): the spec gives no value; reads are refused. -/
def FieldRegs.reset : FieldRegs where
  fin := 0#1
  rsv := 0#3
  opcode := 0#4
  mask := 0#1
  len7 := 0#7
  paylen := 0#64
  key := ⟨0#8, 0#8, 0#8, 0#8⟩

/-- The command descriptor after reset. DESIGN CHOICE (log 11): the spec gives no value. -/
def Cmd.reset : Cmd where
  kind := .reset
  opcode := 0#4
  useMask := 0#1
  len := 0#64
  key := [0#8, 0#8, 0#8, 0#8]

/-- The state after reset and after power-up (10_state.md R49, 70_reset_and_hazards.md R240). -/
def State.reset : State where
  tx := FieldRegs.reset
  rx := FieldRegs.reset
  txPos := 0#64
  rxPos := 0#64
  err := .none
  txv := false
  rxv := false
  txp := []
  txo := []
  rxi := []
  rxp := []
  xmo := []
  rxq := []
  cmd := Cmd.reset
  hasLen64 := Config.hasLen64
  recv := none
  keys := []
  draws := 0
  socket := ⟨[], false⟩
  host := []
  reply := .nothing

end Sys2Proof.Machine
end

