-- ==== Sys2Proof/Machine/Flags.lean ====
section
/-!
DEFINITION. The flags of WSFC: the codes of `ERR`, the valid flags, `STATUS` and `CAP` (10_state.md R35 to R37, R42, R43;
60_exceptions.md R211). WSFC has no condition codes (R35).
-/

namespace Sys2Proof.Machine

/-- The numeric code of an error (60_exceptions.md R211). -/
def errorCode : ErrorCode → BitVec 2
  | .none => 0#2
  | .malformedPacket => 1#2
  | .invalidExtendedLength => 2#2
  | .unsupportedPlatform => 3#2

/-- `STATUS`: `ERR`, `TXV`, `RXV` (10_state.md R42). -/
def statusReply (s : State) : Reply :=
  .status (errorCode s.err) s.txv s.rxv

/-- `CAP` (10_state.md R43). -/
def capReply (s : State) : Reply :=
  .capability s.hasLen64

/-- The valid flag of a side (10_state.md R35). -/
def validFlag (s : State) : Side → Bool
  | .tx => s.txv
  | .rx => s.rxv

/-- `FAULTED`: `ERR` is not 0 (10_state.md R36). -/
def faulted (s : State) : Bool :=
  decide (s.err ≠ .none)

/-- Whether an operation other than RESET is admitted when it is issued: `Faulted`, then `Busy`
(60_exceptions.md R214, R217). -/
def admission (s : State) : Option Refusal :=
  if faulted s then some .faulted
  else if s.recv.isSome then some .busy
  else none

/-- DECODE and RECV start: `RXV <- 0`, `RX.POS <- 0` (10_state.md R37, 44_frame_decode.md R170, R175). -/
def startReceive (s : State) : State :=
  { s with rxv := false, rxPos := 0#64 }

end Sys2Proof.Machine
end

