-- ==== Sys2Proof/Decode.lean ====
section
/-!
DEFINITION. The base header: its packer and unpacker, the six shapes, the decoder of a base header into the rows of
spec/opcode_table.json, and the encoder. Rules: 30_encoding.md R90 to R102; 40_header_pack_unpack.md R130, R131;
41_length_field.md R141, R143.
-/

namespace Sys2Proof

/-- `H16`: the base header as one 16-bit value (40_header_pack_unpack.md R130). -/
def h16 (h : Header) : BitVec 16 :=
  (h.fin.setWidth 16 <<< 15) ||| (h.rsv.setWidth 16 <<< 12) ||| (h.opcode.setWidth 16 <<< 8)
    ||| (h.mask.setWidth 16 <<< 7) ||| h.len7.setWidth 16

/-- `HPACK`: byte 0 is `H16[15:8]`, byte 1 is `H16[7:0]` (R130). -/
def hpack (h : Header) : Byte × Byte :=
  ((h16 h).extractLsb' 8 8, (h16 h).extractLsb' 0 8)

/-- `HUNPACK` (40_header_pack_unpack.md R131): total on every byte pair (30_encoding.md R103). -/
def hunpack (b0 b1 : Byte) : Header where
  fin := b0.extractLsb' 7 1
  rsv := b0.extractLsb' 4 3
  opcode := b0.extractLsb' 0 4
  mask := b1.extractLsb' 7 1
  len7 := b1.extractLsb' 0 7

/-- `EXTN` (41_length_field.md R141): bytes of the length extension. -/
def extn (len7 : BitVec 7) : Nat :=
  if len7 = 126#7 then 2 else if len7 = 127#7 then 8 else 0

/-- `POFF`, the payload start offset and header length (41_length_field.md R143). -/
def poff (mask : BitVec 1) (len7 : BitVec 7) : Nat :=
  2 + extn len7 + 4 * mask.toNat

/-- The six frame shapes (30_encoding.md R92). -/
inductive Shape where
  | l7u
  | l16u
  | l64u
  | l7m
  | l16m
  | l64m
deriving DecidableEq, Repr

/-- Extension bytes of a shape (20_memory.md R67, column "extension"). -/
def Shape.extensionBytes : Shape → Nat
  | .l7u => 0
  | .l16u => 2
  | .l64u => 8
  | .l7m => 0
  | .l16m => 2
  | .l64m => 8

/-- Key bytes of a shape (20_memory.md R67, column "key"). -/
def Shape.keyBytes : Shape → Nat
  | .l7u => 0
  | .l16u => 0
  | .l64u => 0
  | .l7m => 4
  | .l16m => 4
  | .l64m => 4

/-- The shape that `mask` and `len7` select; the two selector values are tested first (30_encoding.md R92). -/
def shapeOf (mask : BitVec 1) (len7 : BitVec 7) : Shape :=
  if len7 = 126#7 then (if mask = 1#1 then .l16m else .l16u)
  else if len7 = 127#7 then (if mask = 1#1 then .l64m else .l64u)
  else if mask = 1#1 then .l7m else .l7u

/-- The opcode row of a field tuple (30_encoding.md R102, 45_opcodes.md R190 to R205). -/
def opcodeRow (h : Header) : Instr :=
  match h.opcode.toNat with
  | 0 => .continuation h.fin h.rsv h.mask h.len7
  | 1 => .text h.fin h.rsv h.mask h.len7
  | 2 => .binary h.fin h.rsv h.mask h.len7
  | 3 => .rsvd3 h.fin h.rsv h.mask h.len7
  | 4 => .rsvd4 h.fin h.rsv h.mask h.len7
  | 5 => .rsvd5 h.fin h.rsv h.mask h.len7
  | 6 => .rsvd6 h.fin h.rsv h.mask h.len7
  | 7 => .rsvd7 h.fin h.rsv h.mask h.len7
  | 8 => .close h.fin h.rsv h.mask h.len7
  | 9 => .ping h.fin h.rsv h.mask h.len7
  | 10 => .pong h.fin h.rsv h.mask h.len7
  | 11 => .rsvd11 h.fin h.rsv h.mask h.len7
  | 12 => .rsvd12 h.fin h.rsv h.mask h.len7
  | 13 => .rsvd13 h.fin h.rsv h.mask h.len7
  | 14 => .rsvd14 h.fin h.rsv h.mask h.len7
  | _ => .rsvd15 h.fin h.rsv h.mask h.len7

/-- The shape row of a base header: byte 0 is carried untested (30_encoding.md R92). -/
def shapeRow (b0 : Byte) (mask : BitVec 1) (len7 : BitVec 7) : Instr :=
  match shapeOf mask len7 with
  | .l7u => .l7u b0 len7
  | .l16u => .l16u b0
  | .l64u => .l64u b0
  | .l7m => .l7m b0 len7
  | .l16m => .l16m b0
  | .l64m => .l64m b0

/-- What decoding a base header gives: its one opcode row, its one shape row (30_encoding.md R102) and the bytes
after it. -/
structure Decoded where
  opcodeRow : Instr
  shapeRow : Instr
  rest : List Byte
deriving DecidableEq, Repr

/-- Why bytes hold no base header: R103 makes no header illegal, so there may only be too few bytes. -/
inductive DecodeError where
  | headerIncomplete
deriving DecidableEq, Repr

/-- The decoder, total on any bytes (30_encoding.md R91, R99, R102, R103). -/
def decode : List Byte → Except DecodeError Decoded
  | b0 :: b1 :: rest =>
    let h := hunpack b0 b1
    .ok { opcodeRow := opcodeRow h, shapeRow := shapeRow b0 h.mask h.len7, rest := rest }
  | _ => .error .headerIncomplete

/-- The two bytes of a field tuple, byte 0 first. -/
def headerBytes (h : Header) : List Byte :=
  [(hpack h).1, (hpack h).2]

/-- Byte 1 of a base header, `mask ‖ len7` (30_encoding.md R91). -/
def byteOne (mask : BitVec 1) (len7 : BitVec 7) : Byte :=
  (mask.setWidth 8 <<< 7) ||| len7.setWidth 8

/-- The two bytes of a shape row: byte 0 as carried, byte 1 `mask ‖ len7` (30_encoding.md R91). -/
def shapeBytes (b0 : Byte) (mask : BitVec 1) (len7 : BitVec 7) : List Byte :=
  [b0, byteOne mask len7]

/-- The encoder: the base header of a row that has one. Operations, functions and `WRITE` have no bit pattern
(92_eei_decisions.md D4; log 7). -/
def encode : Instr → List Byte
  | .continuation fin rsv mask len7 => headerBytes ⟨fin, rsv, 0#4, mask, len7⟩
  | .text fin rsv mask len7 => headerBytes ⟨fin, rsv, 1#4, mask, len7⟩
  | .binary fin rsv mask len7 => headerBytes ⟨fin, rsv, 2#4, mask, len7⟩
  | .rsvd3 fin rsv mask len7 => headerBytes ⟨fin, rsv, 3#4, mask, len7⟩
  | .rsvd4 fin rsv mask len7 => headerBytes ⟨fin, rsv, 4#4, mask, len7⟩
  | .rsvd5 fin rsv mask len7 => headerBytes ⟨fin, rsv, 5#4, mask, len7⟩
  | .rsvd6 fin rsv mask len7 => headerBytes ⟨fin, rsv, 6#4, mask, len7⟩
  | .rsvd7 fin rsv mask len7 => headerBytes ⟨fin, rsv, 7#4, mask, len7⟩
  | .close fin rsv mask len7 => headerBytes ⟨fin, rsv, 8#4, mask, len7⟩
  | .ping fin rsv mask len7 => headerBytes ⟨fin, rsv, 9#4, mask, len7⟩
  | .pong fin rsv mask len7 => headerBytes ⟨fin, rsv, 10#4, mask, len7⟩
  | .rsvd11 fin rsv mask len7 => headerBytes ⟨fin, rsv, 11#4, mask, len7⟩
  | .rsvd12 fin rsv mask len7 => headerBytes ⟨fin, rsv, 12#4, mask, len7⟩
  | .rsvd13 fin rsv mask len7 => headerBytes ⟨fin, rsv, 13#4, mask, len7⟩
  | .rsvd14 fin rsv mask len7 => headerBytes ⟨fin, rsv, 14#4, mask, len7⟩
  | .rsvd15 fin rsv mask len7 => headerBytes ⟨fin, rsv, 15#4, mask, len7⟩
  | .l7u b0 len7 => shapeBytes b0 0#1 len7
  | .l16u b0 => shapeBytes b0 0#1 126#7
  | .l64u b0 => shapeBytes b0 0#1 127#7
  | .l7m b0 len7 => shapeBytes b0 1#1 len7
  | .l16m b0 => shapeBytes b0 1#1 126#7
  | .l64m b0 => shapeBytes b0 1#1 127#7
  | .encode => []
  | .decode => []
  | .recv => []
  | .xmask => []
  | .reset => []
  | .hpack _ _ _ _ _ => []
  | .hunpack _ _ => []
  | .lsel _ => []
  | .extn _ => []
  | .lext _ _ => []
  | .poff _ _ => []
  | .keygen => []
  | .write _ _ => []

/-- The bytes of a base header given as the number `H16`, as they lie in a frame: big-endian, then zeros up to the
longest header (20_memory.md R60; log 7, log 8). -/
def headerWordBytes (w : Nat) : List Byte :=
  [BitVec.ofNat 8 (w / 256), BitVec.ofNat 8 w] ++ List.replicate (Config.longestHeader - Config.headerBase) 0#8

/-- The instruction the decoder reads from the 16 bits of a base header: the opcode row (log 4, log 7). The rows
without a bit pattern (width 0 in the table) are read from no bits. -/
def decodeTableWord (nbits w : Nat) : Option Instr :=
  if nbits = 16 then
    match decode (headerWordBytes w) with
    | .ok d => some d.opcodeRow
    | .error _ => none
  else none

end Sys2Proof
end

