-- ==== Sys2Proof/Machine/Operands.lean ====
section
/-!
DEFINITION. The operand forms of WSFC: big-endian integers, the payload-length field, the mask key and the masking
transform. Rules: 00_scope.md R10; 20_memory.md R60 to R62; 41_length_field.md R140, R142; 42_masking.md R150.
-/

namespace Sys2Proof.Machine

/-- `be16`, `be32`, `be64`: a byte sequence as a big-endian unsigned integer (00_scope.md R10). -/
def beNat : List Byte → Nat
  | [] => 0
  | b :: bs => b.toNat * 256 ^ bs.length + beNat bs

/-- `to_be16`, `to_be32`, `to_be64`: the `n` bytes of an unsigned integer, most significant first (00_scope.md R10). -/
def toBe : Nat → Nat → List Byte
  | 0, _ => []
  | n + 1, v => BitVec.ofNat 8 (v / 256 ^ n) :: toBe n v

/-- `LSEL` (41_length_field.md R140): the shortest shape that holds the length, tested in the order of the rule. -/
def lsel (length : Nat) : BitVec 7 × List Byte :=
  if Config.extension16Max < length then (127#7, toBe 4 (length / 2 ^ 32) ++ toBe 4 (length % 2 ^ 32))
  else if Config.literalMax < length then (126#7, toBe 2 length)
  else (BitVec.ofNat 7 length, [])

/-- `LEXT` (41_length_field.md R142): the payload length, as it stands, with no minimality check (30_encoding.md R106). -/
def lext (len7 : BitVec 7) (ext : List Byte) : Nat :=
  if len7 = 126#7 then beNat ext
  else if len7 = 127#7 then beNat ext
  else len7.toNat

/-- `s[a .. a+n)` (00_scope.md R9). -/
def slice (s : List Byte) (a n : Nat) : List Byte :=
  (s.drop a).take n

/-- The four bytes of a key in wire order (20_memory.md R62). -/
def keyBytes (k : Key) : List Byte :=
  [k.k0, k.k1, k.k2, k.k3]

/-- A key from exactly four bytes in wire order; any other number of bytes is no key (42_masking.md R150). -/
def keyOf : List Byte → Option Key
  | [a, b, c, d] => some ⟨a, b, c, d⟩
  | _ => none

/-- `KEY[i mod 4]` (42_masking.md R150). -/
def keyByte (k : Key) (i : Nat) : Byte :=
  match i % 4 with
  | 0 => k.k0
  | 1 => k.k1
  | 2 => k.k2
  | _ => k.k3

/-- The masking transform with the byte index started at `i` (42_masking.md R150, R151 item 4). -/
def xmaskFrom (i : Nat) (k : Key) : List Byte → List Byte
  | [] => []
  | b :: bs => (b ^^^ keyByte k i) :: xmaskFrom (i + 1) k bs

/-- `XMASK` (42_masking.md R150): the index restarts at 0 with each payload. -/
def xmask (data : List Byte) (k : Key) : List Byte :=
  xmaskFrom 0 k data

/-- The masking transform when `mask = 1`, the data as they are otherwise (43_frame_encode.md R160,
44_frame_decode.md R170). -/
def maskIf (m : BitVec 1) (data : List Byte) (k : Key) : List Byte :=
  if m = 1#1 then xmask data k else data

/-- The key part of a raw frame: four bytes when `mask = 1`, none otherwise (30_encoding.md R90). -/
def keyPart (m : BitVec 1) (k : Key) : List Byte :=
  if m = 1#1 then keyBytes k else []

end Sys2Proof.Machine
end

