-- ==== Sys2Proof/Machine/Ops.lean ====
section
/-!
DEFINITION. The named operations of WSFC: buffers, capacity checks, key draws, taking a hardware error, the decoder core,
the stream framer, the encoder core. Rules: 10_state.md R44 to R46; 20_memory.md R64 to R67; 42_masking.md R153;
43_frame_encode.md R160; 44_frame_decode.md R170, R175, R177, R178; 60_exceptions.md R218; 70_reset_and_hazards.md R240.
-/

namespace Sys2Proof.Machine

/-! ### Buffers -/

/-- The canonical form of a buffer: offsets strictly rising (log 10). -/
def Memory.wf : Memory → Bool
  | [] => true
  | [_] => true
  | c :: d :: m => decide (c.1 < d.1) && Memory.wf (d :: m)

/-- Every offset lies below `n` (10_state.md R45). -/
def Memory.within (m : Memory) (n : Nat) : Bool :=
  m.all fun c => decide (c.1 < n)

/-- One byte, or no value (10_state.md R44). -/
def Memory.read : Memory → Nat → Option Byte
  | [], _ => none
  | c :: m, a => if c.1 = a then some c.2 else Memory.read m a

/-- The bytes from offset `a` on, at most `n`, up to the first offset that holds no value. -/
def Memory.readUpTo (m : Memory) : Nat → Nat → List Byte
  | _, 0 => []
  | a, n + 1 =>
    match Memory.read m a with
    | some b => b :: Memory.readUpTo m (a + 1) n
    | none => []

/-- `MemRead(S, a, n)` (00_scope.md R11): all `n` bytes, or no value where one of them has none. -/
def Memory.readBytes (m : Memory) (a n : Nat) : Option (List Byte) :=
  if (Memory.readUpTo m a n).length = n then some (Memory.readUpTo m a n) else none

/-- Cells for consecutive offsets from `a` on. -/
def Memory.cellsFrom : Nat → List Byte → Memory
  | _, [] => []
  | a, b :: bs => (a, b) :: Memory.cellsFrom (a + 1) bs

/-- A buffer that holds exactly these bytes from offset 0 on; beyond them nothing has a value (10_state.md R44). -/
def Memory.ofBytes (bs : List Byte) : Memory :=
  Memory.cellsFrom 0 bs

/-- The bytes of a buffer in offset order. -/
def Memory.bytes (m : Memory) : List Byte :=
  m.map Prod.snd

/-- `MemWrite(S, a, n, s)` (00_scope.md R11): the other bytes stay. -/
def Memory.writeBytes (m : Memory) (a : Nat) (bs : List Byte) : Memory :=
  m.filter (fun c => decide (c.1 < a)) ++ Memory.cellsFrom a bs ++ m.filter (fun c => decide (a + bs.length ≤ c.1))

/-! ### Capacity (00_scope.md R7; log 12)

Each check tests the lower bound of `MAX_PAYLOAD` first, so that a small length is decided without its value. -/

/-- `n > MAX_PAYLOAD`. -/
def exceedsPayload (n : Nat) : Bool :=
  decide (70000 < n) && decide (Config.maxPayload < n)

/-- `n > 14 + MAX_PAYLOAD`, as `n - 14 > MAX_PAYLOAD`. -/
def exceedsRaw (n : Nat) : Bool :=
  exceedsPayload (n - Config.longestHeader)

/-! ### The key source -/

/-- The `n`-th key drawn as a free value (42_masking.md R153, U2; log 13). -/
def freeKey (n : Nat) : Key :=
  ⟨Config.freeKeyByte (4 * n), Config.freeKeyByte (4 * n + 1), Config.freeKeyByte (4 * n + 2),
    Config.freeKeyByte (4 * n + 3)⟩

/-- `KeyDraw()` (42_masking.md R153): the next supplied key, else a free value (log 13). -/
def keyDraw (s : State) : Key × State :=
  match s.keys with
  | k :: ks => (k, { s with keys := ks })
  | [] => (freeKey s.draws, { s with draws := s.draws + 1 })

/-! ### Taking a hardware error, and RESET -/

/-- `raise E` (60_exceptions.md R218): the code, `RXV = 0`, `RX.POS = 0`; the operation ends; nothing on the transmit
side. The stored bits of the RX registers are not written (R211); no read can reach them (log 9). -/
def raise (e : ErrorCode) (s : State) : State :=
  { s with err := e, rxv := false, rxPos := 0#64, recv := none }

/-- `RESET` (70_reset_and_hazards.md R240, R241): the reset state; CAP, CMD, the key source, the host's coming interactions
and the bytes it has read from the socket are not the block's to reset. The next push is the first after a reset
(R252; log 20). -/
def resetBlock (s : State) : State :=
  { State.reset with cmd := s.cmd, hasLen64 := s.hasLen64, keys := s.keys, draws := s.draws,
                     socket := { s.socket with begun := false }, host := s.host }

/-! ### The decoder core -/

/-- The fields and the payload of a decoded frame (44_frame_decode.md R170, R171). -/
structure DecodedFrame where
  header : Header
  length : Nat
  key : Option Key
  payload : List Byte
deriving DecidableEq, Repr

/-- The outcomes of the decoder on a raw buffer. -/
inductive DecodeResult where
  | malformed
  | refuse (r : Refusal)
  | frame (f : DecodedFrame)
deriving DecidableEq, Repr

/-- The field tuple at offsets 0 and 1 of a raw frame (40_header_pack_unpack.md R131). -/
def headerOf (raw : List Byte) : Header :=
  hunpack (raw.getD 0 0#8) (raw.getD 1 0#8)

/-- The payload length a raw frame declares (41_length_field.md R142). -/
def lengthOf (raw : List Byte) : Nat :=
  lext (headerOf raw).len7 (slice raw 2 (extn (headerOf raw).len7))

/-- The decoder of one raw frame of `n` bytes: a function of the bytes (44_frame_decode.md R170, R172), the tests in the
order of the rule (60_exceptions.md R217). `raw` is what the buffer holds of them; a group that is read and is not all
there has no value (log 15). U5 for `HAS_LEN64 = 0` (log 14). -/
def decodeFrame (hasLen64 : Bool) (n : Nat) (raw : List Byte) : DecodeResult :=
  let h := headerOf raw
  let e := extn h.len7
  let length := lengthOf raw
  let off := poff h.mask h.len7
  if n < Config.minDecodeBytes then .malformed
  else if raw.length < 2 then .refuse .noValue
  else if h.len7 = 127#7 ∧ hasLen64 = false then .refuse .len64Unspecified
  else if n < 2 + e then .malformed
  else if raw.length < 2 + e then .refuse .noValue
  else if 2 ^ 63 ≤ length then .malformed
  else if n ≠ off + length then .malformed
  else if exceedsPayload length then .refuse .payloadTooLarge
  else if raw.length < n then .refuse .noValue
  else if h.mask = 1#1 then
    match keyOf (slice raw (off - 4) 4) with
    | some k => .frame { header := h, length := length, key := some k, payload := xmask (slice raw off length) k }
    | none => .refuse .noValue
  else .frame { header := h, length := length, key := none, payload := slice raw off length }

/-- The RX registers after a decoded frame; `RX.KEY` is not written when `RX.MASK = 0` (44_frame_decode.md R170). -/
def rxRegs (old : FieldRegs) (f : DecodedFrame) : FieldRegs where
  fin := f.header.fin
  rsv := f.header.rsv
  opcode := f.header.opcode
  mask := f.header.mask
  len7 := f.header.len7
  paylen := BitVec.ofNat 64 f.length
  key := f.key.getD old.key

/-- A decoded frame is exposed: RXP and the RX registers, then `RXV` (44_frame_decode.md R170, 70_reset_and_hazards.md
R263). -/
def exposeFrame (f : DecodedFrame) (s : State) : State :=
  { s with rx := rxRegs s.rx f, rxp := Memory.ofBytes f.payload, rxv := true, rxPos := 0#64, recv := none }

/-- The end of DECODE and of RECV on a raw frame of `n` bytes (44_frame_decode.md R170). -/
def decodeRaw (n : Nat) (raw : List Byte) (s : State) : Host.Outcome State Fault Refusal :=
  match decodeFrame s.hasLen64 n raw with
  | .malformed => .next (raise .malformedPacket s)
  | .refuse r => .refused r
  | .frame f => .next (exposeFrame f s)

/-! ### The stream framer -/

/-- `StreamRead` up to offset `n` of the frame whose first bytes `taken` have been taken: nothing to do where they reach
it, else all missing bytes at once, else hold (20_memory.md R65, 44_frame_decode.md R177; log 2). -/
def pull (n : Nat) (taken q : List Byte) : Option (List Byte × List Byte) :=
  if n ≤ taken.length then some (taken, q)
  else if q.length < n - taken.length then none
  else some (taken ++ q.take (n - taken.length), q.drop (n - taken.length))

/-- The outcomes of the framer: the bytes taken so far and what is left of the stream. -/
inductive FramerResult where
  | hold (taken q : List Byte)
  | raised (e : ErrorCode) (q : List Byte)
  | refuse (r : Refusal)
  | framed (raw q : List Byte)
deriving DecidableEq, Repr

/-- The framer from the base header on, for one shape: extension, key, payload, with the checks between them
(44_frame_decode.md R175, R176). `taken` begins with the base header. -/
def framer (hasLen64 : Bool) (sh : Shape) (taken q : List Byte) : FramerResult :=
  if sh.extensionBytes = 8 ∧ hasLen64 = false then .raised .unsupportedPlatform q
  else
    match pull (2 + sh.extensionBytes) taken q with
    | none => .hold taken q
    | some (t1, q1) =>
      if sh.extensionBytes = 2 ∧ lengthOf t1 = 0 then .raised .invalidExtendedLength q1
      else if 2 ^ 63 ≤ lengthOf t1 then .raised .malformedPacket q1
      else if exceedsPayload (lengthOf t1) then .refuse .payloadTooLarge
      else
        match pull (2 + sh.extensionBytes + sh.keyBytes) t1 q1 with
        | none => .hold t1 q1
        | some (t2, q2) =>
          match pull (2 + sh.extensionBytes + sh.keyBytes + lengthOf t1) t2 q2 with
          | none => .hold t2 q2
          | some (t3, q3) => .framed t3 q3

/-- A RECV that holds: the bytes taken are kept and the cursor counts them (44_frame_decode.md R177, 10_state.md R31). -/
def holdReceive (taken q : List Byte) (s : State) : State :=
  { s with rxq := q, recv := some taken, rxPos := BitVec.ofNat 64 taken.length }

/-- The assembled frame is placed in RXI (44_frame_decode.md R175: `MemWrite` at offset 0); the bytes beyond it stay as they
were last written (00_scope.md R11, 20_memory.md R70). -/
def placeFrame (raw q : List Byte) (s : State) : State :=
  { s with rxq := q, rxi := Memory.writeBytes s.rxi 0 raw }

/-- RECV from the base header on (44_frame_decode.md R175). -/
def receiveFrom (sh : Shape) (taken : List Byte) (s : State) : Host.Outcome State Fault Refusal :=
  match framer s.hasLen64 sh taken s.rxq with
  | .hold t q => .next (holdReceive t q s)
  | .raised e q => .next (raise e { s with rxq := q })
  | .refuse r => .refused r
  | .framed raw q => decodeRaw raw.length raw (placeFrame raw q s)

/-- RECV from its start: the base header, then the rest by its shape (44_frame_decode.md R175, phase HDR). -/
def receiveFrame (s : State) : Host.Outcome State Fault Refusal :=
  match pull 2 [] s.rxq with
  | none => .next (holdReceive [] s.rxq s)
  | some (h, q) => receiveFrom (shapeOf (headerOf h).mask (headerOf h).len7) h { s with rxq := q }

/-- The bytes of the frame with this base header that have been taken: those of the RECV in progress where they begin
with it, the base header alone where no frame is begun, and none of both while another frame is in progress (log 5). -/
def headerProgress (b0 b1 : Byte) (s : State) : Option (List Byte) :=
  match s.recv with
  | none => some [b0, b1]
  | some [] => some [b0, b1]
  | some (c0 :: rest) => if (c0 :: rest).take 2 = [b0, b1] then some (c0 :: rest) else none

/-- A frame row: the framer has read this base header and receives the rest of the frame by the row's shape
(44_frame_decode.md R175, R176; log 4, log 5). -/
def runFrame (sh : Shape) (b0 b1 : Byte) (s : State) : Host.Outcome State Fault Refusal :=
  if faulted s then .refused .faulted
  else
    match headerProgress b0 b1 s with
    | none => .refused .busy
    | some taken => receiveFrom sh taken (startReceive s)

/-- An opcode row: the header decides the shape, the opcode selects nothing (45_opcodes.md R206). -/
def runOpcode (h : Header) (s : State) : Host.Outcome State Fault Refusal :=
  runFrame (shapeOf h.mask h.len7) (hpack h).1 (hpack h).2 s

/-- A shape row: byte 0 is not tested (30_encoding.md R92). -/
def runShape (sh : Shape) (b0 : Byte) (mask : BitVec 1) (len7 : BitVec 7) (s : State) : Host.Outcome State Fault Refusal :=
  runFrame sh b0 (byteOne mask len7) s

/-! ### The receive phase (10_state.md R32), derived from the bytes taken -/

/-- The phases of the framer (10_state.md R32). -/
inductive Phase where
  | hdr
  | ext
  | key
  | payload
deriving DecidableEq, Repr

/-- The phase of the framer: a function of the cursor and of the fields already read (10_state.md R32). -/
def phaseOf (taken : List Byte) : Phase :=
  if taken.length < 2 then .hdr
  else if taken.length < 2 + extn (headerOf taken).len7 then .ext
  else if taken.length < poff (headerOf taken).mask (headerOf taken).len7 then .key
  else .payload

/-- The receive phase of the machine; `HDR` when no RECV is in progress (10_state.md R49). -/
def State.phase (s : State) : Phase :=
  phaseOf (s.recv.getD [])

/-- The offset at which the group that the framer is reading ends (10_state.md R31). -/
def groupEnd (taken : List Byte) : Nat :=
  match phaseOf taken with
  | .hdr => 2
  | .ext => 2 + extn (headerOf taken).len7
  | .key => poff (headerOf taken).mask (headerOf taken).len7
  | .payload => poff (headerOf taken).mask (headerOf taken).len7 + lengthOf taken

/-- Whether the stream holds all of the group a held RECV waits for (44_frame_decode.md R177). -/
def canResume (taken q : List Byte) : Bool :=
  decide (groupEnd taken ≤ taken.length + q.length)

/-- `Extent` (44_frame_decode.md R178): the outcome of RECV as a function of the stream. -/
inductive ExtentResult where
  | needMore
  | fault (e : ErrorCode) (consumed : Nat)
  | refuse (r : Refusal)
  | frame (total : Nat)
deriving DecidableEq, Repr

/-- `Extent(q)`, transcribed from 44_frame_decode.md R178. -/
def extent (hasLen64 : Bool) (q : List Byte) : ExtentResult :=
  if q.length < 2 then .needMore
  else
    let h := headerOf q
    if h.len7 = 126#7 ∧ q.length < 4 then .needMore
    else if h.len7 = 126#7 ∧ beNat (slice q 2 2) = 0 then .fault .invalidExtendedLength 4
    else if h.len7 = 127#7 ∧ hasLen64 = false then .fault .unsupportedPlatform 2
    else if h.len7 = 127#7 ∧ q.length < 10 then .needMore
    else if h.len7 = 127#7 ∧ 2 ^ 63 ≤ beNat (slice q 2 8) then .fault .malformedPacket 10
    else
      let length := lext h.len7 (slice q 2 (extn h.len7))
      let total := poff h.mask h.len7 + length
      if exceedsPayload length then .refuse .payloadTooLarge
      else if q.length < total then .needMore
      else if total < 3 then .fault .malformedPacket 2
      else .frame total

/-! ### The encoder core -/

/-- The raw frame of a payload (43_frame_encode.md R160, 30_encoding.md R90). -/
def frameBytes (opcode : BitVec 4) (m : BitVec 1) (k : Key) (data : List Byte) : List Byte :=
  headerBytes ⟨1#1, 0#3, opcode, m, (lsel data.length).1⟩ ++ (lsel data.length).2 ++ keyPart m k ++ maskIf m data k

/-- The key of an ENCODE: drawn only when `useMask = 1` (42_masking.md R153); the old `TX.KEY` stays otherwise. -/
def encodeKey (m : BitVec 1) (s : State) : Key × State :=
  if m = 1#1 then keyDraw s else (s.tx.key, s)

/-- The TX registers after an ENCODE (43_frame_encode.md R160; 10_state.md R24). -/
def txRegs (opcode : BitVec 4) (m : BitVec 1) (k : Key) (length : Nat) : FieldRegs where
  fin := 1#1
  rsv := 0#3
  opcode := opcode
  mask := m
  len7 := (lsel length).1
  paylen := BitVec.ofNat 64 length
  key := k

/-- The encoded frame is in TXO, the TX registers are written, then `TXV` (43_frame_encode.md R160). -/
def emitFrame (opcode : BitVec 4) (m : BitVec 1) (k : Key) (data : List Byte) (s : State) : State :=
  { s with tx := txRegs opcode m k data.length, txo := Memory.ofBytes (frameBytes opcode m k data), txv := true,
           txPos := 0#64 }

/-- ENCODE of the first `length` bytes of TXP, once it is admitted (43_frame_encode.md R160; logs 14, 15). -/
def encodePayload (opcode : BitVec 4) (m : BitVec 1) (length : Nat) (s : State) : Host.Outcome State Fault Refusal :=
  if exceedsPayload length then .refused .payloadTooLarge
  else if Config.extension16Max < length ∧ s.hasLen64 = false then .refused .len64Unspecified
  else
    match Memory.readBytes s.txp 0 length with
    | none => .refused .noValue
    | some data => .next (emitFrame opcode m (encodeKey m s).1 data (encodeKey m s).2)

/-- A value delivered to the reply latch (log 6). -/
def answer (r : Reply) (s : State) : State :=
  { s with reply := r }

end Sys2Proof.Machine
end

