-- ==== Sys2Proof/Machine/Functions.lean ====
section
/-!
DEFINITION. The meanings of the seven function rows. A function reads and writes no state of the block
(40_header_pack_unpack.md R130, R131; 41_length_field.md R140 to R143); its value goes to the model's reply latch
(log 6). The operations use the same definitions (Decode.lean, Operands.lean, Ops.lean).
-/

namespace Sys2Proof.Machine

/-- `HPACK` (40_header_pack_unpack.md R130): byte 0 and byte 1. -/
def execHpack (fin : BitVec 1) (rsv : BitVec 3) (opcode : BitVec 4) (mask : BitVec 1) (len7 : BitVec 7) (s : State) :
    Host.Outcome State Fault Refusal :=
  .next (answer (.bytes (headerBytes ⟨fin, rsv, opcode, mask, len7⟩)) s)

/-- `HUNPACK` (40_header_pack_unpack.md R131): the field tuple. -/
def execHunpack (b0 b1 : Byte) (s : State) : Host.Outcome State Fault Refusal :=
  .next (answer (.header (hunpack b0 b1)) s)

/-- `LSEL` (41_length_field.md R140): the 7-bit field and the extension bytes; U5 when `HAS_LEN64 = 0` (log 14). -/
def execLsel (length : Word64) (s : State) : Host.Outcome State Fault Refusal :=
  if Config.payloadLengthMax < length.toNat then .refused .operandOutsideType
  else if Config.extension16Max < length.toNat ∧ s.hasLen64 = false then .refused .len64Unspecified
  else .next (answer (.lengthField (lsel length.toNat).1 (lsel length.toNat).2) s)

/-- `EXTN` (41_length_field.md R141). -/
def execExtn (len7 : BitVec 7) (s : State) : Host.Outcome State Fault Refusal :=
  .next (answer (.value (BitVec.ofNat 64 (extn len7))) s)

/-- `LEXT` (41_length_field.md R142): the operand is the `EXTN(len7)` bytes after the base header. -/
def execLext (len7 : BitVec 7) (ext : List Byte) (s : State) : Host.Outcome State Fault Refusal :=
  if ext.length = extn len7 then .next (answer (.value (BitVec.ofNat 64 (lext len7 ext))) s)
  else .refused .operandOutsideType

/-- `POFF` (41_length_field.md R143). -/
def execPoff (mask : BitVec 1) (len7 : BitVec 7) (s : State) : Host.Outcome State Fault Refusal :=
  .next (answer (.value (BitVec.ofNat 64 (poff mask len7))) s)

/-- `KEYGEN` (42_masking.md R153): `KeyDraw()` takes the next key. -/
def execKeygen (s : State) : Host.Outcome State Fault Refusal :=
  .next (answer (.bytes (keyBytes (keyDraw s).1)) (keyDraw s).2)

end Sys2Proof.Machine
end

