-- ==== Sys2Proof/Machine/Opcodes.lean ====
section
/-!
DEFINITION. The meanings of the sixteen opcode rows (45_opcodes.md R190 to R206): the framer has read a base header with
this opcode and receives the rest of the frame; the opcode goes to `RX.OPCODE` and selects nothing.
-/

namespace Sys2Proof.Machine

/-- Opcode 0, `CONTINUATION` (45_opcodes.md R190). -/
def execContinuation (fin : BitVec 1) (rsv : BitVec 3) (mask : BitVec 1) (len7 : BitVec 7) (s : State) :
    Host.Outcome State Fault Refusal :=
  runOpcode ⟨fin, rsv, 0#4, mask, len7⟩ s

/-- Opcode 1, `TEXT` (45_opcodes.md R191). -/
def execText (fin : BitVec 1) (rsv : BitVec 3) (mask : BitVec 1) (len7 : BitVec 7) (s : State) :
    Host.Outcome State Fault Refusal :=
  runOpcode ⟨fin, rsv, 1#4, mask, len7⟩ s

/-- Opcode 2, `BINARY` (45_opcodes.md R192). -/
def execBinary (fin : BitVec 1) (rsv : BitVec 3) (mask : BitVec 1) (len7 : BitVec 7) (s : State) :
    Host.Outcome State Fault Refusal :=
  runOpcode ⟨fin, rsv, 2#4, mask, len7⟩ s

/-- Opcode 3, `RSVD3` (45_opcodes.md R193). -/
def execRsvd3 (fin : BitVec 1) (rsv : BitVec 3) (mask : BitVec 1) (len7 : BitVec 7) (s : State) :
    Host.Outcome State Fault Refusal :=
  runOpcode ⟨fin, rsv, 3#4, mask, len7⟩ s

/-- Opcode 4, `RSVD4` (45_opcodes.md R194). -/
def execRsvd4 (fin : BitVec 1) (rsv : BitVec 3) (mask : BitVec 1) (len7 : BitVec 7) (s : State) :
    Host.Outcome State Fault Refusal :=
  runOpcode ⟨fin, rsv, 4#4, mask, len7⟩ s

/-- Opcode 5, `RSVD5` (45_opcodes.md R195). -/
def execRsvd5 (fin : BitVec 1) (rsv : BitVec 3) (mask : BitVec 1) (len7 : BitVec 7) (s : State) :
    Host.Outcome State Fault Refusal :=
  runOpcode ⟨fin, rsv, 5#4, mask, len7⟩ s

/-- Opcode 6, `RSVD6` (45_opcodes.md R196). -/
def execRsvd6 (fin : BitVec 1) (rsv : BitVec 3) (mask : BitVec 1) (len7 : BitVec 7) (s : State) :
    Host.Outcome State Fault Refusal :=
  runOpcode ⟨fin, rsv, 6#4, mask, len7⟩ s

/-- Opcode 7, `RSVD7` (45_opcodes.md R197). -/
def execRsvd7 (fin : BitVec 1) (rsv : BitVec 3) (mask : BitVec 1) (len7 : BitVec 7) (s : State) :
    Host.Outcome State Fault Refusal :=
  runOpcode ⟨fin, rsv, 7#4, mask, len7⟩ s

/-- Opcode 8, `CLOSE` (45_opcodes.md R198). -/
def execClose (fin : BitVec 1) (rsv : BitVec 3) (mask : BitVec 1) (len7 : BitVec 7) (s : State) :
    Host.Outcome State Fault Refusal :=
  runOpcode ⟨fin, rsv, 8#4, mask, len7⟩ s

/-- Opcode 9, `PING` (45_opcodes.md R199). -/
def execPing (fin : BitVec 1) (rsv : BitVec 3) (mask : BitVec 1) (len7 : BitVec 7) (s : State) :
    Host.Outcome State Fault Refusal :=
  runOpcode ⟨fin, rsv, 9#4, mask, len7⟩ s

/-- Opcode 10, `PONG` (45_opcodes.md R200). -/
def execPong (fin : BitVec 1) (rsv : BitVec 3) (mask : BitVec 1) (len7 : BitVec 7) (s : State) :
    Host.Outcome State Fault Refusal :=
  runOpcode ⟨fin, rsv, 10#4, mask, len7⟩ s

/-- Opcode 11, `RSVD11` (45_opcodes.md R201). -/
def execRsvd11 (fin : BitVec 1) (rsv : BitVec 3) (mask : BitVec 1) (len7 : BitVec 7) (s : State) :
    Host.Outcome State Fault Refusal :=
  runOpcode ⟨fin, rsv, 11#4, mask, len7⟩ s

/-- Opcode 12, `RSVD12` (45_opcodes.md R202). -/
def execRsvd12 (fin : BitVec 1) (rsv : BitVec 3) (mask : BitVec 1) (len7 : BitVec 7) (s : State) :
    Host.Outcome State Fault Refusal :=
  runOpcode ⟨fin, rsv, 12#4, mask, len7⟩ s

/-- Opcode 13, `RSVD13` (45_opcodes.md R203). -/
def execRsvd13 (fin : BitVec 1) (rsv : BitVec 3) (mask : BitVec 1) (len7 : BitVec 7) (s : State) :
    Host.Outcome State Fault Refusal :=
  runOpcode ⟨fin, rsv, 13#4, mask, len7⟩ s

/-- Opcode 14, `RSVD14` (45_opcodes.md R204). -/
def execRsvd14 (fin : BitVec 1) (rsv : BitVec 3) (mask : BitVec 1) (len7 : BitVec 7) (s : State) :
    Host.Outcome State Fault Refusal :=
  runOpcode ⟨fin, rsv, 14#4, mask, len7⟩ s

/-- Opcode 15, `RSVD15` (45_opcodes.md R205). -/
def execRsvd15 (fin : BitVec 1) (rsv : BitVec 3) (mask : BitVec 1) (len7 : BitVec 7) (s : State) :
    Host.Outcome State Fault Refusal :=
  runOpcode ⟨fin, rsv, 15#4, mask, len7⟩ s

end Sys2Proof.Machine
end

