-- ==== Sys2Proof/Machine/Operations.lean ====
section
/-!
DEFINITION. The meanings of the five host operations and of the pseudo-operation WRITE. The operands of an operation are
the fields of `CMD` (10_state.md R41).
-/

namespace Sys2Proof.Machine

/-- `ENCODE` (43_frame_encode.md R160). -/
def execEncode (s : State) : Host.Outcome State Fault Refusal :=
  match admission s with
  | some r => .refused r
  | none => encodePayload s.cmd.opcode s.cmd.useMask s.cmd.len.toNat s

/-- `DECODE` (44_frame_decode.md R170). -/
def execDecode (s : State) : Host.Outcome State Fault Refusal :=
  match admission s with
  | some r => .refused r
  | none =>
    if exceedsRaw s.cmd.len.toNat then .refused .payloadTooLarge
    else decodeRaw s.cmd.len.toNat (Memory.readUpTo s.rxi 0 s.cmd.len.toNat) (startReceive s)

/-- `RECV` (44_frame_decode.md R175): as far as the stream allows; it holds where bytes are missing (R177). -/
def execRecv (s : State) : Host.Outcome State Fault Refusal :=
  match admission s with
  | some r => .refused r
  | none => receiveFrame (startReceive s)

/-- `XMASK` (42_masking.md R152): writes XMO only. DESIGN CHOICE (log 26): where several refusals hold, PayloadTooLarge comes
before BadKey and BadKey before NoValue; the spec gives no order. -/
def execXmask (s : State) : Host.Outcome State Fault Refusal :=
  match admission s with
  | some r => .refused r
  | none =>
    if exceedsPayload s.cmd.len.toNat then .refused .payloadTooLarge
    else
      match keyOf s.cmd.key with
      | none => .refused .badKey
      | some k =>
        match Memory.readBytes s.txp 0 s.cmd.len.toNat with
        | none => .refused .noValue
        | some data => .next { s with xmo := Memory.ofBytes (xmask data k) }

/-- `RESET` (70_reset_and_hazards.md R240): accepted in every condition, never refused. -/
def execReset (s : State) : Host.Outcome State Fault Refusal :=
  .next (resetBlock s)

/-- The payload of `WRITE code msg`: the ASCII digit of the code, then the message (30_encoding.md R122). -/
def writePayload (code : Fin 7) (msg : List Byte) : List Byte :=
  BitVec.ofNat 8 (48 + code.val) :: msg

/-- The command that `WRITE` stands for (30_encoding.md R122): `ENCODE op=TEXT mask=1`. -/
def writeCmd (length : Nat) (old : Cmd) : Cmd :=
  { old with kind := .encode, opcode := 1#4, useMask := 1#1, len := BitVec.ofNat 64 length }

/-- The host's part of `WRITE`: the payload is placed in TXP and the command in CMD (log 19). -/
def writeSetup (code : Fin 7) (msg : List Byte) (s : State) : State :=
  { s with txp := Memory.writeBytes s.txp 0 (writePayload code msg), cmd := writeCmd (writePayload code msg).length s.cmd }

/-- `WRITE code msg` (30_encoding.md R122): expands to ENCODE. -/
def execWrite (code : Fin 7) (msg : List Byte) (s : State) : Host.Outcome State Fault Refusal :=
  match admission s with
  | some r => .refused r
  | none =>
    if exceedsPayload (writePayload code msg).length then .refused .payloadTooLarge
    else encodePayload 1#4 1#1 (writePayload code msg).length (writeSetup code msg s)

end Sys2Proof.Machine
end

