-- ==== Sys2Proof/Machine/Shapes.lean ====
section
/-!
DEFINITION. The meanings of the six shape rows (30_encoding.md R93 to R98, 20_memory.md R67): the framer has read a base
header of this shape and receives the rest of the frame by the row's layout.
-/

namespace Sys2Proof.Machine

/-- `L7.U` (30_encoding.md R93), `len7` in 0..125: no extension, no key. -/
def execL7u (b0 : Byte) (len7 : BitVec 7) (s : State) : Host.Outcome State Fault Refusal :=
  if len7.toNat ≤ Config.literalMax then runShape .l7u b0 0#1 len7 s else .refused .operandOutsideType

/-- `L16.U` (30_encoding.md R94): two extension bytes, no key. -/
def execL16u (b0 : Byte) (s : State) : Host.Outcome State Fault Refusal :=
  runShape .l16u b0 0#1 126#7 s

/-- `L64.U` (30_encoding.md R95): eight extension bytes, no key. -/
def execL64u (b0 : Byte) (s : State) : Host.Outcome State Fault Refusal :=
  runShape .l64u b0 0#1 127#7 s

/-- `L7.M` (30_encoding.md R96), `len7` in 0..125: no extension, four key bytes. -/
def execL7m (b0 : Byte) (len7 : BitVec 7) (s : State) : Host.Outcome State Fault Refusal :=
  if len7.toNat ≤ Config.literalMax then runShape .l7m b0 1#1 len7 s else .refused .operandOutsideType

/-- `L16.M` (30_encoding.md R97): two extension bytes, then four key bytes. -/
def execL16m (b0 : Byte) (s : State) : Host.Outcome State Fault Refusal :=
  runShape .l16m b0 1#1 126#7 s

/-- `L64.M` (30_encoding.md R98): eight extension bytes, then four key bytes. -/
def execL64m (b0 : Byte) (s : State) : Host.Outcome State Fault Refusal :=
  runShape .l64m b0 1#1 127#7 s

end Sys2Proof.Machine
end

