-- ==== Sys2Proof/Machine/Dispatch.lean ====
section
/-!
DEFINITION. The dispatch: one arm per row of spec/opcode_table.json.
-/

namespace Sys2Proof.Machine

def exec (i : Instr) (s : State) : Host.Outcome State Fault Refusal :=
  match i with
  | .continuation fin rsv mask len7 => Sys2Proof.Machine.execContinuation fin rsv mask len7 s
  | .text fin rsv mask len7 => Sys2Proof.Machine.execText fin rsv mask len7 s
  | .binary fin rsv mask len7 => Sys2Proof.Machine.execBinary fin rsv mask len7 s
  | .rsvd3 fin rsv mask len7 => Sys2Proof.Machine.execRsvd3 fin rsv mask len7 s
  | .rsvd4 fin rsv mask len7 => Sys2Proof.Machine.execRsvd4 fin rsv mask len7 s
  | .rsvd5 fin rsv mask len7 => Sys2Proof.Machine.execRsvd5 fin rsv mask len7 s
  | .rsvd6 fin rsv mask len7 => Sys2Proof.Machine.execRsvd6 fin rsv mask len7 s
  | .rsvd7 fin rsv mask len7 => Sys2Proof.Machine.execRsvd7 fin rsv mask len7 s
  | .close fin rsv mask len7 => Sys2Proof.Machine.execClose fin rsv mask len7 s
  | .ping fin rsv mask len7 => Sys2Proof.Machine.execPing fin rsv mask len7 s
  | .pong fin rsv mask len7 => Sys2Proof.Machine.execPong fin rsv mask len7 s
  | .rsvd11 fin rsv mask len7 => Sys2Proof.Machine.execRsvd11 fin rsv mask len7 s
  | .rsvd12 fin rsv mask len7 => Sys2Proof.Machine.execRsvd12 fin rsv mask len7 s
  | .rsvd13 fin rsv mask len7 => Sys2Proof.Machine.execRsvd13 fin rsv mask len7 s
  | .rsvd14 fin rsv mask len7 => Sys2Proof.Machine.execRsvd14 fin rsv mask len7 s
  | .rsvd15 fin rsv mask len7 => Sys2Proof.Machine.execRsvd15 fin rsv mask len7 s
  | .l7u b0 len7 => Sys2Proof.Machine.execL7u b0 len7 s
  | .l16u b0 => Sys2Proof.Machine.execL16u b0 s
  | .l64u b0 => Sys2Proof.Machine.execL64u b0 s
  | .l7m b0 len7 => Sys2Proof.Machine.execL7m b0 len7 s
  | .l16m b0 => Sys2Proof.Machine.execL16m b0 s
  | .l64m b0 => Sys2Proof.Machine.execL64m b0 s
  | .encode => Sys2Proof.Machine.execEncode s
  | .decode => Sys2Proof.Machine.execDecode s
  | .recv => Sys2Proof.Machine.execRecv s
  | .xmask => Sys2Proof.Machine.execXmask s
  | .reset => Sys2Proof.Machine.execReset s
  | .hpack fin rsv opcode mask len7 => Sys2Proof.Machine.execHpack fin rsv opcode mask len7 s
  | .hunpack b0 b1 => Sys2Proof.Machine.execHunpack b0 b1 s
  | .lsel length => Sys2Proof.Machine.execLsel length s
  | .extn len7 => Sys2Proof.Machine.execExtn len7 s
  | .lext len7 ext => Sys2Proof.Machine.execLext len7 ext s
  | .poff mask len7 => Sys2Proof.Machine.execPoff mask len7 s
  | .keygen => Sys2Proof.Machine.execKeygen s
  | .write code msg => Sys2Proof.Machine.execWrite code msg s

end Sys2Proof.Machine
end

