-- ==== Sys2Proof/Machine/HostInterface.lean ====
section
/-!
DEFINITION. The host interface (10_state.md R48) and the fetch of a frame row by a held RECV: everything that Step.lean
calls besides `exec`.
-/

namespace Sys2Proof.Machine

/-- The instruction that a command descriptor issues (10_state.md R41). -/
def commandInstr : CmdKind → Instr
  | .encode => .encode
  | .decode => .decode
  | .recv => .recv
  | .xmask => .xmask
  | .reset => .reset

/-- The first row of a decoded header. -/
def decodedOpcode (bs : List Byte) : Option Instr :=
  match decode bs with
  | .ok d => some d.opcodeRow
  | .error _ => none

/-- The second row of a decoded header. -/
def decodedShape (bs : List Byte) : Option Instr :=
  match decode bs with
  | .ok d => some d.shapeRow
  | .error _ => none

/-- The fetch of a held RECV (20_memory.md R74; log 3, log 4). In phase HDR, once two bytes are in RXQ, it takes the base
header from RXQ and gives its opcode row. In a later phase, once the group it waits for is in RXQ, it gives the shape
row of the base header it has taken. Otherwise there is nothing to fetch. -/
def fetch (s : State) : Option (Instr × State) :=
  match s.recv with
  | none => none
  | some taken =>
    if canResume taken s.rxq then
      match taken with
      | [] => (decodedOpcode s.rxq).map fun i => (i, { s with rxq := s.rxq.drop 2 })
      | _ :: _ => (decodedShape taken).map fun i => (i, s)
    else none

/-- Whether bytes `[offset, offset + count)` lie in a host-filled buffer (10_state.md R44, R45). -/
def inSpace (b : InBuffer) (offset count : Nat) : Bool :=
  match b with
  | .txp => !exceedsPayload (offset + count)
  | .rxi => !exceedsRaw (offset + count)

/-- The host writes into TXP or RXI (10_state.md R48, 00_scope.md R11). -/
def placeBytes (b : InBuffer) (offset : Nat) (bs : List Byte) (s : State) : State :=
  match b with
  | .txp => { s with txp := Memory.writeBytes s.txp offset bs }
  | .rxi => { s with rxi := Memory.writeBytes s.rxi offset bs }

/-- The refusal of a host write while a RECV holds (20_memory.md R66, R74; log 17). -/
def placeRefusal : InBuffer → Refusal
  | .txp => .busy
  | .rxi => .bufferChanged

/-- The registers of a side. -/
def sideRegs (s : State) : Side → FieldRegs
  | .tx => s.tx
  | .rx => s.rx

/-- The value of a field register, extended with zeros to 64 bits; a key as its bytes (10_state.md R21, R22). -/
def fieldValue (r : FieldRegs) : Field → Reply
  | .fin => .value (r.fin.setWidth 64)
  | .rsv => .value (r.rsv.setWidth 64)
  | .opcode => .value (r.opcode.setWidth 64)
  | .mask => .value (r.mask.setWidth 64)
  | .len7 => .value (r.len7.setWidth 64)
  | .paylen => .value r.paylen
  | .key => .bytes (keyBytes r.key)

/-- A host read of a field register: no value while the valid flag is 0, nor a `KEY` while its `MASK` is 0
(10_state.md R25). -/
def readField (s : State) (side : Side) (f : Field) : Option Reply :=
  if validFlag s side = false then none
  else if f = .key ∧ (sideRegs s side).mask ≠ 1#1 then none
  else some (fieldValue (sideRegs s side) f)

/-- A buffer that the host may read now: TXO and RXP only while their valid flag is 1 (10_state.md R44, R48;
70_reset_and_hazards.md R260 item 3). DESIGN CHOICE (log 25): XMO has no flag and may always be read. -/
def readableBuffer (s : State) : OutBuffer → Option Memory
  | .txo => if s.txv then some s.txo else none
  | .rxp => if s.rxv then some s.rxp else none
  | .xmo => some s.xmo

/-- A host read of buffer bytes: no value from a buffer that may not be read now, whatever the count, nor where a byte
holds none (10_state.md R25, R44, R48; log 25 for a read of no bytes). -/
def readBuffer (s : State) (b : OutBuffer) (offset count : Nat) : Option Reply :=
  (readableBuffer s b).bind fun m => (Memory.readBytes m offset count).map .bytes

/-- Whether a stream that begins with these bytes of the socket begins with byte 0 of a frame. -/
def beginsFrame : List SocketByte → Bool
  | [] => true
  | b :: _ => b.first

/-- The host appends to RXQ (10_state.md R46, R48) the next bytes the socket has delivered; any others are refused
(70_reset_and_hazards.md R260 item 4), and so is a first push after a reset that does not begin with byte 0 of a frame
(R252; 93_implementation_defined.md U6; log 20). -/
def pushStream (bs : List Byte) (s : State) : Host.Outcome State Fault Refusal :=
  if s.socket.data.take bs.length ≠ bs then .refused .notFromSocket
  else if s.socket.begun || beginsFrame (s.socket.bytes.take bs.length) then
    .next { s with rxq := s.rxq ++ bs,
                   socket := { bytes := s.socket.bytes.drop bs.length, begun := s.socket.begun || !bs.isEmpty } }
  else .refused .streamNotAligned

/-- The host drops bytes that it has read from the socket and will not push: what stands before the framed stream. Once
it has pushed, no byte may be left out (70_reset_and_hazards.md R252; log 20). DESIGN CHOICE (log 17): it goes on while a
RECV holds too. -/
def drainSocket (count : Nat) (s : State) : Host.Outcome State Fault Refusal :=
  if s.socket.begun then .refused .streamNotAligned
  else .next { s with socket := { s.socket with bytes := s.socket.bytes.drop count } }

/-- What an interaction comes to: an instruction to run, or the step itself. -/
inductive Turn where
  | run (i : Instr) (s : State)
  | done (o : Host.Outcome State Fault Refusal)

/-- A reply, or `NoValue` (60_exceptions.md R214). -/
def replyOrNoValue (r : Option Reply) (s : State) : Turn :=
  match r with
  | some v => .done (.next (answer v s))
  | none => .done (.refused .noValue)

/-- One interaction (10_state.md R48). `s` is the state without it. While a RECV holds the host may push, issue RESET and
read STATUS and CAP (20_memory.md R66, 10_state.md R42). DESIGN CHOICE (log 17): a key supply, a delivery by the socket and the
host's dropping of bytes it has not pushed go on then too, though R66 names none of them. DESIGN CHOICE (log 24): while `ERR` is not 0 only the
operations are refused (10_state.md R36), and the interactions that are no operation go on. -/
def hostTurn (a : HostAction) (s : State) : Turn :=
  match a with
  | .issue c => .run (commandInstr c.kind) { s with cmd := c }
  | .write code msg => .run (.write code msg) s
  | .place b offset bs =>
    if s.recv.isSome then .done (.refused (placeRefusal b))
    else if inSpace b offset bs.length then .done (.next (placeBytes b offset bs s))
    else .done (.fault .noSuchOffset)
  | .deliver bs => .done (.next { s with socket := { s.socket with bytes := s.socket.bytes ++ bs } })
  | .drain count => .done (drainSocket count s)
  | .push bs => .done (pushStream bs s)
  | .supplyKey k => .done (.next { s with keys := s.keys ++ [k] })
  | .readStatus => .done (.next (answer (statusReply s) s))
  | .readCap => .done (.next (answer (capReply s) s))
  | .readField side f =>
    if s.recv.isSome then .done (.refused .busy)
    else replyOrNoValue (readField s side f) s
  | .readBytes b offset count =>
    if s.recv.isSome then .done (.refused .busy)
    else replyOrNoValue (readBuffer s b offset count) s

end Sys2Proof.Machine
end

