-- ==== Sys2Proof/Machine/Step.lean ====
section
/-!
DEFINITION. One step of WSFC (10_state.md R48: a step is one interaction; 44_frame_decode.md R177: a held RECV resumes),
and the placing of a base header where the machine fetches.
-/

namespace Sys2Proof.Machine

/-- The host's turn: its next interaction, or nothing, in which case the block does nothing (10_state.md R49,
44_frame_decode.md R177; log 18). -/
def hostStep (s : State) : Host.Outcome State Fault Refusal :=
  match s.host with
  | [] => .next s
  | a :: rest =>
    match hostTurn a { s with host := rest } with
    | .run i s' => exec i s'
    | .done o => o

/-- One step: a held RECV whose bytes have come runs the row it fetches (log 3); otherwise it is the host's turn. -/
def step (s : State) : Host.Outcome State Fault Refusal :=
  match fetch s with
  | some (i, s') => exec i s'
  | none => hostStep s

/-- A base header placed where `step` fetches it: a RECV in phase HDR with the header at the head of RXQ, and zeros
after it up to the longest header (log 8). A row with no bits (`nbits = 0`) has `w = 0`. -/
def State.withFetchWord (s : State) (_nbits w : Nat) : State :=
  { s with recv := some [], rxPos := 0#64, rxv := false, err := .none, rxq := headerWordBytes w }

end Sys2Proof.Machine
end

