-- ==== Sys2Proof/Safety.lean ====
section
/-!
DEFINITION. The terms that claims use: when an operation is admitted, what a complete raw frame is, what a receive or an
encode leaves, and the invariant of the machine.
-/

namespace Sys2Proof.Machine

/-- An operation issued now is admitted: neither `Faulted` nor `Busy` (60_exceptions.md R214). -/
def State.Idle (s : State) : Prop :=
  s.err = .none ∧ s.recv = none

/-- The framer stands before a base header: no error, and no byte of a frame taken (10_state.md R32, phase HDR). -/
def State.AtHeader (s : State) : Prop :=
  s.err = .none ∧ (s.recv = none ∨ s.recv = some [])

/-- The sixteen opcode rows over one choice of the other header fields, each with its value (45_opcodes.md R190 to
R205). -/
def opcodeRows (fin : BitVec 1) (rsv : BitVec 3) (mask : BitVec 1) (len7 : BitVec 7) : List (BitVec 4 × Instr) :=
  [(0#4, .continuation fin rsv mask len7),
   (1#4, .text fin rsv mask len7),
   (2#4, .binary fin rsv mask len7),
   (3#4, .rsvd3 fin rsv mask len7),
   (4#4, .rsvd4 fin rsv mask len7),
   (5#4, .rsvd5 fin rsv mask len7),
   (6#4, .rsvd6 fin rsv mask len7),
   (7#4, .rsvd7 fin rsv mask len7),
   (8#4, .close fin rsv mask len7),
   (9#4, .ping fin rsv mask len7),
   (10#4, .pong fin rsv mask len7),
   (11#4, .rsvd11 fin rsv mask len7),
   (12#4, .rsvd12 fin rsv mask len7),
   (13#4, .rsvd13 fin rsv mask len7),
   (14#4, .rsvd14 fin rsv mask len7),
   (15#4, .rsvd15 fin rsv mask len7)]

/-- The six shape rows over one byte 0 and one literal `len7`, each with the `mask` and `len7` it stands for
(20_memory.md R67). -/
def shapeRows (b0 : Byte) (len7 : BitVec 7) : List (BitVec 1 × BitVec 7 × Instr) :=
  [(0#1, len7, .l7u b0 len7), (0#1, 126#7, .l16u b0), (0#1, 127#7, .l64u b0),
   (1#1, len7, .l7m b0 len7), (1#1, 126#7, .l16m b0), (1#1, 127#7, .l64m b0)]

/-- The instructions that work on the receive side: the frame rows, DECODE and RECV. -/
def receives : Instr → Bool
  | .continuation _ _ _ _ => true
  | .text _ _ _ _ => true
  | .binary _ _ _ _ => true
  | .rsvd3 _ _ _ _ => true
  | .rsvd4 _ _ _ _ => true
  | .rsvd5 _ _ _ _ => true
  | .rsvd6 _ _ _ _ => true
  | .rsvd7 _ _ _ _ => true
  | .close _ _ _ _ => true
  | .ping _ _ _ _ => true
  | .pong _ _ _ _ => true
  | .rsvd11 _ _ _ _ => true
  | .rsvd12 _ _ _ _ => true
  | .rsvd13 _ _ _ _ => true
  | .rsvd14 _ _ _ _ => true
  | .rsvd15 _ _ _ _ => true
  | .l7u _ _ => true
  | .l16u _ => true
  | .l64u _ => true
  | .l7m _ _ => true
  | .l16m _ => true
  | .l64m _ => true
  | .encode => false
  | .decode => true
  | .recv => true
  | .xmask => false
  | .reset => false
  | .hpack _ _ _ _ _ => false
  | .hunpack _ _ => false
  | .lsel _ => false
  | .extn _ => false
  | .lext _ _ => false
  | .poff _ _ => false
  | .keygen => false
  | .write _ _ => false

/-- The instructions that `Faulted` refuses: every operation but RESET, WRITE (60_exceptions.md R214), and the frame rows,
which are parts of RECV (log 5). -/
def refusedWhenFaulted (i : Instr) : Prop :=
  receives i = true ∨ i = .encode ∨ i = .xmask ∨ ∃ code msg, i = .write code msg

/-- A raw frame: base header, extension, key, payload as it lies on the wire (30_encoding.md R90). -/
def rawFrame (h : Header) (ext : List Byte) (k : Key) (payload : List Byte) : List Byte :=
  headerBytes h ++ ext ++ keyPart h.mask k ++ maskIf h.mask payload k

/-- The extension carries the payload's length, and the payload fits the buffers (30_encoding.md R100). -/
def FrameFits (h : Header) (ext : List Byte) (payload : List Byte) : Prop :=
  ext.length = extn h.len7 ∧ lext h.len7 ext = payload.length ∧ payload.length ≤ Config.maxPayload

/-- A buffer holds exactly these bytes from offset 0 on, and no value beyond them. -/
def Memory.Holds (m : Memory) (bs : List Byte) : Prop :=
  ∀ a, Memory.read m a = bs[a]?

/-- A buffer after these bytes were written over `old` from offset 0 on: beyond them it reads as `old` (00_scope.md R11,
20_memory.md R70). -/
def Memory.HoldsOver (m old : Memory) (bs : List Byte) : Prop :=
  ∀ a, Memory.read m a = if a < bs.length then bs[a]? else Memory.read old a

/-- Two buffers read alike at every offset. -/
def Memory.Same (m n : Memory) : Prop :=
  ∀ a, Memory.read m a = Memory.read n a

/-- The RX registers, RXP and `RXV` after a completed DECODE or RECV (44_frame_decode.md R170). -/
def State.Received (t : State) (h : Header) (k : Key) (payload : List Byte) : Prop :=
  t.rx.fin = h.fin ∧ t.rx.rsv = h.rsv ∧ t.rx.opcode = h.opcode ∧ t.rx.mask = h.mask ∧ t.rx.len7 = h.len7
    ∧ t.rx.paylen.toNat = payload.length ∧ (h.mask = 1#1 → t.rx.key = k)
    ∧ Memory.Holds t.rxp payload ∧ t.rxv = true ∧ t.err = .none ∧ t.rxPos = 0#64 ∧ t.recv = none

/-- What the receive side never changes: the transmit side, XMO, CMD, CAP and the model's own fields. -/
def State.SameOutsideReceive (s t : State) : Prop :=
  t.tx = s.tx ∧ t.txPos = s.txPos ∧ t.txv = s.txv ∧ Memory.Same t.txp s.txp ∧ Memory.Same t.txo s.txo
    ∧ Memory.Same t.xmo s.xmo ∧ t.cmd = s.cmd ∧ t.hasLen64 = s.hasLen64 ∧ t.keys = s.keys ∧ t.draws = s.draws
    ∧ t.socket = s.socket ∧ t.host = s.host ∧ t.reply = s.reply

/-- What the transmit side never changes: the receive side, `ERR`, XMO, CAP, the socket, the host's interactions, the reply. -/
def State.SameOutsideTransmit (s t : State) : Prop :=
  t.rx = s.rx ∧ t.rxPos = s.rxPos ∧ t.err = s.err ∧ t.rxv = s.rxv ∧ Memory.Same t.rxi s.rxi ∧ Memory.Same t.rxp s.rxp
    ∧ Memory.Same t.xmo s.xmo ∧ t.rxq = s.rxq ∧ t.recv = s.recv ∧ t.hasLen64 = s.hasLen64 ∧ t.socket = s.socket
    ∧ t.host = s.host ∧ t.reply = s.reply

/-- The state after `raise E` (60_exceptions.md R218): the code, no RX result, the cursor at 0, the operation over. -/
def State.Raised (t : State) (e : ErrorCode) : Prop :=
  t.err = e ∧ t.rxv = false ∧ t.rxPos = 0#64 ∧ t.recv = none

/-- The five buffers are in canonical form and lie in their spaces (10_state.md R44, R45; log 10). -/
def State.BuffersOk (s : State) : Prop :=
  (Memory.wf s.txp = true ∧ Memory.wf s.txo = true ∧ Memory.wf s.rxi = true ∧ Memory.wf s.rxp = true
    ∧ Memory.wf s.xmo = true)
  ∧ Memory.within s.txp Config.maxPayload = true
  ∧ Memory.within s.txo (Config.longestHeader + Config.maxPayload) = true
  ∧ Memory.within s.rxi (Config.longestHeader + Config.maxPayload) = true
  ∧ Memory.within s.rxp Config.maxPayload = true
  ∧ Memory.within s.xmo Config.maxPayload = true

/-- The cursors and the held RECV (10_state.md R30, R31; 44_frame_decode.md R177): a cursor is 0 unless a RECV holds,
then `RX.POS` counts the bytes taken, which are none or a begun header, and nothing is exposed or in error. -/
def State.CursorsOk (s : State) : Prop :=
  s.txPos = 0#64 ∧
  match s.recv with
  | none => s.rxPos = 0#64
  | some taken =>
    s.rxPos = BitVec.ofNat 64 taken.length ∧ taken.length ≠ 1 ∧ taken.length ≤ Config.longestHeader
      ∧ s.rxv = false ∧ s.err = .none

/-- `ERR` and `RXV` exclude each other (60_exceptions.md R218). -/
def State.FlagsOk (s : State) : Prop :=
  s.err ≠ .none → s.rxv = false

/-- While `TXV = 1` the TX registers describe the frame in TXO (10_state.md R24, R26, R27; 30_encoding.md R101). -/
def State.TransmitOk (s : State) : Prop :=
  s.txv = true →
    s.tx.fin = 1#1 ∧ s.tx.rsv = 0#3 ∧ s.tx.paylen.toNat ≤ Config.maxPayload ∧ s.tx.len7 = (lsel s.tx.paylen.toNat).1
      ∧ ∃ payload, payload.length = s.tx.paylen.toNat
        ∧ s.txo = Memory.ofBytes (frameBytes s.tx.opcode s.tx.mask s.tx.key payload)

/-- While `RXV = 1` the RX registers describe the payload in RXP (10_state.md R26, R27). -/
def State.ReceiveOk (s : State) : Prop :=
  s.rxv = true →
    s.rx.paylen.toNat ≤ Config.maxPayload
      ∧ ∃ payload, payload.length = s.rx.paylen.toNat ∧ s.rxp = Memory.ofBytes payload

/-- The invariant of the machine. -/
def State.Inv (s : State) : Prop :=
  s.BuffersOk ∧ s.CursorsOk ∧ s.FlagsOk ∧ s.TransmitOk ∧ s.ReceiveOk

end Sys2Proof.Machine
end

