-- ==== Sys2Proof/WellFormed.lean ====
section
/-!
DEFINITION. The operand ranges the spec gives, beyond what the operand types already say.
-/

namespace Sys2Proof

/-- An instruction whose operands lie in the ranges of its rule.

* `L7.U` and `L7.M` hold when `len7 <= 125` (30_encoding.md R93, R96).
* `LSEL` takes `0 <= L <= PAYLEN_MAX` (41_length_field.md R140).
* `LEXT` takes the `EXTN(len7)` bytes that follow the base header (41_length_field.md R141, R142). -/
def Instr.wellFormed : Instr → Bool
  | .l7u _ len7 => decide (len7.toNat ≤ 125)
  | .l7m _ len7 => decide (len7.toNat ≤ 125)
  | .lsel length => decide (length.toNat ≤ 2 ^ 63 - 1)
  | .lext len7 ext => decide (ext.length = if len7 = 126#7 then 2 else if len7 = 127#7 then 8 else 0)
  | _ => true

end Sys2Proof
end

