-- ==== Sys2Proof/Certificates/Slice0/Obligations.lean ====
section
/-!
DEFINITION. The statements about WSFC, each from the numbered rules its docstring cites. OBLIGATIONS.json lists them.
-/

open Sys2Proof Sys2Proof.Machine

/-! ### Encoding -/

/-- Base headers written out bit by bit from 30_encoding.md R91 (examples of R93 to R98, R190 to R205) decode to the
rows they stand for. -/
def Obligations.SpecHeadersDecode : Prop :=
  decodeTableWord 16 0x8105 = some (.text 1#1 0#3 0#1 5#7)
  ∧ decodeTableWord 16 0x8A00 = some (.pong 1#1 0#3 0#1 0#7)
  ∧ decodeTableWord 16 0x0AFE = some (.pong 0#1 0#3 1#1 126#7)
  ∧ decodeTableWord 16 0x427E = some (.binary 0#1 4#3 0#1 126#7)
  ∧ decodeTableWord 16 0x8500 = some (.rsvd5 1#1 0#3 0#1 0#7)
  ∧ (decode [0x81#8, 0xFE#8, 0x00#8]).toOption.map Decoded.shapeRow = some (.l16m 0x81#8)
  ∧ (decode [0x81#8, 0x7F#8]).toOption.map Decoded.shapeRow = some (.l64u 0x81#8)
  ∧ (decode [0x81#8, 0x05#8]).toOption.map Decoded.shapeRow = some (.l7u 0x81#8 5#7)
  ∧ decode [0x81#8] = .error .headerIncomplete

/-- Every opcode row comes back from its two bytes, with every field at every value and the bytes after it untouched
(30_encoding.md R91, R102). -/
def Obligations.OpcodeRowsDecodeBack : Prop :=
  ∀ (fin : BitVec 1) (rsv : BitVec 3) (mask : BitVec 1) (len7 : BitVec 7) (rest : List Byte) (op : BitVec 4) (i : Instr),
    (op, i) ∈ opcodeRows fin rsv mask len7 →
    ∃ sh, sh.wellFormed = true ∧ decode (encode i ++ rest) = .ok { opcodeRow := i, shapeRow := sh, rest := rest }

/-- Every well-formed shape row comes back from its two bytes (30_encoding.md R92 to R98). -/
def Obligations.ShapeRowsDecodeBack : Prop :=
  ∀ (b0 : Byte) (len7 : BitVec 7) (rest : List Byte) (m : BitVec 1) (l : BitVec 7) (i : Instr),
    len7.toNat ≤ 125 → (m, l, i) ∈ shapeRows b0 len7 →
    i.wellFormed = true ∧ ∃ op, decode (encode i ++ rest) = .ok { opcodeRow := op, shapeRow := i, rest := rest }

/-- R130: HPACK puts each field at its place in the 16-bit header, without overlap. R131: HUNPACK reads each field
from its bits. -/
def Obligations.HeaderPackAndUnpack : Prop :=
  (∀ h : Header, (hpack h).1.toNat * 256 + (hpack h).2.toNat
    = h.fin.toNat * 2 ^ 15 + h.rsv.toNat * 2 ^ 12 + h.opcode.toNat * 2 ^ 8 + h.mask.toNat * 2 ^ 7 + h.len7.toNat)
  ∧ (∀ b0 b1 : Byte, (hunpack b0 b1).fin.toNat = b0.toNat / 128
      ∧ (∀ i, i < 3 → (hunpack b0 b1).rsv.getMsbD i = b0.getLsbD (6 - i))
      ∧ (hunpack b0 b1).opcode.toNat = b0.toNat % 16
      ∧ (hunpack b0 b1).mask.toNat = b1.toNat / 128 ∧ (hunpack b0 b1).len7.toNat = b1.toNat % 128)

/-- HUNPACK and HPACK are inverse bijections (40_header_pack_unpack.md R132, which the spec derives from R130 and
R131). -/
def Obligations.HeaderPackUnpackInverse : Prop :=
  (∀ h : Header, hunpack (hpack h).1 (hpack h).2 = h) ∧ (∀ b0 b1 : Byte, hpack (hunpack b0 b1) = (b0, b1))

/-- R103, R102: no base header is illegal; each gives one opcode row and one shape row, well formed, and each of the
two encodes back to the same two bytes. -/
def Obligations.EveryHeaderHasItsTwoRows : Prop :=
  ∀ (b0 b1 : Byte) (rest : List Byte), ∃ d : Decoded,
    decode (b0 :: b1 :: rest) = .ok d ∧ d.rest = rest
    ∧ (∃ op, (op, d.opcodeRow) ∈ opcodeRows (hunpack b0 b1).fin (hunpack b0 b1).rsv (hunpack b0 b1).mask (hunpack b0 b1).len7)
    ∧ (∃ m l len7, (m, l, d.shapeRow) ∈ shapeRows b0 len7)
    ∧ d.shapeRow.wellFormed = true
    ∧ encode d.opcodeRow = [b0, b1] ∧ encode d.shapeRow = [b0, b1]

/-! ### Steps -/

/-- A held RECV in phase HDR with a header in RXQ: the step takes the two header bytes and is `exec` of the decoded
opcode row (44_frame_decode.md R175, R177; 20_memory.md R74; the model's logs 3, 4). -/
def Obligations.HeldReceiveRunsTheOpcodeRow : Prop :=
  ∀ (s : State) (b0 b1 : Byte) (q : List Byte) (d : Decoded),
    s.recv = some [] → s.rxq = b0 :: b1 :: q → decode s.rxq = .ok d →
    step s = exec d.opcodeRow { s with rxq := q }

/-- A held RECV past its base header whose next group is in RXQ: the step is `exec` of the shape row of the header it
has taken (44_frame_decode.md R176, R177; the model's logs 3, 4). -/
def Obligations.HeldReceiveRunsTheShapeRow : Prop :=
  ∀ (s : State) (b0 b1 : Byte) (u : List Byte) (d : Decoded),
    s.recv = some (b0 :: b1 :: u) → groupEnd (b0 :: b1 :: u) ≤ (b0 :: b1 :: u).length + s.rxq.length →
    decode (b0 :: b1 :: u) = .ok d →
    step s = exec d.shapeRow s

/-- With no RECV in progress the step is the host's next interaction: a command is written to CMD and the operation of its
KIND is run, WRITE is run; and with no interaction nothing changes (10_state.md R41, R48, R49; the model's log 1). -/
def Obligations.StepRunsTheHostsInstruction : Prop :=
  ∀ (s : State) (rest : List HostAction), s.recv = none →
    (∀ c, s.host = .issue c :: rest →
      (c.kind = .encode → step s = exec .encode { s with host := rest, cmd := c })
      ∧ (c.kind = .decode → step s = exec .decode { s with host := rest, cmd := c })
      ∧ (c.kind = .recv → step s = exec .recv { s with host := rest, cmd := c })
      ∧ (c.kind = .xmask → step s = exec .xmask { s with host := rest, cmd := c })
      ∧ (c.kind = .reset → step s = exec .reset { s with host := rest, cmd := c }))
    ∧ (∀ code msg, s.host = .write code msg :: rest → step s = exec (.write code msg) { s with host := rest })
    ∧ (s.host = [] → step s = .next s)

/-- RECV on a stream that begins with a header is the opcode row, and is the shape row, of that header run after it
(44_frame_decode.md R175, 30_encoding.md R102). -/
def Obligations.RecvIsTheRowsOfItsHeader : Prop :=
  ∀ (s : State) (b0 b1 : Byte) (q : List Byte) (d : Decoded),
    s.Idle → s.rxq = b0 :: b1 :: q → decode s.rxq = .ok d →
    exec .recv s = exec d.opcodeRow { s with rxq := q } ∧ exec .recv s = exec d.shapeRow { s with rxq := q }

/-! ### Functions -/

/-- The row HPACK completes: its bytes add up the shifted fields (R130). Delivery to the reply latch is the model's
choice (log 6); everything else is unchanged. -/
def Obligations.HpackPlacesTheFields : Prop :=
  ∀ (fin : BitVec 1) (rsv : BitVec 3) (opcode : BitVec 4) (mask : BitVec 1) (len7 : BitVec 7) (s : State),
    ∃ b0 b1 : Byte, exec (.hpack fin rsv opcode mask len7) s = .next { s with reply := .bytes [b0, b1] }
      ∧ b0.toNat = fin.toNat * 128 + rsv.toNat * 16 + opcode.toNat
      ∧ b1.toNat = mask.toNat * 128 + len7.toNat

/-- The row HUNPACK completes: the fields make up the two bytes, and their widths make them unique (R131). Delivery to
the reply latch is the model's choice (log 6); everything else is unchanged. -/
def Obligations.HunpackReadsTheFields : Prop :=
  ∀ (b0 b1 : Byte) (s : State),
    ∃ h : Header, exec (.hunpack b0 b1) s = .next { s with reply := .header h }
      ∧ b0.toNat = h.fin.toNat * 128 + h.rsv.toNat * 16 + h.opcode.toNat
      ∧ b1.toNat = h.mask.toNat * 128 + h.len7.toNat

/-- R140: LSEL, on every length of its operand type: the shape in the order of the rule, the extension most
significant byte first. -/
def Obligations.LengthShapeSelection : Prop :=
  ∀ n : Nat, n ≤ 2 ^ 63 - 1 →
    (n ≤ 125 → (lsel n).1.toNat = n ∧ (lsel n).2 = [])
    ∧ (125 < n → n ≤ 65535 → (lsel n).1 = 126#7
        ∧ ∃ e0 e1 : Byte, (lsel n).2 = [e0, e1] ∧ e0.toNat * 256 + e1.toNat = n)
    ∧ (65535 < n → (lsel n).1 = 127#7
        ∧ ∃ e0 e1 e2 e3 e4 e5 e6 e7 : Byte, (lsel n).2 = [e0, e1, e2, e3, e4, e5, e6, e7]
          ∧ e0.toNat * 2 ^ 24 + e1.toNat * 2 ^ 16 + e2.toNat * 2 ^ 8 + e3.toNat = n / 2 ^ 32
          ∧ e4.toNat * 2 ^ 24 + e5.toNat * 2 ^ 16 + e6.toNat * 2 ^ 8 + e7.toNat = n % 2 ^ 32)

/-- The row LSEL completes with the shortest shape and its big-endian extension (R140). Delivery to the reply latch is
the model's choice (log 6); everything else is unchanged. -/
def Obligations.LselChoosesTheShortestShape : Prop :=
  ∀ (length : Word64) (s : State), length.toNat ≤ 2 ^ 63 - 1 → (65535 < length.toNat → s.hasLen64 = true) →
    ∃ (len7 : BitVec 7) (ext : List Byte),
      exec (.lsel length) s = .next { s with reply := .lengthField len7 ext }
      ∧ (if length.toNat ≤ 125 then len7.toNat = length.toNat ∧ ext = []
         else if length.toNat ≤ 65535 then len7 = 126#7 ∧ ext.length = 2 ∧ beNat ext = length.toNat
         else len7 = 127#7 ∧ ext.length = 8 ∧ beNat ext = length.toNat)

/-- The row EXTN completes (R141). Delivery to the reply latch is the model's choice (log 6). -/
def Obligations.ExtnCountsExtensionBytes : Prop :=
  ∀ (len7 : BitVec 7) (s : State),
    exec (.extn len7) s =
      .next { s with reply := .value (if len7 = 126#7 then 2#64 else if len7 = 127#7 then 8#64 else 0#64) }

/-- The row LEXT completes, in all three cases, with the bytes written out (R142, R10). Delivery to the reply latch is
the model's choice (log 6). -/
def Obligations.LextReadsTheLength : Prop :=
  ∀ (s : State),
    (∀ len7 : BitVec 7, len7.toNat ≤ 125 → exec (.lext len7 []) s = .next { s with reply := .value (len7.setWidth 64) })
    ∧ (∀ e0 e1 : Byte, exec (.lext 126#7 [e0, e1]) s =
        .next { s with reply := .value (BitVec.ofNat 64 (e0.toNat * 256 + e1.toNat)) })
    ∧ (∀ e0 e1 e2 e3 e4 e5 e6 e7 : Byte, exec (.lext 127#7 [e0, e1, e2, e3, e4, e5, e6, e7]) s =
        .next { s with reply := .value (BitVec.ofNat 64
          ((e0.toNat * 2 ^ 24 + e1.toNat * 2 ^ 16 + e2.toNat * 2 ^ 8 + e3.toNat) * 2 ^ 32
            + (e4.toNat * 2 ^ 24 + e5.toNat * 2 ^ 16 + e6.toNat * 2 ^ 8 + e7.toNat))) })

/-- `LEXT(LSEL(L)) = L` for every `L` in `0 .. PAYLEN_MAX` (41_length_field.md R142, where the spec derives it from
R140 and R10). -/
def Obligations.LextInvertsLsel : Prop :=
  ∀ length : Nat, length ≤ 2 ^ 63 - 1 → lext (lsel length).1 (lsel length).2 = length

/-- The row POFF completes, with one value per shape (R143). Delivery to the reply latch is the model's choice (log
6). -/
def Obligations.PoffPerShape : Prop :=
  ∀ (s : State),
    (∀ len7 : BitVec 7, len7.toNat ≤ 125 →
      exec (.poff 0#1 len7) s = .next { s with reply := .value 2#64 }
      ∧ exec (.poff 1#1 len7) s = .next { s with reply := .value 6#64 })
    ∧ exec (.poff 0#1 126#7) s = .next { s with reply := .value 4#64 }
    ∧ exec (.poff 1#1 126#7) s = .next { s with reply := .value 8#64 }
    ∧ exec (.poff 0#1 127#7) s = .next { s with reply := .value 10#64 }
    ∧ exec (.poff 1#1 127#7) s = .next { s with reply := .value 14#64 }

/-- The row KEYGEN takes the next key (R153): a key the environment has named is used once, in order; where none is
named the key is any key and is still drawn. The supply queue and the delivery to the reply latch are the model's
choices (logs 13, 6). -/
def Obligations.KeygenDrawsOneKey : Prop :=
  ∀ (s : State),
    (∀ k ks, s.keys = k :: ks → exec .keygen s = .next { s with keys := ks, reply := .bytes (keyBytes k) })
    ∧ (s.keys = [] → ∃ k, exec .keygen s = .next { s with draws := s.draws + 1, reply := .bytes (keyBytes k) })

/-! ### Masking -/

/-- R150: the masking transform keeps the length, and byte `i` of the result is `data[i] XOR key[i mod 4]`; a key that
is not exactly four bytes is refused. -/
def Obligations.MaskingTransform : Prop :=
  (∀ (data : List Byte) (k0 k1 k2 k3 : Byte), (xmask data ⟨k0, k1, k2, k3⟩).length = data.length
    ∧ ∀ i, (xmask data ⟨k0, k1, k2, k3⟩)[i]? = (data[i]?).map fun b => b ^^^ ([k0, k1, k2, k3].getD (i % 4) 0#8))
  ∧ (∀ s : State, s.Idle → s.cmd.len.toNat ≤ Config.maxPayload → s.cmd.key.length ≠ 4 →
    exec .xmask s = .refused .badKey)

/-- XMASK writes the masked bytes of TXP to XMO and changes nothing else; it is refused while `ERR` is not 0 and above the
capacity (42_masking.md R150, R152, 10_state.md R44, 60_exceptions.md R214). Three points are the model's: that XMO is
replaced whole, so that nothing is held beyond `LEN` (DEDUCED from R44, log 10); that above the capacity the refusal is
PayloadTooLarge whatever the key is (log 26); and that ERR is answered before the other refusals in a state where an
operation is in progress too (log 26). -/
def Obligations.XmaskOperation : Prop :=
  (∀ (s : State) (data : List Byte) (k0 k1 k2 k3 : Byte),
    s.Idle → s.cmd.len.toNat ≤ Config.maxPayload → s.cmd.key = [k0, k1, k2, k3] →
    Memory.readBytes s.txp 0 s.cmd.len.toNat = some data →
    ∃ xmo : Memory, exec .xmask s = .next { s with xmo := xmo }
      ∧ ∀ i, Memory.read xmo i = (data[i]?).map fun b => b ^^^ ([k0, k1, k2, k3].getD (i % 4) 0#8))
  ∧ (∀ s : State, s.err ≠ .none → exec .xmask s = .refused .faulted)
  ∧ (∀ s : State, s.Idle → Config.maxPayload < s.cmd.len.toNat → exec .xmask s = .refused .payloadTooLarge)

/-- The masking transform is its own inverse, keeps the length, and splits with the key rotated by the length of the
first part (42_masking.md R151, items 1, 3, 4). -/
def Obligations.MaskingLaws : Prop :=
  (∀ (data : List Byte) (k : Key), xmask (xmask data k) k = data)
  ∧ (∀ (data : List Byte) (k : Key), (xmask data k).length = data.length)
  ∧ (∀ (a b : List Byte) (k : Key), a.length % 4 = 0 → xmask (a ++ b) k = xmask a k ++ xmask b k)
  ∧ (∀ (a b : List Byte) (k : Key), xmask (a ++ b) k =
      xmask a k ++ xmask b ⟨keyByte k a.length, keyByte k (a.length + 1), keyByte k (a.length + 2), keyByte k (a.length + 3)⟩)

/-- What XMASK answers in a block that is neither faulted nor busy (R214; `noValue` for bytes of TXP that were not
placed is the model's choice, log 15, and so is the order of the refusals, log 26). -/
def Obligations.XmaskRefusals : Prop :=
  ∀ (s : State), s.Idle →
    if Config.maxPayload < s.cmd.len.toNat then exec .xmask s = .refused .payloadTooLarge
    else if s.cmd.key.length ≠ 4 then exec .xmask s = .refused .badKey
    else if Memory.readBytes s.txp 0 s.cmd.len.toNat = none then exec .xmask s = .refused .noValue
    else ∃ t, exec .xmask s = .next t

/-! ### Encoding a frame -/

/-- ENCODE (R160, R153, R24) builds `header ‖ extension ‖ key ‖ body` in TXO and the TX registers; it draws one key
when `useMask = 1` and none otherwise; nothing else changes. -/
def Obligations.EncodeBuildsTheFrame : Prop :=
  ∀ (s : State) (data : List Byte),
    s.Idle → s.cmd.len.toNat ≤ Config.maxPayload → (65535 < s.cmd.len.toNat → s.hasLen64 = true) →
    Memory.readBytes s.txp 0 s.cmd.len.toNat = some data →
    ∃ (t : State) (k : Key), exec .encode s = .next t
      ∧ Memory.Holds t.txo (headerBytes ⟨1#1, 0#3, s.cmd.opcode, s.cmd.useMask, (lsel s.cmd.len.toNat).1⟩
          ++ (lsel s.cmd.len.toNat).2 ++ keyPart s.cmd.useMask k ++ maskIf s.cmd.useMask data k)
      ∧ t.tx.fin = 1#1 ∧ t.tx.rsv = 0#3 ∧ t.tx.opcode = s.cmd.opcode ∧ t.tx.mask = s.cmd.useMask
      ∧ t.tx.len7 = (lsel s.cmd.len.toNat).1 ∧ t.tx.paylen = s.cmd.len ∧ (s.cmd.useMask = 1#1 → t.tx.key = k)
      ∧ t.txv = true ∧ t.txPos = 0#64
      ∧ (s.cmd.useMask = 1#1 → ∀ k' ks, s.keys = k' :: ks → k = k' ∧ t.keys = ks ∧ t.draws = s.draws)
      ∧ (s.cmd.useMask = 1#1 → s.keys = [] → t.keys = [] ∧ t.draws = s.draws + 1)
      ∧ (s.cmd.useMask = 0#1 → t.keys = s.keys ∧ t.draws = s.draws)
      ∧ Memory.Same t.txp s.txp ∧ t.cmd = s.cmd ∧ s.SameOutsideTransmit t

/-- The encoded frame has `2 + EXTN(len7) + 4*m + L` bytes (43_frame_encode.md R161, which the spec derives from
R160). -/
def Obligations.EncodedFrameLength : Prop :=
  ∀ (s t : State), exec .encode s = .next t →
    ∀ a, (Memory.read t.txo a).isSome = true ↔
      a < 2 + (if s.cmd.len.toNat ≤ 125 then 0 else if s.cmd.len.toNat ≤ 65535 then 2 else 8)
        + 4 * s.cmd.useMask.toNat + s.cmd.len.toNat

/-- What ENCODE answers in a block that is neither faulted nor busy (R160, R214, U5; `len64Unspecified` and `noValue`
are the model's names, logs 14 and 15, and the order is its choice, log 26). -/
def Obligations.EncodeRefusals : Prop :=
  ∀ (s : State), s.Idle →
    if Config.maxPayload < s.cmd.len.toNat then exec .encode s = .refused .payloadTooLarge
    else if 65535 < s.cmd.len.toNat ∧ s.hasLen64 = false then exec .encode s = .refused .len64Unspecified
    else if Memory.readBytes s.txp 0 s.cmd.len.toNat = none then exec .encode s = .refused .noValue
    else ∃ t, exec .encode s = .next t

/-- WRITE is the masked TEXT ENCODE of the ASCII digit and the message (R122); that both are placed in TXP and CMD is
the model's choice (log 19). -/
def Obligations.WriteExpandsToEncode : Prop :=
  ∀ (s : State) (code : Fin 7) (msg : List Byte), s.Idle → msg.length + 1 ≤ Config.maxPayload →
    exec (.write code msg) s =
      exec .encode { s with txp := Memory.writeBytes s.txp 0 (BitVec.ofNat 8 (0x30 + code.val) :: msg),
                            cmd := { s.cmd with kind := .encode, opcode := 1#4, useMask := 1#1,
                                                len := BitVec.ofNat 64 (msg.length + 1) } }

/-- WRITE completes with a masked TEXT frame of the digit and the message (R122, R160; the placing in TXP is log 19).
-/
def Obligations.WriteEmitsMaskedText : Prop :=
  ∀ (s : State) (code : Fin 7) (msg : List Byte), s.Idle → msg.length + 1 ≤ Config.maxPayload →
    (65535 < msg.length + 1 → s.hasLen64 = true) →
    ∃ (t : State) (k : Key), exec (.write code msg) s = .next t ∧ t.tx.key = k
      ∧ Memory.Holds t.txo (headerBytes ⟨1#1, 0#3, 1#4, 1#1, (lsel (msg.length + 1)).1⟩ ++ (lsel (msg.length + 1)).2
          ++ keyBytes k ++ xmask (BitVec.ofNat 8 (0x30 + code.val) :: msg) k)
      ∧ t.tx.opcode = 1#4 ∧ t.tx.mask = 1#1 ∧ t.txv = true ∧ s.SameOutsideTransmit t
      ∧ ∀ a, msg.length + 1 ≤ a → Memory.read t.txp a = Memory.read s.txp a

/-! ### Decoding a frame -/

/-- DECODE (R170, R101) of a complete raw frame of at least three bytes exposes its fields and its unmasked payload,
and changes nothing else. -/
def Obligations.DecodeExposesTheFrame : Prop :=
  ∀ (s : State) (h : Header) (ext : List Byte) (k : Key) (payload : List Byte),
    s.Idle → FrameFits h ext payload → (h.len7 = 127#7 → s.hasLen64 = true) →
    3 ≤ poff h.mask h.len7 + payload.length →
    s.cmd.len.toNat = poff h.mask h.len7 + payload.length →
    Memory.readUpTo s.rxi 0 s.cmd.len.toNat = rawFrame h ext k payload →
    ∃ t, exec .decode s = .next t ∧ t.Received h k payload
      ∧ Memory.Same t.rxi s.rxi ∧ t.rxq = s.rxq ∧ s.SameOutsideReceive t

/-- R110: DECODE of a raw buffer of 0, 1 or 2 bytes raises MalformedPacket, whatever the bytes are. -/
def Obligations.ShortRawBuffersAreMalformed : Prop :=
  ∀ (s : State), s.Idle → s.cmd.len.toNat ≤ 2 → ∃ t, exec .decode s = .next t ∧ t.Raised .malformedPacket

/-- The four conditions under which DECODE raises MalformedPacket, and what that leaves (R170, R212, R110, R111, R108,
R218); for a frame with len7 = 127 in a block that has 64-bit lengths (U5). -/
def Obligations.DecodeRaisesMalformedPacket : Prop :=
  ∀ (s : State) (raw : List Byte),
    s.Idle → (3 ≤ raw.length → (headerOf raw).len7 = 127#7 → s.hasLen64 = true) → s.cmd.len.toNat = raw.length →
    raw.length ≤ 14 + Config.maxPayload → Memory.readUpTo s.rxi 0 s.cmd.len.toNat = raw →
    (raw.length < 3 ∨ raw.length < 2 + extn (headerOf raw).len7 ∨ 2 ^ 63 ≤ lengthOf raw
      ∨ raw.length ≠ poff (headerOf raw).mask (headerOf raw).len7 + lengthOf raw) →
    ∃ t, exec .decode s = .next t ∧ t.Raised .malformedPacket
      ∧ Memory.Same t.rxi s.rxi ∧ t.rxq = s.rxq ∧ s.SameOutsideReceive t

/-- What DECODE answers in a block that is neither faulted nor busy (R170, R214): for a buffer whose header was not placed,
for one that was placed in part, and for a whole frame. U5 and bytes that were not placed are the model's logs 14 and
15. -/
def Obligations.DecodeRefusals : Prop :=
  ∀ (s : State), s.Idle →
    (14 + Config.maxPayload < s.cmd.len.toNat → exec .decode s = .refused .payloadTooLarge)
    ∧ (s.cmd.len.toNat ≤ 14 + Config.maxPayload → 3 ≤ s.cmd.len.toNat →
      ∀ raw, Memory.readUpTo s.rxi 0 s.cmd.len.toNat = raw →
        (raw.length < 2 → exec .decode s = .refused .noValue)
        ∧ (2 ≤ raw.length → (headerOf raw).len7 = 127#7 → s.hasLen64 = false → exec .decode s = .refused .len64Unspecified)
        ∧ (2 ≤ raw.length → raw.length < s.cmd.len.toNat → ((headerOf raw).len7 = 127#7 → s.hasLen64 = true) →
          if s.cmd.len.toNat < 2 + extn (headerOf raw).len7 then
            ∃ t, exec .decode s = .next t ∧ t.Raised .malformedPacket
          else if raw.length < 2 + extn (headerOf raw).len7 then exec .decode s = .refused .noValue
          else if 2 ^ 63 ≤ lengthOf raw
              ∨ s.cmd.len.toNat ≠ poff (headerOf raw).mask (headerOf raw).len7 + lengthOf raw then
            ∃ t, exec .decode s = .next t ∧ t.Raised .malformedPacket
          else if Config.maxPayload < lengthOf raw then exec .decode s = .refused .payloadTooLarge
          else exec .decode s = .refused .noValue)
        ∧ (raw.length = s.cmd.len.toNat → ((headerOf raw).len7 = 127#7 → s.hasLen64 = true) →
          raw.length = poff (headerOf raw).mask (headerOf raw).len7 + lengthOf raw → lengthOf raw < 2 ^ 63 →
          if Config.maxPayload < lengthOf raw then exec .decode s = .refused .payloadTooLarge
          else ∃ t, exec .decode s = .next t ∧ t.rxv = true))

/-- The outcome of DECODE depends on the bytes of the raw buffer alone (44_frame_decode.md R172, which the spec
derives from R170). -/
def Obligations.DecodeDependsOnTheRawBytesAlone : Prop :=
  ∀ (s₁ s₂ : State),
    s₁.Idle → s₂.Idle → s₁.hasLen64 = s₂.hasLen64 → s₁.cmd.len = s₂.cmd.len →
    (∀ a, a < s₁.cmd.len.toNat → Memory.read s₁.rxi a = Memory.read s₂.rxi a) →
    match exec .decode s₁, exec .decode s₂ with
    | .next t₁, .next t₂ =>
      t₁.err = t₂.err ∧ t₁.rxv = t₂.rxv
        ∧ (t₁.rxv = true → t₁.rx.fin = t₂.rx.fin ∧ t₁.rx.rsv = t₂.rx.rsv ∧ t₁.rx.opcode = t₂.rx.opcode
            ∧ t₁.rx.mask = t₂.rx.mask ∧ t₁.rx.len7 = t₂.rx.len7 ∧ t₁.rx.paylen = t₂.rx.paylen
            ∧ (t₁.rx.mask = 1#1 → t₁.rx.key = t₂.rx.key) ∧ Memory.Same t₁.rxp t₂.rxp)
    | .refused r₁, .refused r₂ => r₁ = r₂
    | _, _ => False

/-- Round trip (43_frame_encode.md R162, which the spec derives from R160 and R170): ENCODE completes, and both DECODE
of the TXO it produced and RECV of it from RXQ give the payload and the fields back, but for the empty unmasked frame,
which raises MalformedPacket; RECV leaves the bytes behind the frame. -/
def Obligations.EncodeRoundTrip : Prop :=
  ∀ (s : State) (data : List Byte),
    s.Idle → s.cmd.len.toNat ≤ Config.maxPayload → (65535 < s.cmd.len.toNat → s.hasLen64 = true) →
    Memory.readBytes s.txp 0 s.cmd.len.toNat = some data →
    ∃ t, exec .encode s = .next t
      ∧ (∃ u, exec .decode { t with rxi := t.txo,
                                    cmd := { t.cmd with len := BitVec.ofNat 64 (poff t.tx.mask t.tx.len7 + data.length) } }
            = .next u
          ∧ (if s.cmd.useMask = 0#1 ∧ data = [] then u.Raised .malformedPacket
             else u.Received ⟨1#1, 0#3, s.cmd.opcode, s.cmd.useMask, t.tx.len7⟩ t.tx.key data))
      ∧ (∀ rest, ∃ u, exec .recv { t with rxq := Memory.bytes t.txo ++ rest } = .next u ∧ u.rxq = rest
          ∧ (if s.cmd.useMask = 0#1 ∧ data = [] then u.Raised .malformedPacket
             else u.Received ⟨1#1, 0#3, s.cmd.opcode, s.cmd.useMask, t.tx.len7⟩ t.tx.key data))

/-! ### Receiving a frame -/

/-- RECV (R175) on a stream that begins with a complete frame takes exactly that frame, leaves the bytes behind it,
places it in RXI over what was there (R11, 20_memory.md R70) and exposes it; nothing else changes. -/
def Obligations.RecvTakesOneFrame : Prop :=
  ∀ (s : State) (h : Header) (ext : List Byte) (k : Key) (payload rest : List Byte),
    s.Idle → FrameFits h ext payload → (h.len7 = 126#7 → payload ≠ []) → (h.len7 = 127#7 → s.hasLen64 = true) →
    3 ≤ poff h.mask h.len7 + payload.length → s.rxq = rawFrame h ext k payload ++ rest →
    ∃ t, exec .recv s = .next t ∧ t.Received h k payload ∧ t.rxq = rest
      ∧ Memory.HoldsOver t.rxi s.rxi (rawFrame h ext k payload) ∧ s.SameOutsideReceive t

/-- Each of the sixteen opcode rows (R175, R190 to R206) receives the frame of its header, from its base header on or
from where a held RECV of that frame stopped: the opcode goes to RX.OPCODE and everything else is the same for all
sixteen. That a row is run after its header has been taken is the model's choice (logs 4, 5). -/
def Obligations.OpcodeRowsReceiveTheirFrame : Prop :=
  ∀ (s : State) (h : Header) (ext : List Byte) (k : Key) (payload rest taken : List Byte) (i : Instr),
    (h.opcode, i) ∈ opcodeRows h.fin h.rsv h.mask h.len7 → s.err = .none →
    (s.AtHeader ∧ taken = headerBytes h ∨ s.recv = some taken ∧ 2 ≤ taken.length) →
    FrameFits h ext payload → (h.len7 = 126#7 → payload ≠ []) → (h.len7 = 127#7 → s.hasLen64 = true) →
    3 ≤ poff h.mask h.len7 + payload.length → taken.length ≤ poff h.mask h.len7 + payload.length →
    taken ++ s.rxq = rawFrame h ext k payload ++ rest →
    ∃ t, exec i s = .next t ∧ t.Received h k payload ∧ t.rxq = rest
      ∧ Memory.HoldsOver t.rxi s.rxi (rawFrame h ext k payload) ∧ s.SameOutsideReceive t

/-- Each of the six shape rows (R93 to R98, R177) receives the frame of its layout, from its base header on or from
where a held RECV of that frame stopped. That a row is run after its header has been taken is the model's choice (logs
4, 5). -/
def Obligations.ShapeRowsReceiveTheirFrame : Prop :=
  ∀ (s : State) (b0 : Byte) (len7 : BitVec 7) (m : BitVec 1) (l : BitVec 7) (i : Instr) (ext : List Byte) (k : Key)
    (payload rest taken : List Byte),
    len7.toNat ≤ 125 → (m, l, i) ∈ shapeRows b0 len7 → s.err = .none →
    (s.AtHeader ∧ taken = [b0, byteOne m l] ∨ s.recv = some taken ∧ 2 ≤ taken.length) →
    FrameFits (hunpack b0 (byteOne m l)) ext payload → (l = 126#7 → payload ≠ []) → (l = 127#7 → s.hasLen64 = true) →
    3 ≤ poff m l + payload.length → taken.length ≤ poff m l + payload.length →
    taken ++ s.rxq = rawFrame (hunpack b0 (byteOne m l)) ext k payload ++ rest →
    ∃ t, exec i s = .next t ∧ t.Received (hunpack b0 (byteOne m l)) k payload ∧ t.rxq = rest
      ∧ Memory.HoldsOver t.rxi s.rxi (rawFrame (hunpack b0 (byteOne m l)) ext k payload) ∧ s.SameOutsideReceive t

/-- R213, R215: InvalidExtendedLength and UnsupportedPlatform are raised by RECV exactly under their conditions, with
the bytes each leaves consumed, and by no other instruction; the frame rows are parts of RECV. `HAS_LEN64` is true for
this hardware, and where it is, no instruction raises UnsupportedPlatform. -/
def Obligations.StreamErrorsOfRecv : Prop :=
  (∀ (s : State) (b0 b1 : Byte) (r : List Byte), s.Idle → (hunpack b0 b1).len7 = 126#7 →
    s.rxq = b0 :: b1 :: 0#8 :: 0#8 :: r →
    ∃ t, exec .recv s = .next t ∧ t.Raised .invalidExtendedLength ∧ t.rxq = r)
  ∧ (∀ (s : State) (b0 b1 : Byte) (q : List Byte), s.Idle → (hunpack b0 b1).len7 = 127#7 → s.hasLen64 = false →
    s.rxq = b0 :: b1 :: q → ∃ t, exec .recv s = .next t ∧ t.Raised .unsupportedPlatform ∧ t.rxq = q)
  ∧ (∀ s t : State, exec .recv s = .next t → t.err = .invalidExtendedLength →
    ∃ b0 b1 r, s.rxq = b0 :: b1 :: 0#8 :: 0#8 :: r ∧ (hunpack b0 b1).len7 = 126#7)
  ∧ (∀ s t : State, exec .recv s = .next t → t.err = .unsupportedPlatform →
    s.hasLen64 = false ∧ ∃ b0 b1 q, s.rxq = b0 :: b1 :: q ∧ (hunpack b0 b1).len7 = 127#7)
  ∧ (∀ (i : Instr) (s t : State), receives i = false ∨ i = .decode → s.err = .none → exec i s = .next t →
    t.err ≠ .invalidExtendedLength ∧ t.err ≠ .unsupportedPlatform)
  ∧ (Config.hasLen64 = true ∧ ∀ (i : Instr) (s t : State), s.hasLen64 = true → s.err = .none → exec i s = .next t →
    t.err ≠ .unsupportedPlatform)

/-- The errors of the stream path (R213, R215, R212, R266, R218), with the bytes each leaves consumed and what each
leaves unchanged. -/
def Obligations.RecvRaises : Prop :=
  ∀ (s : State) (b0 b1 : Byte) (q : List Byte), s.Idle → s.rxq = b0 :: b1 :: q →
    (∀ r, (hunpack b0 b1).len7 = 126#7 → q = 0#8 :: 0#8 :: r →
      ∃ t, exec .recv s = .next t ∧ t.Raised .invalidExtendedLength ∧ t.rxq = r ∧ s.SameOutsideReceive t)
    ∧ ((hunpack b0 b1).len7 = 127#7 → s.hasLen64 = false →
      ∃ t, exec .recv s = .next t ∧ t.Raised .unsupportedPlatform ∧ t.rxq = q ∧ s.SameOutsideReceive t)
    ∧ (∀ e r, (hunpack b0 b1).len7 = 127#7 → s.hasLen64 = true → q = e ++ r → e.length = 8 → 2 ^ 63 ≤ beNat e →
      ∃ t, exec .recv s = .next t ∧ t.Raised .malformedPacket ∧ t.rxq = r ∧ s.SameOutsideReceive t)
    ∧ ((hunpack b0 b1).len7 = 0#7 → (hunpack b0 b1).mask = 0#1 →
      ∃ t, exec .recv s = .next t ∧ t.Raised .malformedPacket ∧ t.rxq = q ∧ s.SameOutsideReceive t)

/-- RECV and `Extent` give the same outcome and the same state for every stream; a completing RECV is DECODE of the
frame's bytes (44_frame_decode.md R178, which the spec derives from R175 and R65). How a hold is kept in the state is
the model's choice (log 2). -/
def Obligations.RecvAgreesWithExtent : Prop :=
  ∀ (s : State), s.Idle →
    match extent s.hasLen64 s.rxq with
    | .needMore => ∃ (t : State) (u : List Byte), exec .recv s = .next t ∧ t.recv = some u ∧ u ++ t.rxq = s.rxq
        ∧ t.rxPos.toNat = u.length ∧ t.rxv = false ∧ t.err = .none ∧ Memory.Same t.rxi s.rxi ∧ s.SameOutsideReceive t
    | .fault e consumed => ∃ t, exec .recv s = .next t ∧ t.Raised e ∧ t.rxq = s.rxq.drop consumed ∧ s.SameOutsideReceive t
    | .refuse r => exec .recv s = .refused r
    | .frame total => ∃ t, exec .recv s = .next t ∧ t.rxv = true ∧ t.rxq = s.rxq.drop total
        ∧ Memory.HoldsOver t.rxi s.rxi (s.rxq.take total) ∧ s.SameOutsideReceive t
        ∧ exec .decode { s with rxi := Memory.writeBytes s.rxi 0 (s.rxq.take total), rxq := s.rxq.drop total,
                                cmd := { s.cmd with len := BitVec.ofNat 64 total } }
          = .next { t with cmd := { s.cmd with len := BitVec.ofNat 64 total } }

/-- A RECV that holds (R177, R65) and is resumed by later bytes ends as one RECV over all the bytes; while the next
group is not complete it goes on holding with the bytes it has. How a hold is kept is the model's choice (logs 2, 3).
-/
def Obligations.HeldRecvResumesAsOneRecv : Prop :=
  ∀ (s t : State) (q₁ q₂ u : List Byte),
    s.Idle → exec .recv { s with rxq := q₁ } = .next t → t.recv = some u →
    if canResume u (t.rxq ++ q₂) = true then
      step { t with rxq := t.rxq ++ q₂ } = exec .recv { s with rxq := q₁ ++ q₂ }
    else exec .recv { s with rxq := q₁ ++ q₂ } = .next { t with rxq := t.rxq ++ q₂ }

/-- On a raw frame that DECODE accepts (44_frame_decode.md R179, derived in the spec), RECV completes with the same
registers and payload, but for a zero 16-bit extension. -/
def Obligations.DecodeAndRecvAgree : Prop :=
  ∀ (s t : State) (raw rest : List Byte),
    s.Idle → s.rxi = Memory.ofBytes raw → s.cmd.len.toNat = raw.length → exec .decode s = .next t → t.rxv = true →
    ¬ (t.rx.len7 = 126#7 ∧ t.rx.paylen = 0#64) →
    ∃ u, exec .recv { s with rxq := raw ++ rest } = .next u ∧ u.rx = t.rx ∧ Memory.Same u.rxp t.rxp ∧ u.rxv = true
      ∧ u.rxq = rest

/-- No instruction of the receive side (R22, R37) changes the transmit side, XMO, CMD or CAP. -/
def Obligations.ReceiveSideLeavesTheRest : Prop :=
  ∀ (i : Instr) (s t : State), receives i = true → exec i s = .next t → s.SameOutsideReceive t

/-- The valid flags (R37): after ENCODE or WRITE `TXV` is 1; after a receive row `RXV` is 1 exactly when it completed,
not when it raised or holds; RESET clears both; nothing else changes a flag, nor the flag of the other side. -/
def Obligations.ValidFlags : Prop :=
  ∀ (i : Instr) (s t : State), exec i s = .next t →
    if receives i = true then t.txv = s.txv ∧ (t.rxv = true ↔ t.err = .none ∧ t.recv = none)
    else if i = .reset then t.txv = false ∧ t.rxv = false
    else t.rxv = s.rxv ∧ ((i = .encode ∨ ∃ code msg, i = .write code msg) → t.txv = true)
      ∧ (¬ (i = .encode ∨ ∃ code msg, i = .write code msg) → t.txv = s.txv)

/-- ENCODE and WRITE (R21, R37) change neither the receive side nor `ERR` nor XMO. -/
def Obligations.TransmitSideLeavesTheRest : Prop :=
  ∀ (i : Instr) (s t : State), (i = .encode ∨ ∃ code msg, i = .write code msg) → exec i s = .next t →
    s.SameOutsideTransmit t

/-- While a RECV holds, every operation but RESET is refused `Busy` (R214, R71), WRITE too, and a frame row of another
header (the model's log 5). -/
def Obligations.BusyRefusesEveryOperationButReset : Prop :=
  ∀ (s : State) (taken : List Byte), s.err = .none → s.recv = some taken →
    exec .encode s = .refused .busy ∧ exec .decode s = .refused .busy ∧ exec .recv s = .refused .busy
    ∧ exec .xmask s = .refused .busy ∧ (∀ code msg, exec (.write code msg) s = .refused .busy)
    ∧ (∀ (h : Header) (i : Instr), (h.opcode, i) ∈ opcodeRows h.fin h.rsv h.mask h.len7 →
      taken ≠ [] → taken.take 2 ≠ headerBytes h → exec i s = .refused .busy)
    ∧ (∀ (b0 : Byte) (len7 : BitVec 7) (m : BitVec 1) (l : BitVec 7) (i : Instr), len7.toNat ≤ 125 →
      (m, l, i) ∈ shapeRows b0 len7 → taken ≠ [] → taken.take 2 ≠ [b0, byteOne m l] → exec i s = .refused .busy)

/-- What the host may do while RECV holds for missing bytes, and how everything else stops (R66, R71, R177, R42, R260; the
model's logs 17 and 20). That a key may be supplied, that the socket may deliver and that the host may drop bytes before
its first push is the model's choice (log 17). -/
def Obligations.HostWhileRecvHolds : Prop :=
  ∀ (s : State) (taken : List Byte) (a : HostAction) (rest : List HostAction),
    s.err = .none → s.recv = some taken → canResume taken s.rxq = false → s.host = a :: rest →
    match a with
    | .deliver bs => step s = .next { s with host := rest, socket := { s.socket with bytes := s.socket.bytes ++ bs } }
    | .drain n => if s.socket.begun = true then step s = .refused .streamNotAligned
        else step s = .next { s with host := rest, socket := { s.socket with bytes := s.socket.bytes.drop n } }
    | .push bs => if s.socket.data.take bs.length ≠ bs then step s = .refused .notFromSocket
        else if s.socket.begun = false ∧ (s.socket.bytes.take bs.length).head?.map SocketByte.first = some false then
          step s = .refused .streamNotAligned
        else step s = .next { s with host := rest, rxq := s.rxq ++ bs,
                                     socket := ⟨s.socket.bytes.drop bs.length, s.socket.begun || decide (bs ≠ [])⟩ }
    | .issue c => if c.kind = .reset then ∃ t, step s = .next t ∧ t.recv = none ∧ t.rxq = [] ∧ t.err = .none
        else step s = .refused .busy
    | .write _ _ => step s = .refused .busy
    | .place b _ _ => step s = .refused (if b = .txp then .busy else .bufferChanged)
    | .supplyKey k => step s = .next { s with host := rest, keys := s.keys ++ [k] }
    | .readStatus => step s = .next { s with host := rest, reply := .status 0#2 s.txv s.rxv }
    | .readCap => step s = .next { s with host := rest, reply := .capability s.hasLen64 }
    | .readField _ _ => step s = .refused .busy
    | .readBytes _ _ _ => step s = .refused .busy

/-! ### Reset, errors, reads -/

/-- RESET from every state (R240, R241, R219, R252): the bytes the host has read and not pushed are untouched, and the next
push is the first after a reset. The key supply, the free-value counter, the host's coming interactions and the
socket's bytes are the model's fields (logs 1, 13, 20). -/
def Obligations.ResetFromEveryState : Prop :=
  ∀ (s : State), ∃ t, exec .reset s = .next t
    ∧ t.err = .none ∧ t.txv = false ∧ t.rxv = false ∧ t.txPos = 0#64 ∧ t.rxPos = 0#64 ∧ t.rxq = [] ∧ t.recv = none
    ∧ t.phase = .hdr
    ∧ (∀ side f, readField t side f = none)
    ∧ Memory.Holds t.txp [] ∧ Memory.Holds t.txo [] ∧ Memory.Holds t.rxi [] ∧ Memory.Holds t.rxp [] ∧ Memory.Holds t.xmo []
    ∧ t.hasLen64 = s.hasLen64 ∧ t.keys = s.keys ∧ t.draws = s.draws ∧ t.host = s.host
    ∧ t.socket.bytes = s.socket.bytes ∧ t.socket.begun = false

/-- The values the spec gives the state after reset and power-up (R49). -/
def Obligations.ResetStateValues : Prop :=
  State.reset.err = .none ∧ State.reset.txv = false ∧ State.reset.rxv = false
  ∧ State.reset.txPos = 0#64 ∧ State.reset.rxPos = 0#64 ∧ State.reset.rxq = [] ∧ State.reset.hasLen64 = true
  ∧ State.reset.phase = .hdr ∧ (∀ side f, readField State.reset side f = none)
  ∧ Memory.Holds State.reset.txp [] ∧ Memory.Holds State.reset.txo [] ∧ Memory.Holds State.reset.rxi []
  ∧ Memory.Holds State.reset.rxp [] ∧ Memory.Holds State.reset.xmo []

/-- R36: `ERR` changes only by an instruction that ends in raise, which takes its code in a block without error and
has no result, and by RESET, which clears it; while it is not 0 every operation but RESET is refused. -/
def Obligations.ErrorIsSticky : Prop :=
  (∀ (i : Instr) (s t : State), exec i s = .next t → t.err ≠ s.err →
    (i = .reset ∧ t.err = .none) ∨ (receives i = true ∧ s.err = .none ∧ t.Raised t.err ∧ s.SameOutsideReceive t))
  ∧ (∀ s : State, ∃ t, exec .reset s = .next t ∧ t.err = .none)
  ∧ (∀ s : State, s.err ≠ .none → exec .encode s = .refused .faulted ∧ exec .decode s = .refused .faulted
    ∧ exec .recv s = .refused .faulted ∧ exec .xmask s = .refused .faulted
    ∧ ∀ code msg, exec (.write code msg) s = .refused .faulted)

/-- Along the machine's steps (R36, R219) an error stays until the host issues RESET. -/
def Obligations.ErrorStaysUntilReset : Prop :=
  ∀ (s t : State), s.err ≠ .none → step s = .next t →
    t.err = s.err ∨ (t.err = .none ∧ ∃ c rest, s.host = .issue c :: rest ∧ c.kind = .reset)

/-- R43: `CAP.HAS_LEN64` is the parameter and no step changes it; when it is 0, a received frame that needs the 64-bit
extension raises UnsupportedPlatform. -/
def Obligations.CapabilityIsHardwired : Prop :=
  State.reset.hasLen64 = Config.hasLen64
  ∧ (∀ (s t : State), step s = .next t → t.hasLen64 = s.hasLen64)
  ∧ (∀ (s : State) (b0 b1 : Byte) (q : List Byte), s.Idle → s.hasLen64 = false → (hunpack b0 b1).len7 = 127#7 →
    s.rxq = b0 :: b1 :: q → ∃ t, exec .recv s = .next t ∧ t.Raised .unsupportedPlatform)

/-- Host reads outside a held RECV (R25, R42, R48, R214). STATUS and CAP always answer; a field register answers only while
its valid flag is 1, a KEY only while its MASK is 1; TXO and RXP answer only while their valid flag is 1, whatever the
offset and the count; a read changes only the reply. Delivery to the reply latch is the model's choice (log 6), and so
are the reads of XMO, which has no flag, and of no bytes (log 25) and the reads in a faulted block (log 24). -/
def Obligations.HostReads : Prop :=
  ∀ (s : State) (rest : List HostAction), s.recv = none →
    (s.host = .readStatus :: rest →
      step s = .next { s with host := rest, reply := .status (errorCode s.err) s.txv s.rxv })
    ∧ (s.host = .readCap :: rest → step s = .next { s with host := rest, reply := .capability s.hasLen64 })
    ∧ (∀ side f, s.host = .readField side f :: rest →
      if validFlag s side = true ∧ (f = .key → (sideRegs s side).mask = 1#1)
      then step s = .next { s with host := rest, reply := fieldValue (sideRegs s side) f }
      else step s = .refused .noValue)
    ∧ (∀ b offset count, s.host = .readBytes b offset count :: rest →
      (b = .txo → s.txv = false → step s = .refused .noValue)
      ∧ (b = .rxp → s.rxv = false → step s = .refused .noValue)
      ∧ (∀ m, b = .txo ∧ s.txv = true ∧ m = s.txo ∨ b = .rxp ∧ s.rxv = true ∧ m = s.rxp ∨ b = .xmo ∧ m = s.xmo →
        match Memory.readBytes m offset count with
        | some bs => step s = .next { s with host := rest, reply := .bytes bs }
        | none => step s = .refused .noValue))

/-- The host's writes (R46, R44, R45, R153, R252, R260). The next bytes of the socket go to the tail of RXQ, and any others
are refused, and so is a first push after a reset that does not begin with byte 0 of a frame, and leaving bytes out
once the stream has begun; bytes placed in TXP or RXI are read back; an offset outside the space does not exist (the model's log 16).
That every other offset of the buffer reads as before is deduced from R70 (log 10). The key queue (log 13), the socket's
bytes (log 20) and writes in a faulted block (log 24) are the model's choices. -/
def Obligations.HostWrites : Prop :=
  ∀ (s : State) (rest : List HostAction), s.recv = none →
    (∀ bs, s.host = .deliver bs :: rest →
      step s = .next { s with host := rest, socket := { s.socket with bytes := s.socket.bytes ++ bs } })
    ∧ (∀ n, s.host = .drain n :: rest →
      if s.socket.begun = true then step s = .refused .streamNotAligned
      else step s = .next { s with host := rest, socket := { s.socket with bytes := s.socket.bytes.drop n } })
    ∧ (∀ bs, s.host = .push bs :: rest →
      if s.socket.data.take bs.length ≠ bs then step s = .refused .notFromSocket
      else if s.socket.begun = false ∧ (s.socket.bytes.take bs.length).head?.map SocketByte.first = some false then
        step s = .refused .streamNotAligned
      else step s = .next { s with host := rest, rxq := s.rxq ++ bs,
                                   socket := ⟨s.socket.bytes.drop bs.length, s.socket.begun || decide (bs ≠ [])⟩ })
    ∧ (∀ k, s.host = .supplyKey k :: rest → step s = .next { s with host := rest, keys := s.keys ++ [k] })
    ∧ (∀ offset bs, s.host = .place .txp offset bs :: rest →
      if offset + bs.length ≤ Config.maxPayload then
        ∃ m, step s = .next { s with host := rest, txp := m }
          ∧ ∀ a, Memory.read m a = if offset ≤ a ∧ a < offset + bs.length then bs[a - offset]? else Memory.read s.txp a
      else step s = .fault .noSuchOffset)
    ∧ (∀ offset bs, s.host = .place .rxi offset bs :: rest →
      if offset + bs.length ≤ 14 + Config.maxPayload then
        ∃ m, step s = .next { s with host := rest, rxi := m }
          ∧ ∀ a, Memory.read m a = if offset ≤ a ∧ a < offset + bs.length then bs[a - offset]? else Memory.read s.rxi a
      else step s = .fault .noSuchOffset)

/-- Operands outside the type of their rule stop by name (30_encoding.md R93, R96; 41_length_field.md R140, R142; U5;
the model's logs 14 and 22). -/
def Obligations.OperandsOutsideTheirTypeStop : Prop :=
  (∀ (b0 : Byte) (len7 : BitVec 7) (s : State), 125 < len7.toNat →
    exec (.l7u b0 len7) s = .refused .operandOutsideType ∧ exec (.l7m b0 len7) s = .refused .operandOutsideType)
  ∧ (∀ (length : Word64) (s : State), 2 ^ 63 ≤ length.toNat → exec (.lsel length) s = .refused .operandOutsideType)
  ∧ (∀ (length : Word64) (s : State), 65535 < length.toNat → length.toNat < 2 ^ 63 → s.hasLen64 = false →
    exec (.lsel length) s = .refused .len64Unspecified)
  ∧ (∀ (len7 : BitVec 7) (ext : List Byte) (s : State), ext.length ≠ extn len7 →
    exec (.lext len7 ext) s = .refused .operandOutsideType)

/-! ### The invariant -/

/-- The reset state meets the invariant (R49; the buffers' form is the model's, log 10). -/
def Obligations.ResetMeetsTheInvariant : Prop :=
  State.reset.Inv

/-- Every step (R24, R26, R27, R30, R31, R44, R45, R218; the forms of buffers and holds are the model's, logs 2, 10)
from a state that meets the invariant gives one that meets it: the buffers stay canonical and in their spaces, the
cursors count what is taken, an error leaves no receive result, and the registers describe the frame in TXO and the
payload in RXP while their valid flag is 1. -/
def Obligations.EveryStepKeepsTheInvariant : Prop :=
  ∀ (s t : State), s.Inv → step s = .next t → t.Inv

/-! ### Further rules of the whole machine -/

/-- While `ERR` is not 0 every well-formed frame row is refused as Faulted too, beside the operations and WRITE (R36,
R214). The spec has no rule for a frame row outside a RECV: that is the model's choice (log 5). -/
def Obligations.FaultedRefusesFrameRowsAndOperations : Prop :=
  ∀ (i : Instr) (s : State), s.err ≠ .none → i.wellFormed = true → refusedWhenFaulted i → exec i s = .refused .faulted

/-- Every byte of RXQ came, in order, from the socket, and the stream begins with byte 0 of a frame (R46, R241, R252, R260
item 4). A step that goes on takes bytes only from the head of the stream, and only by a RECV; or the socket delivers
more at its end; or, before the stream has begun, the host drops bytes it will not push; or RESET empties RXQ. A stream
that begins does so with byte 0 of a frame. The bytes that the socket has delivered are the model's own field (log 20).
-/
def Obligations.StreamBytesComeFromTheSocket : Prop :=
  ∀ (s t : State), step s = .next t →
    ((∃ taken, s.rxq ++ s.socket.data = taken ++ (t.rxq ++ t.socket.data)
        ∧ (taken ≠ [] → s.recv ≠ none ∨ ∃ c rest, s.host = .issue c :: rest ∧ c.kind = .recv))
      ∨ (∃ bs rest, s.host = .deliver bs :: rest ∧ t.rxq = s.rxq ∧ t.socket.bytes = s.socket.bytes ++ bs)
      ∨ (s.socket.begun = false ∧ ∃ n rest, s.host = .drain n :: rest ∧ t.rxq = s.rxq
        ∧ t.socket.bytes = s.socket.bytes.drop n)
      ∨ (t.rxq = [] ∧ t.socket.bytes = s.socket.bytes ∧ t.socket.begun = false
        ∧ ∃ c rest, s.host = .issue c :: rest ∧ c.kind = .reset))
    ∧ (s.socket.begun = false → t.socket.begun = true →
      ∃ b, s.socket.bytes.head? = some b ∧ b.first = true)
    ∧ (s.socket.begun = true → t.socket.begun = false → ∃ c rest, s.host = .issue c :: rest ∧ c.kind = .reset)
end

