-- ==== Sys2Proof/Laws/State.lean ====
section
/-!
SUPPORT. One lemma per field per named update of State, each true by rfl, so that no proof unfolds a record update.
-/

namespace Sys2Proof.Machine

/-! ### raise -/

@[simp] theorem raise_tx (e : ErrorCode) (s : State) : (raise e s).tx = s.tx := rfl
@[simp] theorem raise_rx (e : ErrorCode) (s : State) : (raise e s).rx = s.rx := rfl
@[simp] theorem raise_txPos (e : ErrorCode) (s : State) : (raise e s).txPos = s.txPos := rfl
@[simp] theorem raise_rxPos (e : ErrorCode) (s : State) : (raise e s).rxPos = 0#64 := rfl
@[simp] theorem raise_err (e : ErrorCode) (s : State) : (raise e s).err = e := rfl
@[simp] theorem raise_txv (e : ErrorCode) (s : State) : (raise e s).txv = s.txv := rfl
@[simp] theorem raise_rxv (e : ErrorCode) (s : State) : (raise e s).rxv = false := rfl
@[simp] theorem raise_txp (e : ErrorCode) (s : State) : (raise e s).txp = s.txp := rfl
@[simp] theorem raise_txo (e : ErrorCode) (s : State) : (raise e s).txo = s.txo := rfl
@[simp] theorem raise_rxi (e : ErrorCode) (s : State) : (raise e s).rxi = s.rxi := rfl
@[simp] theorem raise_rxp (e : ErrorCode) (s : State) : (raise e s).rxp = s.rxp := rfl
@[simp] theorem raise_xmo (e : ErrorCode) (s : State) : (raise e s).xmo = s.xmo := rfl
@[simp] theorem raise_rxq (e : ErrorCode) (s : State) : (raise e s).rxq = s.rxq := rfl
@[simp] theorem raise_cmd (e : ErrorCode) (s : State) : (raise e s).cmd = s.cmd := rfl
@[simp] theorem raise_hasLen64 (e : ErrorCode) (s : State) : (raise e s).hasLen64 = s.hasLen64 := rfl
@[simp] theorem raise_recv (e : ErrorCode) (s : State) : (raise e s).recv = none := rfl
@[simp] theorem raise_keys (e : ErrorCode) (s : State) : (raise e s).keys = s.keys := rfl
@[simp] theorem raise_draws (e : ErrorCode) (s : State) : (raise e s).draws = s.draws := rfl
@[simp] theorem raise_socket (e : ErrorCode) (s : State) : (raise e s).socket = s.socket := rfl
@[simp] theorem raise_host (e : ErrorCode) (s : State) : (raise e s).host = s.host := rfl
@[simp] theorem raise_reply (e : ErrorCode) (s : State) : (raise e s).reply = s.reply := rfl

/-! ### startReceive -/

@[simp] theorem startReceive_tx (s : State) : (startReceive s).tx = s.tx := rfl
@[simp] theorem startReceive_rx (s : State) : (startReceive s).rx = s.rx := rfl
@[simp] theorem startReceive_txPos (s : State) : (startReceive s).txPos = s.txPos := rfl
@[simp] theorem startReceive_rxPos (s : State) : (startReceive s).rxPos = 0#64 := rfl
@[simp] theorem startReceive_err (s : State) : (startReceive s).err = s.err := rfl
@[simp] theorem startReceive_txv (s : State) : (startReceive s).txv = s.txv := rfl
@[simp] theorem startReceive_rxv (s : State) : (startReceive s).rxv = false := rfl
@[simp] theorem startReceive_txp (s : State) : (startReceive s).txp = s.txp := rfl
@[simp] theorem startReceive_txo (s : State) : (startReceive s).txo = s.txo := rfl
@[simp] theorem startReceive_rxi (s : State) : (startReceive s).rxi = s.rxi := rfl
@[simp] theorem startReceive_rxp (s : State) : (startReceive s).rxp = s.rxp := rfl
@[simp] theorem startReceive_xmo (s : State) : (startReceive s).xmo = s.xmo := rfl
@[simp] theorem startReceive_rxq (s : State) : (startReceive s).rxq = s.rxq := rfl
@[simp] theorem startReceive_cmd (s : State) : (startReceive s).cmd = s.cmd := rfl
@[simp] theorem startReceive_hasLen64 (s : State) : (startReceive s).hasLen64 = s.hasLen64 := rfl
@[simp] theorem startReceive_recv (s : State) : (startReceive s).recv = s.recv := rfl
@[simp] theorem startReceive_keys (s : State) : (startReceive s).keys = s.keys := rfl
@[simp] theorem startReceive_draws (s : State) : (startReceive s).draws = s.draws := rfl
@[simp] theorem startReceive_socket (s : State) : (startReceive s).socket = s.socket := rfl
@[simp] theorem startReceive_host (s : State) : (startReceive s).host = s.host := rfl
@[simp] theorem startReceive_reply (s : State) : (startReceive s).reply = s.reply := rfl

/-! ### holdReceive -/

@[simp] theorem holdReceive_tx (taken q : List Byte) (s : State) : (holdReceive taken q s).tx = s.tx := rfl
@[simp] theorem holdReceive_rx (taken q : List Byte) (s : State) : (holdReceive taken q s).rx = s.rx := rfl
@[simp] theorem holdReceive_txPos (taken q : List Byte) (s : State) : (holdReceive taken q s).txPos = s.txPos := rfl
@[simp] theorem holdReceive_rxPos (taken q : List Byte) (s : State) : (holdReceive taken q s).rxPos = BitVec.ofNat 64 taken.length := rfl
@[simp] theorem holdReceive_err (taken q : List Byte) (s : State) : (holdReceive taken q s).err = s.err := rfl
@[simp] theorem holdReceive_txv (taken q : List Byte) (s : State) : (holdReceive taken q s).txv = s.txv := rfl
@[simp] theorem holdReceive_rxv (taken q : List Byte) (s : State) : (holdReceive taken q s).rxv = s.rxv := rfl
@[simp] theorem holdReceive_txp (taken q : List Byte) (s : State) : (holdReceive taken q s).txp = s.txp := rfl
@[simp] theorem holdReceive_txo (taken q : List Byte) (s : State) : (holdReceive taken q s).txo = s.txo := rfl
@[simp] theorem holdReceive_rxi (taken q : List Byte) (s : State) : (holdReceive taken q s).rxi = s.rxi := rfl
@[simp] theorem holdReceive_rxp (taken q : List Byte) (s : State) : (holdReceive taken q s).rxp = s.rxp := rfl
@[simp] theorem holdReceive_xmo (taken q : List Byte) (s : State) : (holdReceive taken q s).xmo = s.xmo := rfl
@[simp] theorem holdReceive_rxq (taken q : List Byte) (s : State) : (holdReceive taken q s).rxq = q := rfl
@[simp] theorem holdReceive_cmd (taken q : List Byte) (s : State) : (holdReceive taken q s).cmd = s.cmd := rfl
@[simp] theorem holdReceive_hasLen64 (taken q : List Byte) (s : State) : (holdReceive taken q s).hasLen64 = s.hasLen64 := rfl
@[simp] theorem holdReceive_recv (taken q : List Byte) (s : State) : (holdReceive taken q s).recv = some taken := rfl
@[simp] theorem holdReceive_keys (taken q : List Byte) (s : State) : (holdReceive taken q s).keys = s.keys := rfl
@[simp] theorem holdReceive_draws (taken q : List Byte) (s : State) : (holdReceive taken q s).draws = s.draws := rfl
@[simp] theorem holdReceive_socket (taken q : List Byte) (s : State) : (holdReceive taken q s).socket = s.socket := rfl
@[simp] theorem holdReceive_host (taken q : List Byte) (s : State) : (holdReceive taken q s).host = s.host := rfl
@[simp] theorem holdReceive_reply (taken q : List Byte) (s : State) : (holdReceive taken q s).reply = s.reply := rfl

/-! ### placeFrame -/

@[simp] theorem placeFrame_tx (raw q : List Byte) (s : State) : (placeFrame raw q s).tx = s.tx := rfl
@[simp] theorem placeFrame_rx (raw q : List Byte) (s : State) : (placeFrame raw q s).rx = s.rx := rfl
@[simp] theorem placeFrame_txPos (raw q : List Byte) (s : State) : (placeFrame raw q s).txPos = s.txPos := rfl
@[simp] theorem placeFrame_rxPos (raw q : List Byte) (s : State) : (placeFrame raw q s).rxPos = s.rxPos := rfl
@[simp] theorem placeFrame_err (raw q : List Byte) (s : State) : (placeFrame raw q s).err = s.err := rfl
@[simp] theorem placeFrame_txv (raw q : List Byte) (s : State) : (placeFrame raw q s).txv = s.txv := rfl
@[simp] theorem placeFrame_rxv (raw q : List Byte) (s : State) : (placeFrame raw q s).rxv = s.rxv := rfl
@[simp] theorem placeFrame_txp (raw q : List Byte) (s : State) : (placeFrame raw q s).txp = s.txp := rfl
@[simp] theorem placeFrame_txo (raw q : List Byte) (s : State) : (placeFrame raw q s).txo = s.txo := rfl
@[simp] theorem placeFrame_rxi (raw q : List Byte) (s : State) : (placeFrame raw q s).rxi = Memory.writeBytes s.rxi 0 raw := rfl
@[simp] theorem placeFrame_rxp (raw q : List Byte) (s : State) : (placeFrame raw q s).rxp = s.rxp := rfl
@[simp] theorem placeFrame_xmo (raw q : List Byte) (s : State) : (placeFrame raw q s).xmo = s.xmo := rfl
@[simp] theorem placeFrame_rxq (raw q : List Byte) (s : State) : (placeFrame raw q s).rxq = q := rfl
@[simp] theorem placeFrame_cmd (raw q : List Byte) (s : State) : (placeFrame raw q s).cmd = s.cmd := rfl
@[simp] theorem placeFrame_hasLen64 (raw q : List Byte) (s : State) : (placeFrame raw q s).hasLen64 = s.hasLen64 := rfl
@[simp] theorem placeFrame_recv (raw q : List Byte) (s : State) : (placeFrame raw q s).recv = s.recv := rfl
@[simp] theorem placeFrame_keys (raw q : List Byte) (s : State) : (placeFrame raw q s).keys = s.keys := rfl
@[simp] theorem placeFrame_draws (raw q : List Byte) (s : State) : (placeFrame raw q s).draws = s.draws := rfl
@[simp] theorem placeFrame_socket (raw q : List Byte) (s : State) : (placeFrame raw q s).socket = s.socket := rfl
@[simp] theorem placeFrame_host (raw q : List Byte) (s : State) : (placeFrame raw q s).host = s.host := rfl
@[simp] theorem placeFrame_reply (raw q : List Byte) (s : State) : (placeFrame raw q s).reply = s.reply := rfl

/-! ### exposeFrame -/

@[simp] theorem exposeFrame_tx (f : DecodedFrame) (s : State) : (exposeFrame f s).tx = s.tx := rfl
@[simp] theorem exposeFrame_rx (f : DecodedFrame) (s : State) : (exposeFrame f s).rx = rxRegs s.rx f := rfl
@[simp] theorem exposeFrame_txPos (f : DecodedFrame) (s : State) : (exposeFrame f s).txPos = s.txPos := rfl
@[simp] theorem exposeFrame_rxPos (f : DecodedFrame) (s : State) : (exposeFrame f s).rxPos = 0#64 := rfl
@[simp] theorem exposeFrame_err (f : DecodedFrame) (s : State) : (exposeFrame f s).err = s.err := rfl
@[simp] theorem exposeFrame_txv (f : DecodedFrame) (s : State) : (exposeFrame f s).txv = s.txv := rfl
@[simp] theorem exposeFrame_rxv (f : DecodedFrame) (s : State) : (exposeFrame f s).rxv = true := rfl
@[simp] theorem exposeFrame_txp (f : DecodedFrame) (s : State) : (exposeFrame f s).txp = s.txp := rfl
@[simp] theorem exposeFrame_txo (f : DecodedFrame) (s : State) : (exposeFrame f s).txo = s.txo := rfl
@[simp] theorem exposeFrame_rxi (f : DecodedFrame) (s : State) : (exposeFrame f s).rxi = s.rxi := rfl
@[simp] theorem exposeFrame_rxp (f : DecodedFrame) (s : State) : (exposeFrame f s).rxp = Memory.ofBytes f.payload := rfl
@[simp] theorem exposeFrame_xmo (f : DecodedFrame) (s : State) : (exposeFrame f s).xmo = s.xmo := rfl
@[simp] theorem exposeFrame_rxq (f : DecodedFrame) (s : State) : (exposeFrame f s).rxq = s.rxq := rfl
@[simp] theorem exposeFrame_cmd (f : DecodedFrame) (s : State) : (exposeFrame f s).cmd = s.cmd := rfl
@[simp] theorem exposeFrame_hasLen64 (f : DecodedFrame) (s : State) : (exposeFrame f s).hasLen64 = s.hasLen64 := rfl
@[simp] theorem exposeFrame_recv (f : DecodedFrame) (s : State) : (exposeFrame f s).recv = none := rfl
@[simp] theorem exposeFrame_keys (f : DecodedFrame) (s : State) : (exposeFrame f s).keys = s.keys := rfl
@[simp] theorem exposeFrame_draws (f : DecodedFrame) (s : State) : (exposeFrame f s).draws = s.draws := rfl
@[simp] theorem exposeFrame_socket (f : DecodedFrame) (s : State) : (exposeFrame f s).socket = s.socket := rfl
@[simp] theorem exposeFrame_host (f : DecodedFrame) (s : State) : (exposeFrame f s).host = s.host := rfl
@[simp] theorem exposeFrame_reply (f : DecodedFrame) (s : State) : (exposeFrame f s).reply = s.reply := rfl

/-! ### emitFrame -/

@[simp] theorem emitFrame_tx (op : BitVec 4) (m : BitVec 1) (k : Key) (data : List Byte) (s : State) : (emitFrame op m k data s).tx = txRegs op m k data.length := rfl
@[simp] theorem emitFrame_rx (op : BitVec 4) (m : BitVec 1) (k : Key) (data : List Byte) (s : State) : (emitFrame op m k data s).rx = s.rx := rfl
@[simp] theorem emitFrame_txPos (op : BitVec 4) (m : BitVec 1) (k : Key) (data : List Byte) (s : State) : (emitFrame op m k data s).txPos = 0#64 := rfl
@[simp] theorem emitFrame_rxPos (op : BitVec 4) (m : BitVec 1) (k : Key) (data : List Byte) (s : State) : (emitFrame op m k data s).rxPos = s.rxPos := rfl
@[simp] theorem emitFrame_err (op : BitVec 4) (m : BitVec 1) (k : Key) (data : List Byte) (s : State) : (emitFrame op m k data s).err = s.err := rfl
@[simp] theorem emitFrame_txv (op : BitVec 4) (m : BitVec 1) (k : Key) (data : List Byte) (s : State) : (emitFrame op m k data s).txv = true := rfl
@[simp] theorem emitFrame_rxv (op : BitVec 4) (m : BitVec 1) (k : Key) (data : List Byte) (s : State) : (emitFrame op m k data s).rxv = s.rxv := rfl
@[simp] theorem emitFrame_txp (op : BitVec 4) (m : BitVec 1) (k : Key) (data : List Byte) (s : State) : (emitFrame op m k data s).txp = s.txp := rfl
@[simp] theorem emitFrame_txo (op : BitVec 4) (m : BitVec 1) (k : Key) (data : List Byte) (s : State) : (emitFrame op m k data s).txo = Memory.ofBytes (frameBytes op m k data) := rfl
@[simp] theorem emitFrame_rxi (op : BitVec 4) (m : BitVec 1) (k : Key) (data : List Byte) (s : State) : (emitFrame op m k data s).rxi = s.rxi := rfl
@[simp] theorem emitFrame_rxp (op : BitVec 4) (m : BitVec 1) (k : Key) (data : List Byte) (s : State) : (emitFrame op m k data s).rxp = s.rxp := rfl
@[simp] theorem emitFrame_xmo (op : BitVec 4) (m : BitVec 1) (k : Key) (data : List Byte) (s : State) : (emitFrame op m k data s).xmo = s.xmo := rfl
@[simp] theorem emitFrame_rxq (op : BitVec 4) (m : BitVec 1) (k : Key) (data : List Byte) (s : State) : (emitFrame op m k data s).rxq = s.rxq := rfl
@[simp] theorem emitFrame_cmd (op : BitVec 4) (m : BitVec 1) (k : Key) (data : List Byte) (s : State) : (emitFrame op m k data s).cmd = s.cmd := rfl
@[simp] theorem emitFrame_hasLen64 (op : BitVec 4) (m : BitVec 1) (k : Key) (data : List Byte) (s : State) : (emitFrame op m k data s).hasLen64 = s.hasLen64 := rfl
@[simp] theorem emitFrame_recv (op : BitVec 4) (m : BitVec 1) (k : Key) (data : List Byte) (s : State) : (emitFrame op m k data s).recv = s.recv := rfl
@[simp] theorem emitFrame_keys (op : BitVec 4) (m : BitVec 1) (k : Key) (data : List Byte) (s : State) : (emitFrame op m k data s).keys = s.keys := rfl
@[simp] theorem emitFrame_draws (op : BitVec 4) (m : BitVec 1) (k : Key) (data : List Byte) (s : State) : (emitFrame op m k data s).draws = s.draws := rfl
@[simp] theorem emitFrame_socket (op : BitVec 4) (m : BitVec 1) (k : Key) (data : List Byte) (s : State) : (emitFrame op m k data s).socket = s.socket := rfl
@[simp] theorem emitFrame_host (op : BitVec 4) (m : BitVec 1) (k : Key) (data : List Byte) (s : State) : (emitFrame op m k data s).host = s.host := rfl
@[simp] theorem emitFrame_reply (op : BitVec 4) (m : BitVec 1) (k : Key) (data : List Byte) (s : State) : (emitFrame op m k data s).reply = s.reply := rfl

/-! ### answer -/

@[simp] theorem answer_tx (r : Reply) (s : State) : (answer r s).tx = s.tx := rfl
@[simp] theorem answer_rx (r : Reply) (s : State) : (answer r s).rx = s.rx := rfl
@[simp] theorem answer_txPos (r : Reply) (s : State) : (answer r s).txPos = s.txPos := rfl
@[simp] theorem answer_rxPos (r : Reply) (s : State) : (answer r s).rxPos = s.rxPos := rfl
@[simp] theorem answer_err (r : Reply) (s : State) : (answer r s).err = s.err := rfl
@[simp] theorem answer_txv (r : Reply) (s : State) : (answer r s).txv = s.txv := rfl
@[simp] theorem answer_rxv (r : Reply) (s : State) : (answer r s).rxv = s.rxv := rfl
@[simp] theorem answer_txp (r : Reply) (s : State) : (answer r s).txp = s.txp := rfl
@[simp] theorem answer_txo (r : Reply) (s : State) : (answer r s).txo = s.txo := rfl
@[simp] theorem answer_rxi (r : Reply) (s : State) : (answer r s).rxi = s.rxi := rfl
@[simp] theorem answer_rxp (r : Reply) (s : State) : (answer r s).rxp = s.rxp := rfl
@[simp] theorem answer_xmo (r : Reply) (s : State) : (answer r s).xmo = s.xmo := rfl
@[simp] theorem answer_rxq (r : Reply) (s : State) : (answer r s).rxq = s.rxq := rfl
@[simp] theorem answer_cmd (r : Reply) (s : State) : (answer r s).cmd = s.cmd := rfl
@[simp] theorem answer_hasLen64 (r : Reply) (s : State) : (answer r s).hasLen64 = s.hasLen64 := rfl
@[simp] theorem answer_recv (r : Reply) (s : State) : (answer r s).recv = s.recv := rfl
@[simp] theorem answer_keys (r : Reply) (s : State) : (answer r s).keys = s.keys := rfl
@[simp] theorem answer_draws (r : Reply) (s : State) : (answer r s).draws = s.draws := rfl
@[simp] theorem answer_socket (r : Reply) (s : State) : (answer r s).socket = s.socket := rfl
@[simp] theorem answer_host (r : Reply) (s : State) : (answer r s).host = s.host := rfl
@[simp] theorem answer_reply (r : Reply) (s : State) : (answer r s).reply = r := rfl

/-! ### writeSetup -/

@[simp] theorem writeSetup_tx (code : Fin 7) (msg : List Byte) (s : State) : (writeSetup code msg s).tx = s.tx := rfl
@[simp] theorem writeSetup_rx (code : Fin 7) (msg : List Byte) (s : State) : (writeSetup code msg s).rx = s.rx := rfl
@[simp] theorem writeSetup_txPos (code : Fin 7) (msg : List Byte) (s : State) : (writeSetup code msg s).txPos = s.txPos := rfl
@[simp] theorem writeSetup_rxPos (code : Fin 7) (msg : List Byte) (s : State) : (writeSetup code msg s).rxPos = s.rxPos := rfl
@[simp] theorem writeSetup_err (code : Fin 7) (msg : List Byte) (s : State) : (writeSetup code msg s).err = s.err := rfl
@[simp] theorem writeSetup_txv (code : Fin 7) (msg : List Byte) (s : State) : (writeSetup code msg s).txv = s.txv := rfl
@[simp] theorem writeSetup_rxv (code : Fin 7) (msg : List Byte) (s : State) : (writeSetup code msg s).rxv = s.rxv := rfl
@[simp] theorem writeSetup_txp (code : Fin 7) (msg : List Byte) (s : State) : (writeSetup code msg s).txp = Memory.writeBytes s.txp 0 (writePayload code msg) := rfl
@[simp] theorem writeSetup_txo (code : Fin 7) (msg : List Byte) (s : State) : (writeSetup code msg s).txo = s.txo := rfl
@[simp] theorem writeSetup_rxi (code : Fin 7) (msg : List Byte) (s : State) : (writeSetup code msg s).rxi = s.rxi := rfl
@[simp] theorem writeSetup_rxp (code : Fin 7) (msg : List Byte) (s : State) : (writeSetup code msg s).rxp = s.rxp := rfl
@[simp] theorem writeSetup_xmo (code : Fin 7) (msg : List Byte) (s : State) : (writeSetup code msg s).xmo = s.xmo := rfl
@[simp] theorem writeSetup_rxq (code : Fin 7) (msg : List Byte) (s : State) : (writeSetup code msg s).rxq = s.rxq := rfl
@[simp] theorem writeSetup_cmd (code : Fin 7) (msg : List Byte) (s : State) : (writeSetup code msg s).cmd = writeCmd (writePayload code msg).length s.cmd := rfl
@[simp] theorem writeSetup_hasLen64 (code : Fin 7) (msg : List Byte) (s : State) : (writeSetup code msg s).hasLen64 = s.hasLen64 := rfl
@[simp] theorem writeSetup_recv (code : Fin 7) (msg : List Byte) (s : State) : (writeSetup code msg s).recv = s.recv := rfl
@[simp] theorem writeSetup_keys (code : Fin 7) (msg : List Byte) (s : State) : (writeSetup code msg s).keys = s.keys := rfl
@[simp] theorem writeSetup_draws (code : Fin 7) (msg : List Byte) (s : State) : (writeSetup code msg s).draws = s.draws := rfl
@[simp] theorem writeSetup_socket (code : Fin 7) (msg : List Byte) (s : State) : (writeSetup code msg s).socket = s.socket := rfl
@[simp] theorem writeSetup_host (code : Fin 7) (msg : List Byte) (s : State) : (writeSetup code msg s).host = s.host := rfl
@[simp] theorem writeSetup_reply (code : Fin 7) (msg : List Byte) (s : State) : (writeSetup code msg s).reply = s.reply := rfl

/-! ### resetBlock -/

@[simp] theorem resetBlock_tx (s : State) : (resetBlock s).tx = State.reset.tx := rfl
@[simp] theorem resetBlock_rx (s : State) : (resetBlock s).rx = State.reset.rx := rfl
@[simp] theorem resetBlock_txPos (s : State) : (resetBlock s).txPos = State.reset.txPos := rfl
@[simp] theorem resetBlock_rxPos (s : State) : (resetBlock s).rxPos = State.reset.rxPos := rfl
@[simp] theorem resetBlock_err (s : State) : (resetBlock s).err = State.reset.err := rfl
@[simp] theorem resetBlock_txv (s : State) : (resetBlock s).txv = State.reset.txv := rfl
@[simp] theorem resetBlock_rxv (s : State) : (resetBlock s).rxv = State.reset.rxv := rfl
@[simp] theorem resetBlock_txp (s : State) : (resetBlock s).txp = State.reset.txp := rfl
@[simp] theorem resetBlock_txo (s : State) : (resetBlock s).txo = State.reset.txo := rfl
@[simp] theorem resetBlock_rxi (s : State) : (resetBlock s).rxi = State.reset.rxi := rfl
@[simp] theorem resetBlock_rxp (s : State) : (resetBlock s).rxp = State.reset.rxp := rfl
@[simp] theorem resetBlock_xmo (s : State) : (resetBlock s).xmo = State.reset.xmo := rfl
@[simp] theorem resetBlock_rxq (s : State) : (resetBlock s).rxq = State.reset.rxq := rfl
@[simp] theorem resetBlock_cmd (s : State) : (resetBlock s).cmd = s.cmd := rfl
@[simp] theorem resetBlock_hasLen64 (s : State) : (resetBlock s).hasLen64 = s.hasLen64 := rfl
@[simp] theorem resetBlock_recv (s : State) : (resetBlock s).recv = State.reset.recv := rfl
@[simp] theorem resetBlock_keys (s : State) : (resetBlock s).keys = s.keys := rfl
@[simp] theorem resetBlock_draws (s : State) : (resetBlock s).draws = s.draws := rfl
@[simp] theorem resetBlock_socket (s : State) : (resetBlock s).socket = { s.socket with begun := false } := rfl
@[simp] theorem resetBlock_host (s : State) : (resetBlock s).host = s.host := rfl
@[simp] theorem resetBlock_reply (s : State) : (resetBlock s).reply = State.reset.reply := rfl

/-! ### keyDraw and encodeKey change only the key source -/

@[simp] theorem keyDraw_tx (s : State) : (keyDraw s).2.tx = s.tx := by
  unfold keyDraw; split <;> rfl
@[simp] theorem keyDraw_rx (s : State) : (keyDraw s).2.rx = s.rx := by
  unfold keyDraw; split <;> rfl
@[simp] theorem keyDraw_txPos (s : State) : (keyDraw s).2.txPos = s.txPos := by
  unfold keyDraw; split <;> rfl
@[simp] theorem keyDraw_rxPos (s : State) : (keyDraw s).2.rxPos = s.rxPos := by
  unfold keyDraw; split <;> rfl
@[simp] theorem keyDraw_err (s : State) : (keyDraw s).2.err = s.err := by
  unfold keyDraw; split <;> rfl
@[simp] theorem keyDraw_txv (s : State) : (keyDraw s).2.txv = s.txv := by
  unfold keyDraw; split <;> rfl
@[simp] theorem keyDraw_rxv (s : State) : (keyDraw s).2.rxv = s.rxv := by
  unfold keyDraw; split <;> rfl
@[simp] theorem keyDraw_txp (s : State) : (keyDraw s).2.txp = s.txp := by
  unfold keyDraw; split <;> rfl
@[simp] theorem keyDraw_txo (s : State) : (keyDraw s).2.txo = s.txo := by
  unfold keyDraw; split <;> rfl
@[simp] theorem keyDraw_rxi (s : State) : (keyDraw s).2.rxi = s.rxi := by
  unfold keyDraw; split <;> rfl
@[simp] theorem keyDraw_rxp (s : State) : (keyDraw s).2.rxp = s.rxp := by
  unfold keyDraw; split <;> rfl
@[simp] theorem keyDraw_xmo (s : State) : (keyDraw s).2.xmo = s.xmo := by
  unfold keyDraw; split <;> rfl
@[simp] theorem keyDraw_rxq (s : State) : (keyDraw s).2.rxq = s.rxq := by
  unfold keyDraw; split <;> rfl
@[simp] theorem keyDraw_cmd (s : State) : (keyDraw s).2.cmd = s.cmd := by
  unfold keyDraw; split <;> rfl
@[simp] theorem keyDraw_hasLen64 (s : State) : (keyDraw s).2.hasLen64 = s.hasLen64 := by
  unfold keyDraw; split <;> rfl
@[simp] theorem keyDraw_recv (s : State) : (keyDraw s).2.recv = s.recv := by
  unfold keyDraw; split <;> rfl
@[simp] theorem keyDraw_socket (s : State) : (keyDraw s).2.socket = s.socket := by
  unfold keyDraw; split <;> rfl
@[simp] theorem keyDraw_host (s : State) : (keyDraw s).2.host = s.host := by
  unfold keyDraw; split <;> rfl
@[simp] theorem keyDraw_reply (s : State) : (keyDraw s).2.reply = s.reply := by
  unfold keyDraw; split <;> rfl
@[simp] theorem encodeKey_tx (m : BitVec 1) (s : State) : (encodeKey m s).2.tx = s.tx := by
  unfold encodeKey; split <;> simp
@[simp] theorem encodeKey_rx (m : BitVec 1) (s : State) : (encodeKey m s).2.rx = s.rx := by
  unfold encodeKey; split <;> simp
@[simp] theorem encodeKey_txPos (m : BitVec 1) (s : State) : (encodeKey m s).2.txPos = s.txPos := by
  unfold encodeKey; split <;> simp
@[simp] theorem encodeKey_rxPos (m : BitVec 1) (s : State) : (encodeKey m s).2.rxPos = s.rxPos := by
  unfold encodeKey; split <;> simp
@[simp] theorem encodeKey_err (m : BitVec 1) (s : State) : (encodeKey m s).2.err = s.err := by
  unfold encodeKey; split <;> simp
@[simp] theorem encodeKey_txv (m : BitVec 1) (s : State) : (encodeKey m s).2.txv = s.txv := by
  unfold encodeKey; split <;> simp
@[simp] theorem encodeKey_rxv (m : BitVec 1) (s : State) : (encodeKey m s).2.rxv = s.rxv := by
  unfold encodeKey; split <;> simp
@[simp] theorem encodeKey_txp (m : BitVec 1) (s : State) : (encodeKey m s).2.txp = s.txp := by
  unfold encodeKey; split <;> simp
@[simp] theorem encodeKey_txo (m : BitVec 1) (s : State) : (encodeKey m s).2.txo = s.txo := by
  unfold encodeKey; split <;> simp
@[simp] theorem encodeKey_rxi (m : BitVec 1) (s : State) : (encodeKey m s).2.rxi = s.rxi := by
  unfold encodeKey; split <;> simp
@[simp] theorem encodeKey_rxp (m : BitVec 1) (s : State) : (encodeKey m s).2.rxp = s.rxp := by
  unfold encodeKey; split <;> simp
@[simp] theorem encodeKey_xmo (m : BitVec 1) (s : State) : (encodeKey m s).2.xmo = s.xmo := by
  unfold encodeKey; split <;> simp
@[simp] theorem encodeKey_rxq (m : BitVec 1) (s : State) : (encodeKey m s).2.rxq = s.rxq := by
  unfold encodeKey; split <;> simp
@[simp] theorem encodeKey_cmd (m : BitVec 1) (s : State) : (encodeKey m s).2.cmd = s.cmd := by
  unfold encodeKey; split <;> simp
@[simp] theorem encodeKey_hasLen64 (m : BitVec 1) (s : State) : (encodeKey m s).2.hasLen64 = s.hasLen64 := by
  unfold encodeKey; split <;> simp
@[simp] theorem encodeKey_recv (m : BitVec 1) (s : State) : (encodeKey m s).2.recv = s.recv := by
  unfold encodeKey; split <;> simp
@[simp] theorem encodeKey_socket (m : BitVec 1) (s : State) : (encodeKey m s).2.socket = s.socket := by
  unfold encodeKey; split <;> simp
@[simp] theorem encodeKey_host (m : BitVec 1) (s : State) : (encodeKey m s).2.host = s.host := by
  unfold encodeKey; split <;> simp
@[simp] theorem encodeKey_reply (m : BitVec 1) (s : State) : (encodeKey m s).2.reply = s.reply := by
  unfold encodeKey; split <;> simp

/-! ### placeBytes writes one input buffer -/

@[simp] theorem placeBytes_tx (b : InBuffer) (a : Nat) (bs : List Byte) (s : State) : (placeBytes b a bs s).tx = s.tx := by
  cases b <;> rfl
@[simp] theorem placeBytes_rx (b : InBuffer) (a : Nat) (bs : List Byte) (s : State) : (placeBytes b a bs s).rx = s.rx := by
  cases b <;> rfl
@[simp] theorem placeBytes_txPos (b : InBuffer) (a : Nat) (bs : List Byte) (s : State) : (placeBytes b a bs s).txPos = s.txPos := by
  cases b <;> rfl
@[simp] theorem placeBytes_rxPos (b : InBuffer) (a : Nat) (bs : List Byte) (s : State) : (placeBytes b a bs s).rxPos = s.rxPos := by
  cases b <;> rfl
@[simp] theorem placeBytes_err (b : InBuffer) (a : Nat) (bs : List Byte) (s : State) : (placeBytes b a bs s).err = s.err := by
  cases b <;> rfl
@[simp] theorem placeBytes_txv (b : InBuffer) (a : Nat) (bs : List Byte) (s : State) : (placeBytes b a bs s).txv = s.txv := by
  cases b <;> rfl
@[simp] theorem placeBytes_rxv (b : InBuffer) (a : Nat) (bs : List Byte) (s : State) : (placeBytes b a bs s).rxv = s.rxv := by
  cases b <;> rfl
@[simp] theorem placeBytes_txo (b : InBuffer) (a : Nat) (bs : List Byte) (s : State) : (placeBytes b a bs s).txo = s.txo := by
  cases b <;> rfl
@[simp] theorem placeBytes_rxp (b : InBuffer) (a : Nat) (bs : List Byte) (s : State) : (placeBytes b a bs s).rxp = s.rxp := by
  cases b <;> rfl
@[simp] theorem placeBytes_xmo (b : InBuffer) (a : Nat) (bs : List Byte) (s : State) : (placeBytes b a bs s).xmo = s.xmo := by
  cases b <;> rfl
@[simp] theorem placeBytes_rxq (b : InBuffer) (a : Nat) (bs : List Byte) (s : State) : (placeBytes b a bs s).rxq = s.rxq := by
  cases b <;> rfl
@[simp] theorem placeBytes_cmd (b : InBuffer) (a : Nat) (bs : List Byte) (s : State) : (placeBytes b a bs s).cmd = s.cmd := by
  cases b <;> rfl
@[simp] theorem placeBytes_hasLen64 (b : InBuffer) (a : Nat) (bs : List Byte) (s : State) : (placeBytes b a bs s).hasLen64 = s.hasLen64 := by
  cases b <;> rfl
@[simp] theorem placeBytes_recv (b : InBuffer) (a : Nat) (bs : List Byte) (s : State) : (placeBytes b a bs s).recv = s.recv := by
  cases b <;> rfl
@[simp] theorem placeBytes_keys (b : InBuffer) (a : Nat) (bs : List Byte) (s : State) : (placeBytes b a bs s).keys = s.keys := by
  cases b <;> rfl
@[simp] theorem placeBytes_draws (b : InBuffer) (a : Nat) (bs : List Byte) (s : State) : (placeBytes b a bs s).draws = s.draws := by
  cases b <;> rfl
@[simp] theorem placeBytes_socket (b : InBuffer) (a : Nat) (bs : List Byte) (s : State) : (placeBytes b a bs s).socket = s.socket := by
  cases b <;> rfl
@[simp] theorem placeBytes_host (b : InBuffer) (a : Nat) (bs : List Byte) (s : State) : (placeBytes b a bs s).host = s.host := by
  cases b <;> rfl
@[simp] theorem placeBytes_reply (b : InBuffer) (a : Nat) (bs : List Byte) (s : State) : (placeBytes b a bs s).reply = s.reply := by
  cases b <;> rfl

end Sys2Proof.Machine
end

