-- ==== Sys2Proof/Laws/Memory.lean ====
section
/-!
SUPPORT. The capacity checks and the laws of the buffers: what a read gives after a write, and that every operation keeps
the canonical form.
-/

namespace Sys2Proof.Machine

/-! ### Capacity -/

theorem maxPayload_ge : 70000 ≤ Config.maxPayload := by
  unfold Config.maxPayload; omega

theorem maxPayload_le : Config.maxPayload ≤ 2 ^ 63 - 1 := by
  unfold Config.maxPayload
  have := Nat.mod_lt Config.capacityAbove (show 0 < 2 ^ 63 - 70000 by norm_num)
  omega

@[simp] theorem exceedsPayload_iff (n : Nat) : exceedsPayload n = true ↔ Config.maxPayload < n := by
  have := maxPayload_ge
  simp only [exceedsPayload, Bool.and_eq_true, decide_eq_true_eq]
  omega

@[simp] theorem exceedsRaw_iff (n : Nat) : exceedsRaw n = true ↔ Config.longestHeader + Config.maxPayload < n := by
  rw [exceedsRaw, exceedsPayload_iff]
  unfold Config.longestHeader
  omega

/-! ### Reading -/

theorem read_cellsFrom (bs : List Byte) : ∀ a i, Memory.read (Memory.cellsFrom a bs) i = if a ≤ i then bs[i - a]? else none := by
  induction bs with
  | nil => intro a i; simp [Memory.cellsFrom, Memory.read]
  | cons b bs ih =>
    intro a i
    simp only [Memory.cellsFrom, Memory.read]
    by_cases h : a = i
    · subst h; simp
    · rw [if_neg h, ih]
      by_cases h2 : a ≤ i
      · have h3 : a + 1 ≤ i := by omega
        obtain ⟨j, rfl⟩ : ∃ j, i = a + 1 + j := ⟨i - (a + 1), by omega⟩
        simp [h2, show a + 1 + j - a = j + 1 by omega]
      · rw [if_neg (by omega), if_neg h2]

theorem read_ofBytes (bs : List Byte) (i : Nat) : Memory.read (Memory.ofBytes bs) i = bs[i]? := by
  simp [Memory.ofBytes, read_cellsFrom]

theorem read_append (m n : Memory) (i : Nat) :
    Memory.read (m ++ n) i = (Memory.read m i).or (Memory.read n i) := by
  induction m with
  | nil => simp [Memory.read]
  | cons c m ih =>
    simp only [List.cons_append, Memory.read]
    split <;> simp [ih]

theorem read_filter (m : Memory) (p : Nat → Bool) (i : Nat) :
    Memory.read (m.filter fun c => p c.1) i = if p i then Memory.read m i else none := by
  induction m with
  | nil => simp [Memory.read]
  | cons c m ih =>
    by_cases h : p c.1 <;> by_cases hc : c.1 = i
    · subst hc; simp [h, Memory.read]
    · simp [h, Memory.read, hc, ih]
    · subst hc; simp [h, ih]
    · simp [h, Memory.read, hc, ih]

/-- A write is read back inside, and leaves every other offset alone. -/
theorem read_writeBytes (m : Memory) (a : Nat) (bs : List Byte) (i : Nat) :
    Memory.read (Memory.writeBytes m a bs) i = if a ≤ i ∧ i < a + bs.length then bs[i - a]? else Memory.read m i := by
  unfold Memory.writeBytes
  rw [read_append, read_append, read_filter m (fun x => decide (x < a)), read_filter m (fun x => decide (a + bs.length ≤ x)), read_cellsFrom]
  by_cases h1 : a ≤ i
  · by_cases h2 : i < a + bs.length
    · have h3 : i - a < bs.length := by omega
      simp [h1, h2, h3, show ¬ i < a by omega]
    · have h3 : bs[i - a]? = none := by simp; omega
      simp [h1, h2, h3, Nat.not_lt.mp h2, show ¬ i < a by omega]
  · have : ¬ (a + bs.length ≤ i) := by omega
    simp [h1, this, Nat.lt_of_not_le h1]

theorem readUpTo_spec (m : Memory) : ∀ n a, (Memory.readUpTo m a n).length ≤ n
    ∧ ∀ i, i < (Memory.readUpTo m a n).length → Memory.read m (a + i) = (Memory.readUpTo m a n)[i]? := by
  intro n
  induction n with
  | zero => intro a; simp [Memory.readUpTo]
  | succ n ih =>
    intro a
    simp only [Memory.readUpTo]
    split
    · rename_i b hb
      obtain ⟨hl, hr⟩ := ih (a + 1)
      refine ⟨by simpa using hl, fun i hi => ?_⟩
      cases i with
      | zero => simp [hb]
      | succ i => simpa [Nat.add_assoc, Nat.add_comm 1 i] using hr i (by simpa using hi)
    · simp

/-- Where consecutive offsets hold these bytes, a read gives them. -/
theorem readUpTo_of_read {m : Memory} {bs : List Byte} :
    ∀ a, (∀ i, i < bs.length → Memory.read m (a + i) = bs[i]?) → Memory.readUpTo m a bs.length = bs := by
  induction bs with
  | nil => intro a _; rfl
  | cons b bs ih =>
    intro a h
    have h0 := h 0 (by simp)
    have ih' := ih (a + 1) (fun i hi => by simpa [Nat.add_assoc, Nat.add_comm 1 i] using h (i + 1) (by simpa using hi))
    simp at h0
    simp [Memory.readUpTo, h0, ih']

theorem readBytes_eq_some {m : Memory} {a n : Nat} {bs : List Byte} (h : Memory.readBytes m a n = some bs) :
    bs.length = n ∧ Memory.readUpTo m a n = bs ∧ ∀ i, i < n → Memory.read m (a + i) = bs[i]? := by
  unfold Memory.readBytes at h
  split at h
  · rename_i hl
    cases h
    exact ⟨hl, rfl, fun i hi => (readUpTo_spec m n a).2 i (by omega)⟩
  · cases h

theorem readBytes_of_read {m : Memory} {bs : List Byte} (a : Nat)
    (h : ∀ i, i < bs.length → Memory.read m (a + i) = bs[i]?) : Memory.readBytes m a bs.length = some bs := by
  simp [Memory.readBytes, readUpTo_of_read a h]

theorem readUpTo_ofBytes (bs : List Byte) : Memory.readUpTo (Memory.ofBytes bs) 0 bs.length = bs :=
  readUpTo_of_read 0 fun i _ => by simp [read_ofBytes]

/-- Bytes just written are read back, whatever the buffer held. -/
theorem readUpTo_writeBytes (m : Memory) (a : Nat) (bs : List Byte) :
    Memory.readUpTo (Memory.writeBytes m a bs) a bs.length = bs :=
  readUpTo_of_read a fun i hi => by rw [read_writeBytes, if_pos ⟨by omega, by omega⟩, Nat.add_sub_cancel_left]

/-- A write at offset 0 shows its bytes and leaves what lies beyond them (00_scope.md R11, 20_memory.md R70). -/
theorem holdsOver_writeBytes (m : Memory) (bs : List Byte) : Memory.HoldsOver (Memory.writeBytes m 0 bs) m bs :=
  fun a => by rw [read_writeBytes]; simp

theorem readBytes_ofBytes (bs : List Byte) : Memory.readBytes (Memory.ofBytes bs) 0 bs.length = some bs :=
  readBytes_of_read 0 fun i _ => by simp [read_ofBytes]

/-! ### The canonical form -/

theorem wf_cons {c : Host.Cell} {m : Memory} :
    Memory.wf (c :: m) = true ↔ (∀ d ∈ m, c.1 < d.1) ∧ Memory.wf m = true := by
  induction m generalizing c with
  | nil => simp [Memory.wf]
  | cons d m ih =>
    simp only [Memory.wf, Bool.and_eq_true, decide_eq_true_eq, List.mem_cons, forall_eq_or_imp]
    constructor
    · rintro ⟨h1, h2⟩
      exact ⟨⟨h1, fun e he => Nat.lt_trans h1 ((ih.mp h2).1 e he)⟩, h2⟩
    · rintro ⟨⟨h1, -⟩, h2⟩
      exact ⟨h1, h2⟩

theorem wf_append {m n : Memory} :
    Memory.wf (m ++ n) = true ↔ Memory.wf m = true ∧ Memory.wf n = true ∧ ∀ c ∈ m, ∀ d ∈ n, c.1 < d.1 := by
  induction m with
  | nil => simp [Memory.wf]
  | cons c m ih =>
    rw [List.cons_append, wf_cons, wf_cons, ih]
    simp only [List.mem_append, List.mem_cons, forall_eq_or_imp]
    constructor
    · rintro ⟨h1, h2, h3, h4⟩
      exact ⟨⟨fun d hd => h1 d (.inl hd), h2⟩, h3, fun d hd => h1 d (.inr hd), h4⟩
    · rintro ⟨⟨h1, h2⟩, h3, h4, h5⟩
      exact ⟨fun d hd => hd.elim (h1 d) (h4 d), h2, h3, h5⟩

theorem wf_filter {m : Memory} (p : Host.Cell → Bool) (h : Memory.wf m = true) : Memory.wf (m.filter p) = true := by
  induction m with
  | nil => rfl
  | cons c m ih =>
    rw [wf_cons] at h
    rw [List.filter_cons]
    split
    · rw [wf_cons]
      exact ⟨fun d hd => h.1 d (List.mem_of_mem_filter hd), ih h.2⟩
    · exact ih h.2

theorem mem_cellsFrom {bs : List Byte} {a : Nat} {c : Host.Cell} (h : c ∈ Memory.cellsFrom a bs) :
    a ≤ c.1 ∧ c.1 < a + bs.length := by
  induction bs generalizing a with
  | nil => simp [Memory.cellsFrom] at h
  | cons b bs ih =>
    simp only [Memory.cellsFrom, List.mem_cons] at h
    rcases h with rfl | h
    · simp
    · have := ih h; simp; omega

theorem wf_cellsFrom (bs : List Byte) : ∀ a, Memory.wf (Memory.cellsFrom a bs) = true := by
  induction bs with
  | nil => intro a; rfl
  | cons b bs ih =>
    intro a
    simp only [Memory.cellsFrom, wf_cons]
    exact ⟨fun d hd => by have := mem_cellsFrom hd; omega, ih _⟩

/-- A buffer written whole is canonical. -/
theorem wf_ofBytes (bs : List Byte) : Memory.wf (Memory.ofBytes bs) = true :=
  wf_cellsFrom bs 0

/-- A write keeps the canonical form. -/
theorem wf_writeBytes {m : Memory} (a : Nat) (bs : List Byte) (h : Memory.wf m = true) :
    Memory.wf (Memory.writeBytes m a bs) = true := by
  unfold Memory.writeBytes
  rw [wf_append, wf_append]
  refine ⟨⟨wf_filter _ h, wf_cellsFrom bs a, ?_⟩, wf_filter _ h, ?_⟩
  · intro c hc d hd
    have h1 := (List.mem_filter.mp hc).2
    have h2 := mem_cellsFrom hd
    simp at h1; omega
  · intro c hc d hd
    have h2 := (List.mem_filter.mp hd).2
    simp at h2
    rcases List.mem_append.mp hc with hc | hc
    · have h1 := (List.mem_filter.mp hc).2
      simp at h1; omega
    · have h1 := mem_cellsFrom hc; omega

theorem within_iff {m : Memory} {n : Nat} : Memory.within m n = true ↔ ∀ c ∈ m, c.1 < n := by
  simp [Memory.within]

theorem within_ofBytes {bs : List Byte} {n : Nat} (h : bs.length ≤ n) : Memory.within (Memory.ofBytes bs) n = true := by
  rw [within_iff]
  intro c hc
  have := mem_cellsFrom hc
  omega

theorem within_writeBytes {m : Memory} {a n : Nat} {bs : List Byte} (h : Memory.within m n = true)
    (hn : a + bs.length ≤ n) : Memory.within (Memory.writeBytes m a bs) n = true := by
  rw [within_iff] at h ⊢
  intro c hc
  rcases List.mem_append.mp hc with hc | hc
  · rcases List.mem_append.mp hc with hc | hc
    · exact h c (List.mem_of_mem_filter hc)
    · have := mem_cellsFrom hc; omega
  · exact h c (List.mem_of_mem_filter hc)

/-- The reset state's buffers are canonical. -/
theorem reset_buffers_wf :
    Memory.wf State.reset.txp = true ∧ Memory.wf State.reset.txo = true ∧ Memory.wf State.reset.rxi = true
      ∧ Memory.wf State.reset.rxp = true ∧ Memory.wf State.reset.xmo = true := by
  decide

end Sys2Proof.Machine
end

