-- ==== Sys2Proof/Laws/Ops.lean ====
section
/-!
SUPPORT. One lemma per shared operation that says once everything it can do.
-/

namespace Sys2Proof.Machine

/-! ### Operands -/

@[simp] theorem toBe_length (n v : Nat) : (toBe n v).length = n := by
  induction n with
  | zero => rfl
  | succ n ih => simp [toBe, ih]

theorem beNat_toBe (n v : Nat) : beNat (toBe n v) = v % 256 ^ n := by
  induction n with
  | zero => simp [toBe, beNat, Nat.mod_one]
  | succ n ih =>
    simp only [toBe, beNat, toBe_length, ih, BitVec.toNat_ofNat]
    have h : v % 256 ^ (n + 1) = v % 256 ^ n + 256 ^ n * (v / 256 ^ n % 256) := by
      rw [pow_succ, @Nat.mod_mul (256 ^ n) 256 v]
    rw [h, Nat.mul_comm, Nat.add_comm]

theorem beNat_append (a b : List Byte) : beNat (a ++ b) = beNat a * 256 ^ b.length + beNat b := by
  induction a with
  | nil => simp [beNat]
  | cons x a ih => simp [beNat, ih, Nat.pow_add]; ring

theorem beNat_lt (s : List Byte) : beNat s < 256 ^ s.length := by
  induction s with
  | nil => simp [beNat]
  | cons b s ih =>
    have := b.isLt
    simp only [beNat, List.length_cons, Nat.pow_succ]
    nlinarith [Nat.pos_of_ne_zero (pow_ne_zero s.length (show (256 : Nat) ≠ 0 by norm_num))]

@[simp] theorem xmaskFrom_length (i : Nat) (k : Key) (d : List Byte) : (xmaskFrom i k d).length = d.length := by
  induction d generalizing i with
  | nil => rfl
  | cons b d ih => simp [xmaskFrom, ih]

@[simp] theorem xmask_length (d : List Byte) (k : Key) : (xmask d k).length = d.length := xmaskFrom_length 0 k d

@[simp] theorem maskIf_length (m : BitVec 1) (d : List Byte) (k : Key) : (maskIf m d k).length = d.length := by
  unfold maskIf; split <;> simp

@[simp] theorem keyPart_length (m : BitVec 1) (k : Key) : (keyPart m k).length = 4 * m.toNat := by
  unfold keyPart
  split
  · subst m; rfl
  · have : m = 0#1 := by
      revert m; decide
    subst this; rfl

@[simp] theorem headerBytes_length (h : Header) : (headerBytes h).length = 2 := rfl

theorem keyOf_keyBytes (k : Key) : keyOf (keyBytes k) = some k := rfl

theorem keyOf_isSome {bs : List Byte} : (keyOf bs).isSome = true ↔ bs.length = 4 := by
  match bs with
  | [] => simp [keyOf]
  | [_] => simp [keyOf]
  | [_, _] => simp [keyOf]
  | [_, _, _] => simp [keyOf]
  | [_, _, _, _] => simp [keyOf]
  | _ :: _ :: _ :: _ :: _ :: _ => simp [keyOf]

@[simp] theorem slice_length (s : List Byte) (a n : Nat) : (slice s a n).length = min n (s.length - a) := by
  simp [slice]

/-- `LSEL` gives the extension bytes that `EXTN` counts (41_length_field.md R144). -/
theorem lsel_ext_length (n : Nat) : (lsel n).2.length = extn (lsel n).1 := by
  unfold lsel
  split
  · simp [extn]
  · split
    · simp [extn]
    · have h : n ≤ 125 := by unfold Config.literalMax at *; omega
      interval_cases n <;> rfl

theorem extn_cases (len7 : BitVec 7) : extn len7 = 0 ∨ extn len7 = 2 ∨ extn len7 = 8 := by
  unfold extn; split
  · simp
  · split <;> simp

/-! ### Admission -/

theorem admission_eq_none {s : State} : admission s = none ↔ s.Idle := by
  unfold admission faulted State.Idle
  by_cases h : s.err = .none <;> cases hr : s.recv <;> simp [h]

theorem faulted_eq_false {s : State} : faulted s = false ↔ s.err = .none := by
  simp [faulted]

/-! ### The framer -/

/-- What a `StreamRead` answers: the group is complete, and no byte is lost or moved. -/
theorem pull_some {n : Nat} {t q t' q' : List Byte} (h : pull n t q = some (t', q')) :
    t' ++ q' = t ++ q ∧ t'.length = max t.length n := by
  unfold pull at h
  split at h
  · cases h; exact ⟨rfl, by omega⟩
  · split at h
    · cases h
    · cases h
      refine ⟨by simp, ?_⟩
      simp only [List.length_append, List.length_take]; omega

/-- When a `StreamRead` holds. -/
theorem pull_none {n : Nat} {t q : List Byte} : pull n t q = none ↔ t.length + q.length < n := by
  unfold pull
  split
  · simp; omega
  · split <;> simp <;> omega

/-- A `StreamRead` takes bytes from the head of the stream only. -/
theorem pull_suffix {n : Nat} {t q t' q' : List Byte} (h : pull n t q = some (t', q')) : q' <:+ q := by
  unfold pull at h
  split at h
  · cases h; exact List.suffix_refl _
  · split at h
    · cases h
    · cases h; exact List.drop_suffix _ _

/-- What the framer leaves of the stream is its end, whatever the outcome. -/
theorem framer_suffix (b : Bool) (sh : Shape) (t q : List Byte) :
    match framer b sh t q with
    | .hold _ r => r <:+ q
    | .raised _ r => r <:+ q
    | .refuse _ => True
    | .framed _ r => r <:+ q := by
  unfold framer
  split_ifs
  · exact List.suffix_refl _
  · cases h1 : pull (2 + sh.extensionBytes) t q with
    | none => exact List.suffix_refl _
    | some p1 =>
      have s1 := pull_suffix h1
      dsimp only
      split_ifs
      · exact s1
      · exact s1
      · trivial
      · cases h2 : pull (2 + sh.extensionBytes + sh.keyBytes) p1.1 p1.2 with
        | none => exact s1
        | some p2 =>
          have s2 := (pull_suffix h2).trans s1
          dsimp only
          cases h3 : pull (2 + sh.extensionBytes + sh.keyBytes + lengthOf p1.1) p2.1 p2.2 with
          | none => exact s2
          | some p3 => exact (pull_suffix h3).trans s2

theorem shape_sizes (sh : Shape) : 2 + sh.extensionBytes + sh.keyBytes ≤ 14 := by
  cases sh <;> decide

/-- Everything the framer can answer. -/
theorem framer_cases (b : Bool) (sh : Shape) (t q : List Byte) :
    (∃ t' q', framer b sh t q = .hold t' q' ∧ t' ++ q' = t ++ q ∧ t.length ≤ t'.length ∧ t'.length ≤ max t.length 14)
    ∨ (∃ e q', framer b sh t q = .raised e q' ∧ e ≠ .none)
    ∨ (∃ r, framer b sh t q = .refuse r)
    ∨ (∃ raw q', framer b sh t q = .framed raw q' ∧ raw ++ q' = t ++ q
        ∧ raw.length ≤ max (max t.length 14) (14 + Config.maxPayload)) := by
  have hs := shape_sizes sh
  unfold framer
  split
  · exact .inr (.inl ⟨_, _, rfl, by simp⟩)
  · split
    · exact .inl ⟨_, _, rfl, rfl, le_refl _, by omega⟩
    · rename_i t1 q1 h1
      have p1 := pull_some h1
      split
      · exact .inr (.inl ⟨_, _, rfl, by simp⟩)
      · split
        · exact .inr (.inl ⟨_, _, rfl, by simp⟩)
        · split
          · exact .inr (.inr (.inl ⟨_, rfl⟩))
          · rename_i hex
            have hle : lengthOf t1 ≤ Config.maxPayload := by
              rw [exceedsPayload_iff] at hex; omega
            split
            · exact .inl ⟨_, _, rfl, p1.1, by omega, by omega⟩
            · rename_i t2 q2 h2
              have p2 := pull_some h2
              split
              · exact .inl ⟨_, _, rfl, p2.1.trans p1.1, by omega, by omega⟩
              · rename_i t3 q3 h3
                have p3 := pull_some h3
                exact .inr (.inr (.inr ⟨_, _, rfl, p3.1.trans (p2.1.trans p1.1), by omega⟩))

/-- Everything a decoded frame says: its header is the buffer's, its length and payload fit, its key is there when
`mask = 1`. -/
theorem decodeFrame_frame {b : Bool} {n : Nat} {raw : List Byte} {f : DecodedFrame} (h : decodeFrame b n raw = .frame f) :
    f.payload.length = f.length ∧ f.length ≤ Config.maxPayload ∧ n = poff f.header.mask f.header.len7 + f.length
      ∧ f.header = headerOf raw ∧ f.length = lengthOf raw ∧ (f.key.isSome = true ↔ f.header.mask = 1#1)
      ∧ 3 ≤ n ∧ raw.length = max raw.length n ∧ (f.header.len7 = 127#7 → b = true) := by
  unfold decodeFrame at h
  simp only [Config.minDecodeBytes] at h
  have h64 : ¬ ((headerOf raw).len7 = 127#7 ∧ b = false) → (headerOf raw).len7 = 127#7 → b = true := by
    cases b <;> simp
  split_ifs at h with h1 h2 h3 h4 h5 h6 h7 h8 h9 h10
  · rw [exceedsPayload_iff] at h8
    split at h
    · cases h
      refine ⟨?_, ?_, ?_, rfl, rfl, by simp [h10], by omega, by omega, h64 h3⟩ <;> dsimp only
      · simp only [slice_length, xmask_length]; omega
      · omega
      · omega
    · cases h
  · rw [exceedsPayload_iff] at h8
    cases h
    refine ⟨?_, ?_, ?_, rfl, rfl, by simp [h10], by omega, by omega, h64 h3⟩ <;> dsimp only
    · simp only [slice_length]; omega
    · omega
    · omega

/-- Everything the end of DECODE and RECV can leave. -/
theorem decodeRaw_next {n : Nat} {raw : List Byte} {s t : State} (h : decodeRaw n raw s = .next t) :
    t = raise .malformedPacket s
    ∨ ∃ f, decodeFrame s.hasLen64 n raw = .frame f ∧ t = exposeFrame f s := by
  unfold decodeRaw at h
  split at h
  · cases h; exact .inl rfl
  · cases h
  · rename_i f hf
    cases h; exact .inr ⟨f, hf, rfl⟩

/-- Everything the framer can leave in the state. -/
theorem receiveFrom_next {sh : Shape} {taken : List Byte} {s t : State} (h : receiveFrom sh taken s = .next t) :
    (∃ u q, t = holdReceive u q s ∧ taken.length ≤ u.length ∧ u.length ≤ max taken.length 14)
    ∨ (∃ e q, e ≠ .none ∧ t = raise e { s with rxq := q })
    ∨ (∃ raw q, raw.length ≤ max (max taken.length 14) (14 + Config.maxPayload)
        ∧ (t = raise .malformedPacket (placeFrame raw q s)
          ∨ ∃ f, decodeFrame s.hasLen64 raw.length raw = .frame f ∧ t = exposeFrame f (placeFrame raw q s))) := by
  unfold receiveFrom at h
  rcases framer_cases s.hasLen64 sh taken s.rxq with ⟨u, q, hf, -, h1, h2⟩ | ⟨e, q, hf, he⟩ | ⟨r, hf⟩ | ⟨raw, q, hf, -, hr⟩
  · rw [hf] at h; cases h; exact .inl ⟨u, q, rfl, h1, h2⟩
  · rw [hf] at h; cases h; exact .inr (.inl ⟨e, q, he, rfl⟩)
  · rw [hf] at h; cases h
  · rw [hf] at h
    exact .inr (.inr ⟨raw, q, hr, decodeRaw_next h⟩)

/-- A receive takes bytes from the head of RXQ only, and none from the socket's. -/
theorem receiveFrom_suffix {sh : Shape} {taken : List Byte} {s t : State} (h : receiveFrom sh taken s = .next t) :
    t.rxq <:+ s.rxq ∧ t.socket = s.socket := by
  have hs := framer_suffix s.hasLen64 sh taken s.rxq
  unfold receiveFrom at h
  split at h <;> rename_i hf <;> rw [hf] at hs
  · cases h; exact ⟨hs, rfl⟩
  · cases h; exact ⟨hs, rfl⟩
  · cases h
  · rcases decodeRaw_next h with rfl | ⟨f, -, rfl⟩ <;> exact ⟨hs, rfl⟩

/-- A frame row runs the framer from the bytes taken, when no error and no other frame is in progress. -/
theorem runFrame_next {sh : Shape} {b0 b1 : Byte} {s t : State} (h : runFrame sh b0 b1 s = .next t) :
    s.err = .none ∧ ∃ taken, headerProgress b0 b1 s = some taken ∧ receiveFrom sh taken (startReceive s) = .next t := by
  unfold runFrame at h
  split at h
  · cases h
  · rename_i hf
    split at h
    · cases h
    · rename_i taken ht
      exact ⟨by simpa [faulted] using hf, taken, ht, h⟩

theorem headerProgress_some {b0 b1 : Byte} {s : State} {taken : List Byte} (h : headerProgress b0 b1 s = some taken) :
    taken.take 2 = [b0, b1] ∧ (taken = [b0, b1] ∨ s.recv = some taken) := by
  unfold headerProgress at h
  split at h
  · cases h; exact ⟨rfl, .inl rfl⟩
  · cases h; exact ⟨rfl, .inl rfl⟩
  · rename_i hr
    split at h
    · rename_i ht; cases h; exact ⟨ht, .inr hr⟩
    · cases h

/-! ### The encoder -/

/-- Everything an admitted ENCODE can leave. -/
theorem encodePayload_next {op : BitVec 4} {m : BitVec 1} {n : Nat} {s t : State} (h : encodePayload op m n s = .next t) :
    n ≤ Config.maxPayload ∧ ∃ data, Memory.readBytes s.txp 0 n = some data
      ∧ t = emitFrame op m (encodeKey m s).1 data (encodeKey m s).2 := by
  unfold encodePayload at h
  split at h
  · cases h
  · rename_i hex
    split at h
    · cases h
    · split at h
      · cases h
      · rename_i data hd
        cases h
        rw [exceedsPayload_iff] at hex
        exact ⟨by omega, data, hd, rfl⟩

@[simp] theorem frameBytes_length (op : BitVec 4) (m : BitVec 1) (k : Key) (data : List Byte) :
    (frameBytes op m k data).length = poff m (lsel data.length).1 + data.length := by
  simp [frameBytes, lsel_ext_length, poff]; omega

theorem poff_le (m : BitVec 1) (len7 : BitVec 7) : poff m len7 ≤ 14 := by
  have h1 := m.isLt
  have h2 := extn_cases len7
  unfold poff; omega

end Sys2Proof.Machine
end

