-- ==== Sys2Proof/Laws/Framer.lean ====
section
/-!
SUPPORT. The stream framer as a function of the whole byte sequence and of the cursor (44_frame_decode.md R175 to R178).
-/

namespace Sys2Proof.Machine

/-- A mask bit is 0 or 1. -/
theorem mask_zero_or_one (m : BitVec 1) : m = 0#1 ∨ m = 1#1 := by revert m; decide

/-- The extension bytes of the selected shape are `EXTN` (20_memory.md R67). -/
theorem shapeOf_extensionBytes (m l) : (shapeOf m l).extensionBytes = extn l := by
  unfold shapeOf extn; split_ifs <;> rfl

/-- The key bytes of the selected shape (20_memory.md R67). -/
theorem shapeOf_keyBytes (m l) : (shapeOf m l).keyBytes = 4 * m.toNat := by
  have hm := mask_zero_or_one m
  unfold shapeOf; split_ifs <;> rcases hm with rfl | rfl <;> first | rfl | (exfalso; revert ‹¬ _›; decide) | simp_all

theorem extn_eq_eight {l : BitVec 7} (h : extn l = 8) : l = 127#7 := by
  unfold extn at h
  by_cases h1 : l = 126#7
  · simp [h1] at h
  · by_cases h2 : l = 127#7
    · exact h2
    · simp [h1, h2] at h

theorem extn_eq_two {l : BitVec 7} (h : extn l = 2) : l = 126#7 := by
  unfold extn at h
  by_cases h1 : l = 126#7
  · exact h1
  · by_cases h2 : l = 127#7 <;> simp [h1, h2] at h

/-- The extension of the shape that `LSEL` selects (41_length_field.md R144). -/
theorem extn_of_lsel (n : Nat) : extn (lsel n).1 = if n ≤ 125 then 0 else if n ≤ 65535 then 2 else 8 := by
  rw [← lsel_ext_length]; unfold lsel
  simp only [Config.literalMax, Config.extension16Max]
  split_ifs <;> first | omega | rfl

/-- The header depends on the first two bytes alone. -/
theorem headerOf_take (S : List Byte) (p : Nat) (hp : 2 ≤ p) : headerOf (S.take p) = headerOf S := by
  unfold headerOf
  simp only [List.getD_eq_getElem?_getD, List.getElem?_take]
  rw [if_pos (by omega), if_pos (by omega)]

/-- The length depends on the header and the extension alone. -/
theorem lengthOf_take (S : List Byte) (p : Nat) (hp : 2 + extn (headerOf S).len7 ≤ p) : lengthOf (S.take p) = lengthOf S := by
  unfold lengthOf
  rw [headerOf_take S p (by omega)]
  unfold slice
  rw [List.drop_take, List.take_take, Nat.min_eq_left (by omega)]

/-- `StreamRead` on a split of the whole byte sequence `S`: the cursor moves, or it holds. -/
theorem pull_split (n p : Nat) (S : List Byte) (hp : p ≤ S.length) :
    pull n (S.take p) (S.drop p) = if S.length < n then none else some (S.take (max p n), S.drop (max p n)) := by
  unfold pull
  simp only [List.length_take, List.length_drop, Nat.min_eq_left hp]
  by_cases h : n ≤ p
  · rw [if_pos h, if_neg (by omega), Nat.max_eq_left h]
  · rw [if_neg h]
    by_cases h2 : S.length < n
    · rw [if_pos (by omega), if_pos h2]
    · rw [if_neg (by omega), if_neg h2, Nat.max_eq_right (by omega)]
      congr 2
      · obtain ⟨k, rfl⟩ : ∃ k, n = p + k := ⟨n - p, by omega⟩
        simp [List.take_add]
      · rw [List.drop_drop]; congr 1; omega

/-- Everything the framer answers, as a function of the whole byte sequence `S` and of the cursor `p`. -/
theorem framer_split (b : Bool) (S : List Byte) (p : Nat) (_h2 : 2 ≤ p) (hp : p ≤ S.length) :
    framer b (shapeOf (headerOf S).mask (headerOf S).len7) (S.take p) (S.drop p) =
     if extn (headerOf S).len7 = 8 ∧ b = false then .raised .unsupportedPlatform (S.drop p)
     else if S.length < 2 + extn (headerOf S).len7 then .hold (S.take p) (S.drop p)
     else if extn (headerOf S).len7 = 2 ∧ lengthOf S = 0 then
       .raised .invalidExtendedLength (S.drop (max p (2 + extn (headerOf S).len7)))
     else if 2 ^ 63 ≤ lengthOf S then .raised .malformedPacket (S.drop (max p (2 + extn (headerOf S).len7)))
     else if exceedsPayload (lengthOf S) then .refuse .payloadTooLarge
     else if S.length < poff (headerOf S).mask (headerOf S).len7 then
       .hold (S.take (max p (2 + extn (headerOf S).len7))) (S.drop (max p (2 + extn (headerOf S).len7)))
     else if S.length < poff (headerOf S).mask (headerOf S).len7 + lengthOf S then
       .hold (S.take (max p (poff (headerOf S).mask (headerOf S).len7)))
         (S.drop (max p (poff (headerOf S).mask (headerOf S).len7)))
     else .framed (S.take (max p (poff (headerOf S).mask (headerOf S).len7 + lengthOf S)))
       (S.drop (max p (poff (headerOf S).mask (headerOf S).len7 + lengthOf S))) := by
  unfold framer
  simp only [shapeOf_extensionBytes, shapeOf_keyBytes]
  have hP : 2 + extn (headerOf S).len7 + 4 * (headerOf S).mask.toNat = poff (headerOf S).mask (headerOf S).len7 := rfl
  have hle : 2 + extn (headerOf S).len7 ≤ poff (headerOf S).mask (headerOf S).len7 := by unfold poff; omega
  rw [hP]
  by_cases c1 : extn (headerOf S).len7 = 8 ∧ b = false
  · rw [if_pos c1, if_pos c1]
  rw [if_neg c1, if_neg c1, pull_split _ _ _ hp]
  by_cases c2 : S.length < 2 + extn (headerOf S).len7
  · rw [if_pos c2, if_pos c2]
  rw [if_neg c2, if_neg c2]
  simp only [lengthOf_take S (max p (2 + extn (headerOf S).len7)) (by omega)]
  by_cases c3 : extn (headerOf S).len7 = 2 ∧ lengthOf S = 0
  · rw [if_pos c3, if_pos c3]
  rw [if_neg c3, if_neg c3]
  by_cases c4 : 2 ^ 63 ≤ lengthOf S
  · rw [if_pos c4, if_pos c4]
  rw [if_neg c4, if_neg c4]
  by_cases c5 : exceedsPayload (lengthOf S) = true
  · rw [if_pos c5, if_pos c5]
  rw [if_neg c5, if_neg c5, pull_split _ _ _ (by omega)]
  by_cases c6 : S.length < poff (headerOf S).mask (headerOf S).len7
  · rw [if_pos c6, if_pos c6]
  rw [if_neg c6, if_neg c6]
  have e1 : max (max p (2 + extn (headerOf S).len7)) (poff (headerOf S).mask (headerOf S).len7)
      = max p (poff (headerOf S).mask (headerOf S).len7) := by omega
  simp only [e1]
  rw [pull_split _ _ _ (by omega)]
  by_cases c7 : S.length < poff (headerOf S).mask (headerOf S).len7 + lengthOf S
  · rw [if_pos c7, if_pos c7]
  rw [if_neg c7, if_neg c7]
  have e2 : max (max p (poff (headerOf S).mask (headerOf S).len7)) (poff (headerOf S).mask (headerOf S).len7 + lengthOf S)
      = max p (poff (headerOf S).mask (headerOf S).len7 + lengthOf S) := by omega
  simp only [e2]

/-- A framer that held answers, with more bytes behind, what it answers from its start on all the bytes. -/
theorem framer_resume (b : Bool) (S : List Byte) (p : Nat) (h2 : 2 ≤ p) (hp : p ≤ S.length) (T u q : List Byte)
    (hh : framer b (shapeOf (headerOf S).mask (headerOf S).len7) (S.take p) (S.drop p) = .hold u q) :
    framer b (shapeOf (headerOf S).mask (headerOf S).len7) u (q ++ T)
      = framer b (shapeOf (headerOf S).mask (headerOf S).len7) (S.take p) (S.drop p ++ T) := by
  rw [framer_split b S p h2 hp] at hh
  have hS : headerOf (S ++ T) = headerOf S := by
    rw [← headerOf_take (S ++ T) S.length (by omega), List.take_left]
  have hle : 2 + extn (headerOf S).len7 ≤ poff (headerOf S).mask (headerOf S).len7 := by unfold poff; omega
  have hlen : (S ++ T).length = S.length + T.length := by simp
  have split_at : ∀ c, c ≤ S.length → S.take c = (S ++ T).take c ∧ S.drop c ++ T = (S ++ T).drop c := fun c hc => by
    rw [List.take_append_of_le_length hc, List.drop_append_of_le_length hc]; exact ⟨rfl, rfl⟩
  have hL : 2 + extn (headerOf S).len7 ≤ S.length → lengthOf (S ++ T) = lengthOf S := fun h => by
    rw [← lengthOf_take (S ++ T) S.length (by rw [hS]; omega), List.take_left]
  have f1 := framer_split b (S ++ T) p h2 (by omega)
  rw [← (split_at p hp).1, ← (split_at p hp).2, hS] at f1
  split_ifs at hh with c1 c2 c3 c4 c5 c6 c7
  · cases hh; rfl
  · cases hh
    generalize hc : max p (2 + extn (headerOf S).len7) = c at *
    have f2 := framer_split b (S ++ T) c (by omega) (by omega)
    rw [← (split_at c (by omega)).1, ← (split_at c (by omega)).2, hS] at f2
    rw [hL (by omega), if_neg c1, if_neg (by omega), if_neg c3, if_neg c4, if_neg c5] at f1 f2
    rw [f1, f2, show max c (2 + extn (headerOf S).len7) = c by omega,
      show max c (poff (headerOf S).mask (headerOf S).len7) = max p (poff (headerOf S).mask (headerOf S).len7) by omega,
      show max c (poff (headerOf S).mask (headerOf S).len7 + lengthOf S)
        = max p (poff (headerOf S).mask (headerOf S).len7 + lengthOf S) by omega]
  · cases hh
    generalize hc : max p (poff (headerOf S).mask (headerOf S).len7) = c at *
    have f2 := framer_split b (S ++ T) c (by omega) (by omega)
    rw [← (split_at c (by omega)).1, ← (split_at c (by omega)).2, hS] at f2
    have hn : ¬ (S ++ T).length < poff (headerOf S).mask (headerOf S).len7 := by omega
    rw [hL (by omega), if_neg c1, if_neg (by omega), if_neg c3, if_neg c4, if_neg c5, if_neg hn] at f1 f2
    rw [f1, f2, show max c (poff (headerOf S).mask (headerOf S).len7) = c by omega,
      show max c (poff (headerOf S).mask (headerOf S).len7 + lengthOf S)
        = max p (poff (headerOf S).mask (headerOf S).len7 + lengthOf S) by omega]

/-- What the framer raises from the base header on. -/
theorem framer_raised {b : Bool} {S : List Byte} {e : ErrorCode} {q : List Byte} (h2 : 2 ≤ S.length)
    (hf : framer b (shapeOf (headerOf S).mask (headerOf S).len7) (S.take 2) (S.drop 2) = .raised e q) :
    (e = .unsupportedPlatform ∧ (headerOf S).len7 = 127#7 ∧ b = false)
    ∨ (e = .invalidExtendedLength ∧ (headerOf S).len7 = 126#7 ∧ lengthOf S = 0 ∧ 4 ≤ S.length)
    ∨ e = .malformedPacket := by
  rw [framer_split _ _ 2 (le_refl _) h2] at hf
  split_ifs at hf with c1 c2 c3 c4 c5 c6 c7
  · cases hf; exact .inl ⟨rfl, extn_eq_eight c1.1, c1.2⟩
  · cases hf; exact .inr (.inl ⟨rfl, extn_eq_two c3.1, c3.2, by omega⟩)
  · cases hf; exact .inr (.inr rfl)

end Sys2Proof.Machine
end

