-- ==== Sys2Proof/Laws/PerInstr.lean ====
section
/-!
SUPPORT. The family TableRow: the encoder against the match and mask of spec/opcode_table.json, one lemma per constructor.
-/

namespace Sys2Proof.Laws

/-- A base header as the number the table gives it: byte 0 is bits 15..8 (30_encoding.md R91). -/
def headerWord (b0 b1 : Byte) : BitVec 16 := (b0.setWidth 16 <<< 8) ||| b1.setWidth 16

theorem headerWord_hpack (h : Header) : headerWord (hpack h).1 (hpack h).2 = h16 h := by
  unfold headerWord hpack
  ext i hi
  interval_cases i <;> simp

theorem h16_opcode (h : Header) : h16 h &&& 0x0F00#16 = h.opcode.setWidth 16 <<< 8 := by
  unfold h16
  ext i hi
  interval_cases i <;> simp

theorem headerWord_mask (b0 : Byte) (m : BitVec 1) (l : BitVec 7) :
    headerWord b0 (byteOne m l) &&& 0x0080#16 = m.setWidth 16 <<< 7 := by
  unfold headerWord byteOne
  ext i hi
  interval_cases i <;> simp

theorem headerWord_shape (b0 : Byte) (m : BitVec 1) (l : BitVec 7) :
    headerWord b0 (byteOne m l) &&& 0x00FF#16 = (byteOne m l).setWidth 16 := by
  unfold headerWord byteOne
  ext i hi
  interval_cases i <;> simp

/-- The match and mask that spec/opcode_table.json gives a row (30_encoding.md R102); rows of width 0 have none. -/
def tableRow : Instr → Option (BitVec 16 × BitVec 16)
  | .continuation _ _ _ _ => some (0x0000#16, 0x0F00#16)
  | .text _ _ _ _ => some (0x0100#16, 0x0F00#16)
  | .binary _ _ _ _ => some (0x0200#16, 0x0F00#16)
  | .rsvd3 _ _ _ _ => some (0x0300#16, 0x0F00#16)
  | .rsvd4 _ _ _ _ => some (0x0400#16, 0x0F00#16)
  | .rsvd5 _ _ _ _ => some (0x0500#16, 0x0F00#16)
  | .rsvd6 _ _ _ _ => some (0x0600#16, 0x0F00#16)
  | .rsvd7 _ _ _ _ => some (0x0700#16, 0x0F00#16)
  | .close _ _ _ _ => some (0x0800#16, 0x0F00#16)
  | .ping _ _ _ _ => some (0x0900#16, 0x0F00#16)
  | .pong _ _ _ _ => some (0x0A00#16, 0x0F00#16)
  | .rsvd11 _ _ _ _ => some (0x0B00#16, 0x0F00#16)
  | .rsvd12 _ _ _ _ => some (0x0C00#16, 0x0F00#16)
  | .rsvd13 _ _ _ _ => some (0x0D00#16, 0x0F00#16)
  | .rsvd14 _ _ _ _ => some (0x0E00#16, 0x0F00#16)
  | .rsvd15 _ _ _ _ => some (0x0F00#16, 0x0F00#16)
  | .l7u _ _ => some (0x0000#16, 0x0080#16)
  | .l16u _ => some (0x007E#16, 0x00FF#16)
  | .l64u _ => some (0x007F#16, 0x00FF#16)
  | .l7m _ _ => some (0x0080#16, 0x0080#16)
  | .l16m _ => some (0x00FE#16, 0x00FF#16)
  | .l64m _ => some (0x00FF#16, 0x00FF#16)
  | .encode => none
  | .decode => none
  | .recv => none
  | .xmask => none
  | .reset => none
  | .hpack _ _ _ _ _ => none
  | .hunpack _ _ => none
  | .lsel _ => none
  | .extn _ => none
  | .lext _ _ => none
  | .poff _ _ => none
  | .keygen => none
  | .write _ _ => none

/-- A well-formed row's two bytes lie under the row's match and mask; a row with no bit pattern has no bytes. -/
def TableRow.Statement (i : Instr) : Prop :=
  i.wellFormed = true →
    match tableRow i with
    | some (pattern, mask) => ∃ b0 b1, encode i = [b0, b1] ∧ headerWord b0 b1 &&& mask = pattern
    | none => encode i = []

theorem opcode_bytes (h : Header) : ∃ b0 b1, headerBytes h = [b0, b1] ∧ headerWord b0 b1 &&& 0x0F00#16 = h.opcode.setWidth 16 <<< 8 :=
  ⟨_, _, rfl, by rw [headerWord_hpack, h16_opcode]⟩

theorem literal_bytes (b0 : Byte) (m : BitVec 1) (l : BitVec 7) :
    ∃ c0 c1, shapeBytes b0 m l = [c0, c1] ∧ headerWord c0 c1 &&& 0x0080#16 = m.setWidth 16 <<< 7 :=
  ⟨_, _, rfl, headerWord_mask b0 m l⟩

theorem selector_bytes (b0 : Byte) (m : BitVec 1) (l : BitVec 7) :
    ∃ c0 c1, shapeBytes b0 m l = [c0, c1] ∧ headerWord c0 c1 &&& 0x00FF#16 = (byteOne m l).setWidth 16 :=
  ⟨_, _, rfl, headerWord_shape b0 m l⟩

theorem TableRow.continuation (fin : BitVec 1) (rsv : BitVec 3) (mask : BitVec 1) (len7 : BitVec 7) :
    TableRow.Statement (.continuation fin rsv mask len7) :=
  fun _ => opcode_bytes ⟨fin, rsv, 0#4, mask, len7⟩

theorem TableRow.text (fin : BitVec 1) (rsv : BitVec 3) (mask : BitVec 1) (len7 : BitVec 7) :
    TableRow.Statement (.text fin rsv mask len7) :=
  fun _ => opcode_bytes ⟨fin, rsv, 1#4, mask, len7⟩

theorem TableRow.binary (fin : BitVec 1) (rsv : BitVec 3) (mask : BitVec 1) (len7 : BitVec 7) :
    TableRow.Statement (.binary fin rsv mask len7) :=
  fun _ => opcode_bytes ⟨fin, rsv, 2#4, mask, len7⟩

theorem TableRow.rsvd3 (fin : BitVec 1) (rsv : BitVec 3) (mask : BitVec 1) (len7 : BitVec 7) :
    TableRow.Statement (.rsvd3 fin rsv mask len7) :=
  fun _ => opcode_bytes ⟨fin, rsv, 3#4, mask, len7⟩

theorem TableRow.rsvd4 (fin : BitVec 1) (rsv : BitVec 3) (mask : BitVec 1) (len7 : BitVec 7) :
    TableRow.Statement (.rsvd4 fin rsv mask len7) :=
  fun _ => opcode_bytes ⟨fin, rsv, 4#4, mask, len7⟩

theorem TableRow.rsvd5 (fin : BitVec 1) (rsv : BitVec 3) (mask : BitVec 1) (len7 : BitVec 7) :
    TableRow.Statement (.rsvd5 fin rsv mask len7) :=
  fun _ => opcode_bytes ⟨fin, rsv, 5#4, mask, len7⟩

theorem TableRow.rsvd6 (fin : BitVec 1) (rsv : BitVec 3) (mask : BitVec 1) (len7 : BitVec 7) :
    TableRow.Statement (.rsvd6 fin rsv mask len7) :=
  fun _ => opcode_bytes ⟨fin, rsv, 6#4, mask, len7⟩

theorem TableRow.rsvd7 (fin : BitVec 1) (rsv : BitVec 3) (mask : BitVec 1) (len7 : BitVec 7) :
    TableRow.Statement (.rsvd7 fin rsv mask len7) :=
  fun _ => opcode_bytes ⟨fin, rsv, 7#4, mask, len7⟩

theorem TableRow.close (fin : BitVec 1) (rsv : BitVec 3) (mask : BitVec 1) (len7 : BitVec 7) :
    TableRow.Statement (.close fin rsv mask len7) :=
  fun _ => opcode_bytes ⟨fin, rsv, 8#4, mask, len7⟩

theorem TableRow.ping (fin : BitVec 1) (rsv : BitVec 3) (mask : BitVec 1) (len7 : BitVec 7) :
    TableRow.Statement (.ping fin rsv mask len7) :=
  fun _ => opcode_bytes ⟨fin, rsv, 9#4, mask, len7⟩

theorem TableRow.pong (fin : BitVec 1) (rsv : BitVec 3) (mask : BitVec 1) (len7 : BitVec 7) :
    TableRow.Statement (.pong fin rsv mask len7) :=
  fun _ => opcode_bytes ⟨fin, rsv, 10#4, mask, len7⟩

theorem TableRow.rsvd11 (fin : BitVec 1) (rsv : BitVec 3) (mask : BitVec 1) (len7 : BitVec 7) :
    TableRow.Statement (.rsvd11 fin rsv mask len7) :=
  fun _ => opcode_bytes ⟨fin, rsv, 11#4, mask, len7⟩

theorem TableRow.rsvd12 (fin : BitVec 1) (rsv : BitVec 3) (mask : BitVec 1) (len7 : BitVec 7) :
    TableRow.Statement (.rsvd12 fin rsv mask len7) :=
  fun _ => opcode_bytes ⟨fin, rsv, 12#4, mask, len7⟩

theorem TableRow.rsvd13 (fin : BitVec 1) (rsv : BitVec 3) (mask : BitVec 1) (len7 : BitVec 7) :
    TableRow.Statement (.rsvd13 fin rsv mask len7) :=
  fun _ => opcode_bytes ⟨fin, rsv, 13#4, mask, len7⟩

theorem TableRow.rsvd14 (fin : BitVec 1) (rsv : BitVec 3) (mask : BitVec 1) (len7 : BitVec 7) :
    TableRow.Statement (.rsvd14 fin rsv mask len7) :=
  fun _ => opcode_bytes ⟨fin, rsv, 14#4, mask, len7⟩

theorem TableRow.rsvd15 (fin : BitVec 1) (rsv : BitVec 3) (mask : BitVec 1) (len7 : BitVec 7) :
    TableRow.Statement (.rsvd15 fin rsv mask len7) :=
  fun _ => opcode_bytes ⟨fin, rsv, 15#4, mask, len7⟩

theorem TableRow.l7u (b0 : Byte) (len7 : BitVec 7) : TableRow.Statement (.l7u b0 len7) :=
  fun _ => literal_bytes b0 0#1 len7

theorem TableRow.l7m (b0 : Byte) (len7 : BitVec 7) : TableRow.Statement (.l7m b0 len7) :=
  fun _ => literal_bytes b0 1#1 len7

theorem TableRow.l16u (b0 : Byte) : TableRow.Statement (.l16u b0) :=
  fun _ => selector_bytes b0 0#1 126#7

theorem TableRow.l64u (b0 : Byte) : TableRow.Statement (.l64u b0) :=
  fun _ => selector_bytes b0 0#1 127#7

theorem TableRow.l16m (b0 : Byte) : TableRow.Statement (.l16m b0) :=
  fun _ => selector_bytes b0 1#1 126#7

theorem TableRow.l64m (b0 : Byte) : TableRow.Statement (.l64m b0) :=
  fun _ => selector_bytes b0 1#1 127#7

theorem TableRow.encode : TableRow.Statement .encode :=
  fun _ => rfl

theorem TableRow.decode : TableRow.Statement .decode :=
  fun _ => rfl

theorem TableRow.recv : TableRow.Statement .recv :=
  fun _ => rfl

theorem TableRow.xmask : TableRow.Statement .xmask :=
  fun _ => rfl

theorem TableRow.reset : TableRow.Statement .reset :=
  fun _ => rfl

theorem TableRow.hpack (fin : BitVec 1) (rsv : BitVec 3) (opcode : BitVec 4) (mask : BitVec 1) (len7 : BitVec 7) : TableRow.Statement (.hpack fin rsv opcode mask len7) :=
  fun _ => rfl

theorem TableRow.hunpack (b0 b1 : Byte) : TableRow.Statement (.hunpack b0 b1) :=
  fun _ => rfl

theorem TableRow.lsel (length : Word64) : TableRow.Statement (.lsel length) :=
  fun _ => rfl

theorem TableRow.extn (len7 : BitVec 7) : TableRow.Statement (.extn len7) :=
  fun _ => rfl

theorem TableRow.lext (len7 : BitVec 7) (ext : List Byte) : TableRow.Statement (.lext len7 ext) :=
  fun _ => rfl

theorem TableRow.poff (mask : BitVec 1) (len7 : BitVec 7) : TableRow.Statement (.poff mask len7) :=
  fun _ => rfl

theorem TableRow.keygen : TableRow.Statement .keygen :=
  fun _ => rfl

theorem TableRow.write (code : Fin 7) (msg : List Byte) : TableRow.Statement (.write code msg) :=
  fun _ => rfl

end Sys2Proof.Laws
end

