-- ==== Sys2Proof/Laws/Steps.lean ====
section
/-!
SUPPORT. What each instruction and what a step can do, said once, for the proofs of invariants and frames.
-/

namespace Sys2Proof.Machine

/-- RECV on fewer than two bytes holds in phase HDR. -/
theorem execRecv_short {s : State} (hi : s.Idle) (h : s.rxq.length < 2) :
    exec .recv s = .next (holdReceive [] s.rxq (startReceive s)) := by
  have := pull_split 2 0 s.rxq (by omega)
  rw [if_pos h] at this
  simp only [exec, execRecv, admission_eq_none.mpr hi, receiveFrame, startReceive_rxq,
    show pull 2 [] s.rxq = none from this]

/-- RECV on at least two bytes is the framer from the base header on. -/
theorem execRecv_long {s : State} (hi : s.Idle) (h : 2 ≤ s.rxq.length) : exec .recv s =
    match framer s.hasLen64 (shapeOf (headerOf s.rxq).mask (headerOf s.rxq).len7) (s.rxq.take 2) (s.rxq.drop 2) with
    | .hold t q => .next (holdReceive t q (startReceive s))
    | .raised e q => .next (raise e { startReceive s with rxq := q })
    | .refuse r => .refused r
    | .framed raw q => decodeRaw raw.length raw (placeFrame raw q (startReceive s)) := by
  have := pull_split 2 0 s.rxq (by omega)
  rw [if_neg (by omega)] at this
  simp only [exec, execRecv, admission_eq_none.mpr hi, receiveFrame, startReceive_rxq,
    show pull 2 [] s.rxq = some (s.rxq.take 2, s.rxq.drop 2) from this]
  rw [headerOf_take _ _ (le_refl 2)]
  rfl

/-- The sixteen opcode rows run one operation (45_opcodes.md R206). -/
theorem exec_of_mem_opcodeRows (h : Header) (i : Instr) (hi : (h.opcode, i) ∈ opcodeRows h.fin h.rsv h.mask h.len7)
    (s : State) : exec i s = runOpcode h s := by
  have rows : ∀ r ∈ opcodeRows h.fin h.rsv h.mask h.len7, exec r.2 s = runOpcode ⟨h.fin, h.rsv, r.1, h.mask, h.len7⟩ s := by
    unfold opcodeRows
    repeat' rw [List.forall_mem_cons]
    and_intros <;> first | rfl | exact List.forall_mem_nil _
  exact rows _ hi

/-- The six shape rows run one operation. -/
theorem exec_of_mem_shapeRows (b0 : Byte) (len7 : BitVec 7) (hl : len7.toNat ≤ 125) (m : BitVec 1) (l : BitVec 7)
    (i : Instr) (hi : (m, l, i) ∈ shapeRows b0 len7) (s : State) :
    exec i s = runFrame (shapeOf m l) b0 (byteOne m l) s := by
  have h1 : len7 ≠ 126#7 := by rintro rfl; simp at hl
  have h2 : len7 ≠ 127#7 := by rintro rfl; simp at hl
  have rows : ∀ r ∈ shapeRows b0 len7, exec r.2.2 s = runFrame (shapeOf r.1 r.2.1) b0 (byteOne r.1 r.2.1) s := by
    unfold shapeRows
    repeat' rw [List.forall_mem_cons]
    and_intros <;> first
      | rfl
      | exact List.forall_mem_nil _
      | simp [exec, execL7u, execL7m, runShape, hl, shapeOf, h1, h2]
  exact rows _ hi

/-- Everything ENCODE can leave. -/
theorem exec_encode_next {s t : State} (h : exec .encode s = .next t) :
    s.Idle ∧ s.cmd.len.toNat ≤ Config.maxPayload ∧ ∃ data, Memory.readBytes s.txp 0 s.cmd.len.toNat = some data
      ∧ t = emitFrame s.cmd.opcode s.cmd.useMask (encodeKey s.cmd.useMask s).1 data (encodeKey s.cmd.useMask s).2 := by
  simp only [exec, execEncode] at h
  split at h
  · cases h
  · rename_i ha; exact ⟨admission_eq_none.mp ha, encodePayload_next h⟩

/-- Everything WRITE can leave. -/
theorem exec_write_next {code : Fin 7} {msg : List Byte} {s t : State} (h : exec (.write code msg) s = .next t) :
    s.Idle ∧ (writePayload code msg).length ≤ Config.maxPayload ∧ ∃ data,
      t = emitFrame 1#4 1#1 (encodeKey 1#1 (writeSetup code msg s)).1 data (encodeKey 1#1 (writeSetup code msg s)).2
        ∧ data.length = (writePayload code msg).length := by
  simp only [exec, execWrite] at h
  split at h
  · cases h
  · rename_i ha
    split at h
    · cases h
    · obtain ⟨h1, d, h2, h3⟩ := encodePayload_next h
      exact ⟨admission_eq_none.mp ha, h1, d, h3, (readBytes_eq_some h2).1⟩

/-- DECODE runs the decoder on the buffer. -/
theorem exec_decode_next {s t : State} (h : exec .decode s = .next t) :
    s.Idle ∧ s.cmd.len.toNat ≤ 14 + Config.maxPayload
      ∧ decodeRaw s.cmd.len.toNat (Memory.readUpTo s.rxi 0 s.cmd.len.toNat) (startReceive s) = .next t := by
  simp only [exec, execDecode] at h
  split at h
  · cases h
  · rename_i ha
    split at h
    · cases h
    · rename_i hx
      rw [exceedsRaw_iff] at hx
      exact ⟨admission_eq_none.mp ha, by unfold Config.longestHeader at hx; omega, h⟩

/-- RECV from its start holds in phase HDR or goes on from the base header. -/
theorem receiveFrame_next {s t : State} (h : receiveFrame s = .next t) :
    t = holdReceive [] s.rxq s
    ∨ ∃ sh b0 b1 q, s.rxq = b0 :: b1 :: q ∧ receiveFrom sh [b0, b1] { s with rxq := q } = .next t := by
  have := pull_split 2 0 s.rxq (by omega)
  simp only [List.take_zero, List.drop_zero] at this
  unfold receiveFrame at h
  rw [this] at h
  split at h
  · cases h; exact .inl rfl
  · rename_i hd q hp
    split_ifs at hp with hc
    cases hp
    replace hc : 2 ≤ s.rxq.length := by omega
    match hq : s.rxq, hc with
    | b0 :: b1 :: r, _ => rw [hq] at h; exact .inr ⟨_, b0, b1, r, rfl, h⟩

/-- RECV is admitted and runs from its start. -/
theorem exec_recv_next {s t : State} (h : exec .recv s = .next t) :
    s.Idle ∧ receiveFrame (startReceive s) = .next t := by
  simp only [exec, execRecv] at h
  split at h
  · cases h
  · rename_i ha; exact ⟨admission_eq_none.mp ha, h⟩

/-- The ways in which an instruction of the receive side can go on: from a base header, holding in phase HDR, or decoding
RXI. -/
def ReceiveWays (s t : State) : Prop :=
  (∃ sh taken q, q <:+ s.rxq ∧ (taken.length = 2 ∨ s.recv = some taken) ∧ 2 ≤ taken.length
      ∧ receiveFrom sh taken { startReceive s with rxq := q } = .next t)
  ∨ t = holdReceive [] s.rxq (startReceive s)
  ∨ (s.recv = none ∧ ∃ n, n ≤ 14 + Config.maxPayload
      ∧ decodeRaw n (Memory.readUpTo s.rxi 0 n) (startReceive s) = .next t)

/-- Everything an instruction of the receive side can do. -/
theorem receives_exec_next {i : Instr} {s t : State} (hr : receives i = true) (h : exec i s = .next t) :
    s.err = .none ∧ ReceiveWays s t := by
  have frame : ∀ sh b0 b1, runFrame sh b0 b1 s = .next t → s.err = .none ∧ ReceiveWays s t := by
    intro sh b0 b1 h
    obtain ⟨h1, taken, h2, h3⟩ := runFrame_next h
    obtain ⟨h4, h5⟩ := headerProgress_some h2
    have : 2 ≤ taken.length := by
      have := congrArg List.length h4; rw [List.length_take] at this; simp at this; omega
    exact ⟨h1, .inl ⟨sh, taken, s.rxq, List.suffix_refl _, h5.imp (by rintro rfl; rfl) id, this, h3⟩⟩
  cases i
  case decode =>
    obtain ⟨h1, h2, h3⟩ := exec_decode_next h
    exact ⟨h1.1, .inr (.inr ⟨h1.2, _, h2, h3⟩)⟩
  case recv =>
    obtain ⟨h1, h2⟩ := exec_recv_next h
    rcases receiveFrame_next h2 with rfl | ⟨sh, b0, b1, q, hq, h3⟩
    · exact ⟨h1.1, .inr (.inl rfl)⟩
    · exact ⟨h1.1, .inl ⟨sh, [b0, b1], q, ⟨[b0, b1], hq.symm⟩, .inl rfl, by simp, h3⟩⟩
  case l7u =>
    simp only [exec, execL7u] at h; split at h
    · exact frame _ _ _ h
    · cases h
  case l7m =>
    simp only [exec, execL7m] at h; split at h
    · exact frame _ _ _ h
    · cases h
  all_goals first | exact frame _ _ _ h | cases hr

/-- An instruction of the receive side takes bytes from the head of RXQ only, and none from the socket's. -/
theorem receives_exec_suffix {i : Instr} {s t : State} (hr : receives i = true) (h : exec i s = .next t) :
    t.rxq <:+ s.rxq ∧ t.socket = s.socket := by
  obtain ⟨-, ⟨sh, taken, q, hq, -, -, hf⟩ | rfl | ⟨-, n, -, hd⟩⟩ := receives_exec_next hr h
  · have := receiveFrom_suffix hf
    exact ⟨this.1.trans hq, this.2⟩
  · exact ⟨List.suffix_refl _, rfl⟩
  · rcases decodeRaw_next hd with rfl | ⟨f, -, rfl⟩ <;> exact ⟨List.suffix_refl _, rfl⟩

/-- Everything any other instruction can do. -/
theorem transmits_or_computes_next {i : Instr} {s t : State} (hr : receives i = false) (h : exec i s = .next t) :
    (i = .reset ∧ t = resetBlock s) ∨ (∃ r, t = answer r s)
    ∨ (i = .keygen ∧ t = answer (.bytes (keyBytes (keyDraw s).1)) (keyDraw s).2)
    ∨ (i = .encode ∨ ∃ code msg, i = .write code msg)
    ∨ (i = .xmask ∧ s.Idle ∧ ∃ bs, bs.length ≤ Config.maxPayload ∧ t = { s with xmo := Memory.ofBytes bs }) := by
  cases i <;> try (cases hr; done)
  case encode => exact .inr (.inr (.inr (.inl (.inl rfl))))
  case write code msg => exact .inr (.inr (.inr (.inl (.inr ⟨_, _, rfl⟩))))
  case reset => cases h; exact .inl ⟨rfl, rfl⟩
  case keygen => cases h; exact .inr (.inr (.inl ⟨rfl, rfl⟩))
  case xmask =>
    simp only [exec, execXmask] at h
    split at h
    · cases h
    · rename_i ha
      split at h
      · cases h
      · rename_i hx
        rw [exceedsPayload_iff] at hx
        split at h
        · cases h
        · split at h
          · cases h
          · rename_i d hd
            cases h
            refine .inr (.inr (.inr (.inr ⟨rfl, admission_eq_none.mp ha, _, ?_, rfl⟩)))
            rw [xmask_length, (readBytes_eq_some hd).1]; omega
  case lsel length =>
    simp only [exec, execLsel] at h
    split at h
    · cases h
    · split at h
      · cases h
      · cases h; exact .inr (.inl ⟨_, rfl⟩)
  case lext l e =>
    simp only [exec, execLext] at h
    split at h
    · cases h; exact .inr (.inl ⟨_, rfl⟩)
    · cases h
  all_goals (cases h; exact .inr (.inl ⟨_, rfl⟩))

/-- ENCODE and WRITE leave the stream as it is. -/
theorem transmits_exec_stream {i : Instr} {s t : State} (hi : i = .encode ∨ ∃ code msg, i = .write code msg)
    (h : exec i s = .next t) : t.rxq = s.rxq ∧ t.socket = s.socket := by
  rcases hi with rfl | ⟨code, msg, rfl⟩
  · obtain ⟨-, -, d, -, rfl⟩ := exec_encode_next h; simp
  · obtain ⟨-, -, d, rfl, -⟩ := exec_write_next h; simp

/-- What a held RECV can fetch. -/
theorem fetch_some {s s' : State} {i : Instr} (h : fetch s = some (i, s')) :
    (∃ taken, s.recv = some taken) ∧ receives i = true ∧ (∃ q, q <:+ s.rxq ∧ s' = { s with rxq := q }) := by
  unfold fetch at h
  split at h
  · cases h
  · rename_i taken ht
    refine ⟨⟨_, ht⟩, ?_⟩
    have hop : ∀ h : Header, receives (opcodeRow h) = true := by intro h; unfold opcodeRow; split <;> rfl
    have hsp : ∀ b m l, receives (shapeRow b m l) = true := by intro b m l; unfold shapeRow; split <;> rfl
    split at h
    · split at h
      · simp only [Option.map_eq_some_iff, Prod.mk.injEq] at h
        obtain ⟨j, hj, rfl, rfl⟩ := h
        refine ⟨?_, _, List.drop_suffix _ _, rfl⟩
        unfold decodedOpcode decode at hj
        split at hj <;> rename_i hd
        · split at hd <;> cases hd; cases hj; exact hop _
        · cases hj
      · simp only [Option.map_eq_some_iff, Prod.mk.injEq] at h
        obtain ⟨j, hj, rfl, rfl⟩ := h
        refine ⟨?_, _, List.suffix_refl _, rfl⟩
        unfold decodedShape decode at hj
        split at hj <;> rename_i hd
        · split at hd <;> cases hd; cases hj; exact hsp _ _ _
        · cases hj
    · cases h

/-- A push that goes on moves bytes from the front of the socket's to the tail of RXQ. -/
theorem pushStream_next {bs : List Byte} {s t : State} (h : pushStream bs s = .next t) :
    ∃ k : Socket, s.socket.data = bs ++ k.data ∧ (s.socket.begun = true → k.begun = true)
      ∧ (s.socket.begun = false → k.begun = true → ∃ b, s.socket.bytes.head? = some b ∧ b.first = true)
      ∧ t = { s with rxq := s.rxq ++ bs, socket := k } := by
  unfold pushStream at h
  split_ifs at h with hp hb
  cases h
  rw [not_not] at hp
  refine ⟨_, ?_, fun hk => by simp [hk], fun hk hne => ?_, rfl⟩
  · simp only [Socket.data, List.map_drop]
    conv_lhs => rw [← List.take_append_drop bs.length (s.socket.bytes.map SocketByte.byte)]
    rw [show (s.socket.bytes.map SocketByte.byte).take bs.length = bs from hp]
  · simp only [hk, Bool.false_or] at hb hne
    match hs : s.socket.bytes, bs with
    | _, [] => cases hne
    | [], _ :: _ => simp [Socket.data, hs] at hp
    | b :: r, _ :: _ => rw [hs] at hb; exact ⟨b, rfl, hb⟩

/-- A drain that goes on drops bytes from the front of the socket's, before the stream has begun. -/
theorem drainSocket_next {n : Nat} {s t : State} (h : drainSocket n s = .next t) :
    s.socket.begun = false ∧ t = { s with socket := { s.socket with bytes := s.socket.bytes.drop n } } := by
  unfold drainSocket at h
  split_ifs at h with hb
  cases h
  exact ⟨by simpa using hb, rfl⟩

/-- The interactions that change the socket's bytes and no other: a delivery, and a drain before the stream has begun. -/
def SocketMoves (s : State) (a : HostAction) (k : Socket) : Prop :=
  (∃ bs, a = .deliver bs ∧ k = { s.socket with bytes := s.socket.bytes ++ bs })
  ∨ ∃ n, a = .drain n ∧ s.socket.begun = false ∧ k = { s.socket with bytes := s.socket.bytes.drop n }

/-- Everything a step can do. -/
theorem step_next {s t : State} (h : step s = .next t) :
    (∃ i s', fetch s = some (i, s') ∧ exec i s' = .next t) ∨ (s.host = [] ∧ t = s) ∨ (∃ a rest, s.host = a :: rest ∧
     ((∃ c, a = .issue c ∧ exec (commandInstr c.kind) { s with host := rest, cmd := c } = .next t)
     ∨ (∃ code msg, a = .write code msg ∧ exec (.write code msg) { s with host := rest } = .next t)
     ∨ (∃ b o bs, a = .place b o bs ∧ s.recv = none ∧ inSpace b o bs.length = true
        ∧ t = placeBytes b o bs { s with host := rest })
     ∨ (∃ k : Socket, SocketMoves s a k ∧ t = { s with host := rest, socket := k })
     ∨ (∃ bs, ∃ k : Socket, a = .push bs ∧ s.socket.data = bs ++ k.data ∧ (s.socket.begun = true → k.begun = true)
        ∧ (s.socket.begun = false → k.begun = true → ∃ b, s.socket.bytes.head? = some b ∧ b.first = true)
        ∧ t = { s with host := rest, rxq := s.rxq ++ bs, socket := k })
     ∨ (∃ ks, t = { s with host := rest, keys := ks })
     ∨ (∃ r, t = { s with host := rest, reply := r }))) := by
  unfold step at h
  split at h
  · rename_i i s' hf; exact .inl ⟨i, s', hf, h⟩
  · right
    unfold hostStep at h
    split at h
    · rename_i hh; cases h; exact .inl ⟨hh, rfl⟩
    · rename_i a rest hh
      refine .inr ⟨a, rest, hh, ?_⟩
      cases a with
      | issue c => exact .inl ⟨c, rfl, h⟩
      | write code msg => exact .inr (.inl ⟨_, _, rfl, h⟩)
      | place b o bs =>
        simp only [hostTurn] at h
        by_cases h1 : s.recv.isSome = true
        · simp only [if_pos h1] at h; cases h
        · simp only [if_neg h1] at h
          by_cases h2 : inSpace b o bs.length = true
          · simp only [if_pos h2] at h; cases h; exact .inr (.inr (.inl ⟨_, _, _, rfl, by simpa using h1, h2, rfl⟩))
          · simp only [if_neg h2] at h; cases h
      | deliver bs => cases h; exact .inr (.inr (.inr (.inl ⟨_, .inl ⟨_, rfl, rfl⟩, rfl⟩)))
      | drain n =>
        obtain ⟨hb, ht⟩ := drainSocket_next h
        exact .inr (.inr (.inr (.inl ⟨_, .inr ⟨_, rfl, hb, rfl⟩, ht⟩)))
      | push bs =>
        obtain ⟨k, h1, h2, h3, ht⟩ := pushStream_next h
        exact .inr (.inr (.inr (.inr (.inl ⟨_, k, rfl, h1, h2, h3, ht⟩))))
      | supplyKey k => cases h; exact .inr (.inr (.inr (.inr (.inr (.inl ⟨_, rfl⟩)))))
      | readStatus =>
        cases h
        iterate 6 right
        exact ⟨_, rfl⟩
      | readCap =>
        cases h
        iterate 6 right
        exact ⟨_, rfl⟩
      | readField sd f =>
        simp only [hostTurn] at h
        by_cases h1 : s.recv.isSome = true
        · simp only [if_pos h1] at h; cases h
        · simp only [if_neg h1, replyOrNoValue] at h
          split at h
          · rename_i hx; split at hx <;> cases hx
          · rename_i o hx; split at hx <;> cases hx <;> cases h
            iterate 6 right
            exact ⟨_, rfl⟩
      | readBytes b o c =>
        simp only [hostTurn] at h
        by_cases h1 : s.recv.isSome = true
        · simp only [if_pos h1] at h; cases h
        · simp only [if_neg h1, replyOrNoValue] at h
          split at h
          · rename_i hx; split at hx <;> cases hx
          · rename_i o hx; split at hx <;> cases hx <;> cases h
            iterate 6 right
            exact ⟨_, rfl⟩

end Sys2Proof.Machine
end

