-- ==== Sys2Proof/Tests/Slice0.lean ====
section
/-!
SUPPORT. Named tests: the ill-formed terms, base headers written out from the spec, single instructions against the vectors
of 95_test_vectors.md, single steps, and a witness for every statement that has hypotheses.
-/

namespace Sys2Proof.Tests

open Sys2Proof Sys2Proof.Machine

/-! ### Helpers -/

/-- The next state, where the outcome is one. -/
def nextOf : Host.Outcome State Fault Refusal → Option State
  | .next s => some s
  | _ => none

/-- The refusal, where the outcome is one. -/
def refusalOf : Host.Outcome State Fault Refusal → Option Refusal
  | .refused r => some r
  | _ => none

/-- The reset state with a command and the bytes the host placed. -/
def small (cmd : Cmd) (txp rxi rxq : List Byte) : State :=
  { State.reset with cmd := cmd, txp := Memory.ofBytes txp, rxi := Memory.ofBytes rxi, rxq := rxq }

/-- A command of a kind with a length. -/
def lenCmd (k : CmdKind) (n : Nat) : Cmd :=
  { Cmd.reset with kind := k, len := BitVec.ofNat 64 n }

/-- `RX.OPCODE` and the payload after a row received the rest of its frame. -/
def received (o : Host.Outcome State Fault Refusal) : Option (BitVec 4 × List Byte × Bool) :=
  (nextOf o).map fun t => (t.rx.opcode, Memory.bytes t.rxp, t.rxv)

/-! ### Ill-formed terms are refused -/

/-- 30_encoding.md R93: `L7.U` has `len7` in 0..125. -/
theorem test_wf_l7u : (Instr.l7u 0x81#8 126#7).wellFormed = false := by decide

/-- 30_encoding.md R96: `L7.M` has `len7` in 0..125. -/
theorem test_wf_l7m : (Instr.l7m 0x81#8 127#7).wellFormed = false := by decide

/-- 41_length_field.md R140: `L` is at most `2^63 - 1`. -/
theorem test_wf_lsel : (Instr.lsel 0x8000000000000000#64).wellFormed = false := by decide

/-- 41_length_field.md R142: the extension has `EXTN(len7)` bytes. -/
theorem test_wf_lext : (Instr.lext 126#7 [0x05#8]).wellFormed = false := by decide

/-- The largest literal length is well formed (R93). -/
theorem test_wf_l7u_125 : (Instr.l7u 0x81#8 125#7).wellFormed = true := by decide

/-! ### Decoding: headers written out from the spec -/

/-- 45_opcodes.md R190: example header `80 00`. -/
theorem test_decode_continuation : decodeTableWord 16 0x8000 = some (.continuation 1#1 0#3 0#1 0#7) := by decide

/-- 45_opcodes.md R191: example header `81 00`. -/
theorem test_decode_text : decodeTableWord 16 0x8100 = some (.text 1#1 0#3 0#1 0#7) := by decide

/-- 45_opcodes.md R192: example header `82 00`. -/
theorem test_decode_binary : decodeTableWord 16 0x8200 = some (.binary 1#1 0#3 0#1 0#7) := by decide

/-- 45_opcodes.md R193: example header `83 00`. -/
theorem test_decode_rsvd3 : decodeTableWord 16 0x8300 = some (.rsvd3 1#1 0#3 0#1 0#7) := by decide

/-- 45_opcodes.md R194: example header `84 00`. -/
theorem test_decode_rsvd4 : decodeTableWord 16 0x8400 = some (.rsvd4 1#1 0#3 0#1 0#7) := by decide

/-- 45_opcodes.md R195: example header `85 00`. -/
theorem test_decode_rsvd5 : decodeTableWord 16 0x8500 = some (.rsvd5 1#1 0#3 0#1 0#7) := by decide

/-- 45_opcodes.md R196: example header `86 00`. -/
theorem test_decode_rsvd6 : decodeTableWord 16 0x8600 = some (.rsvd6 1#1 0#3 0#1 0#7) := by decide

/-- 45_opcodes.md R197: example header `87 00`. -/
theorem test_decode_rsvd7 : decodeTableWord 16 0x8700 = some (.rsvd7 1#1 0#3 0#1 0#7) := by decide

/-- 45_opcodes.md R198: example header `88 00`. -/
theorem test_decode_close : decodeTableWord 16 0x8800 = some (.close 1#1 0#3 0#1 0#7) := by decide

/-- 45_opcodes.md R199: example header `89 00`. -/
theorem test_decode_ping : decodeTableWord 16 0x8900 = some (.ping 1#1 0#3 0#1 0#7) := by decide

/-- 45_opcodes.md R200: example header `8a 00`. -/
theorem test_decode_pong : decodeTableWord 16 0x8A00 = some (.pong 1#1 0#3 0#1 0#7) := by decide

/-- 45_opcodes.md R201: example header `8b 00`. -/
theorem test_decode_rsvd11 : decodeTableWord 16 0x8B00 = some (.rsvd11 1#1 0#3 0#1 0#7) := by decide

/-- 45_opcodes.md R202: example header `8c 00`. -/
theorem test_decode_rsvd12 : decodeTableWord 16 0x8C00 = some (.rsvd12 1#1 0#3 0#1 0#7) := by decide

/-- 45_opcodes.md R203: example header `8d 00`. -/
theorem test_decode_rsvd13 : decodeTableWord 16 0x8D00 = some (.rsvd13 1#1 0#3 0#1 0#7) := by decide

/-- 45_opcodes.md R204: example header `8e 00`. -/
theorem test_decode_rsvd14 : decodeTableWord 16 0x8E00 = some (.rsvd14 1#1 0#3 0#1 0#7) := by decide

/-- 45_opcodes.md R205: example header `8f 00`. -/
theorem test_decode_rsvd15 : decodeTableWord 16 0x8F00 = some (.rsvd15 1#1 0#3 0#1 0#7) := by decide

/-- 30_encoding.md R93: `81 05`. -/
theorem test_decode_l7u : decodedShape [0x81#8, 0x05#8] = some (.l7u 0x81#8 5#7) := by decide

/-- 30_encoding.md R94: `81 7e`. -/
theorem test_decode_l16u : decodedShape [0x81#8, 0x7E#8] = some (.l16u 0x81#8) := by decide

/-- 30_encoding.md R95: `81 7f`. -/
theorem test_decode_l64u : decodedShape [0x81#8, 0x7F#8] = some (.l64u 0x81#8) := by decide

/-- 30_encoding.md R96: `81 82`. -/
theorem test_decode_l7m : decodedShape [0x81#8, 0x82#8] = some (.l7m 0x81#8 2#7) := by decide

/-- 30_encoding.md R97: `81 fe`. -/
theorem test_decode_l16m : decodedShape [0x81#8, 0xFE#8] = some (.l16m 0x81#8) := by decide

/-- 30_encoding.md R98: `81 ff`. -/
theorem test_decode_l64m : decodedShape [0x81#8, 0xFF#8] = some (.l64m 0x81#8) := by decide

/-- Vector V9: `fa fe` has every field but `fin` and `opcode` at its maximum or a selector. -/
theorem test_decode_v9 : decodeTableWord 16 0xFAFE = some (.pong 1#1 7#3 1#1 126#7) := by decide

/-- Vector V5: `rsv[0]` alone is bit 6 of byte 0. -/
theorem test_decode_v5 : decodeTableWord 16 0x427E = some (.binary 0#1 4#3 0#1 126#7) := by decide

/-- 30_encoding.md R99, R103: one byte is no header. -/
theorem test_decode_short : decode [0x81#8] = .error .headerIncomplete := by decide

/-- 92_eei_decisions.md D4: the rows without a bit pattern have no bytes. -/
theorem test_encode_no_pattern :
    [Instr.encode, .decode, .recv, .xmask, .reset, .hpack 1#1 0#3 1#4 0#1 5#7, .hunpack 0x81#8 0x05#8, .lsel 5#64,
      .extn 126#7, .lext 5#7 [], .poff 1#1 5#7, .keygen, .write 4 []].all (fun i => decide (Sys2Proof.encode i = [])) = true := by
  decide

/-! ### Opcode rows: group V97, the frame `8n 01 61` after its header -/

/-- Group V97, opcode 0. -/
theorem test_continuation : received (exec (.continuation 1#1 0#3 0#1 1#7) (small Cmd.reset [] [] [0x61#8]))
    = some (0#4, [0x61#8], true) := by decide

/-- Group V97, opcode 1. -/
theorem test_text : received (exec (.text 1#1 0#3 0#1 1#7) (small Cmd.reset [] [] [0x61#8]))
    = some (1#4, [0x61#8], true) := by decide

/-- Group V97, opcode 2. -/
theorem test_binary : received (exec (.binary 1#1 0#3 0#1 1#7) (small Cmd.reset [] [] [0x61#8]))
    = some (2#4, [0x61#8], true) := by decide

/-- Group V97, opcode 3. -/
theorem test_rsvd3 : received (exec (.rsvd3 1#1 0#3 0#1 1#7) (small Cmd.reset [] [] [0x61#8]))
    = some (3#4, [0x61#8], true) := by decide

/-- Group V97, opcode 4. -/
theorem test_rsvd4 : received (exec (.rsvd4 1#1 0#3 0#1 1#7) (small Cmd.reset [] [] [0x61#8]))
    = some (4#4, [0x61#8], true) := by decide

/-- Group V97, opcode 5. -/
theorem test_rsvd5 : received (exec (.rsvd5 1#1 0#3 0#1 1#7) (small Cmd.reset [] [] [0x61#8]))
    = some (5#4, [0x61#8], true) := by decide

/-- Group V97, opcode 6. -/
theorem test_rsvd6 : received (exec (.rsvd6 1#1 0#3 0#1 1#7) (small Cmd.reset [] [] [0x61#8]))
    = some (6#4, [0x61#8], true) := by decide

/-- Group V97, opcode 7. -/
theorem test_rsvd7 : received (exec (.rsvd7 1#1 0#3 0#1 1#7) (small Cmd.reset [] [] [0x61#8]))
    = some (7#4, [0x61#8], true) := by decide

/-- Group V97, opcode 8. -/
theorem test_close : received (exec (.close 1#1 0#3 0#1 1#7) (small Cmd.reset [] [] [0x61#8]))
    = some (8#4, [0x61#8], true) := by decide

/-- Group V97, opcode 9. -/
theorem test_ping : received (exec (.ping 1#1 0#3 0#1 1#7) (small Cmd.reset [] [] [0x61#8]))
    = some (9#4, [0x61#8], true) := by decide

/-- Group V97, opcode 10. -/
theorem test_pong : received (exec (.pong 1#1 0#3 0#1 1#7) (small Cmd.reset [] [] [0x61#8]))
    = some (10#4, [0x61#8], true) := by decide

/-- Group V97, opcode 11. -/
theorem test_rsvd11 : received (exec (.rsvd11 1#1 0#3 0#1 1#7) (small Cmd.reset [] [] [0x61#8]))
    = some (11#4, [0x61#8], true) := by decide

/-- Group V97, opcode 12. -/
theorem test_rsvd12 : received (exec (.rsvd12 1#1 0#3 0#1 1#7) (small Cmd.reset [] [] [0x61#8]))
    = some (12#4, [0x61#8], true) := by decide

/-- Group V97, opcode 13. -/
theorem test_rsvd13 : received (exec (.rsvd13 1#1 0#3 0#1 1#7) (small Cmd.reset [] [] [0x61#8]))
    = some (13#4, [0x61#8], true) := by decide

/-- Group V97, opcode 14. -/
theorem test_rsvd14 : received (exec (.rsvd14 1#1 0#3 0#1 1#7) (small Cmd.reset [] [] [0x61#8]))
    = some (14#4, [0x61#8], true) := by decide

/-- Group V97, opcode 15. -/
theorem test_rsvd15 : received (exec (.rsvd15 1#1 0#3 0#1 1#7) (small Cmd.reset [] [] [0x61#8]))
    = some (15#4, [0x61#8], true) := by decide

/-! ### Shape rows: the layouts of 30_encoding.md R93 to R98 after the header -/

/-- Vector V68: `81 01 61`. -/
theorem test_l7u : received (exec (.l7u 0x81#8 1#7) (small Cmd.reset [] [] [0x61#8])) = some (1#4, [0x61#8], true) := by decide

/-- Vector V96d: `81 7e 00 01 61`. -/
theorem test_l16u : received (exec (.l16u 0x81#8) (small Cmd.reset [] [] [0x00#8, 0x01#8, 0x61#8]))
    = some (1#4, [0x61#8], true) := by decide

/-- Vector V86: `81 7e 00 00` raises InvalidExtendedLength. -/
theorem test_l16u_zero : (nextOf (exec (.l16u 0x81#8) (small Cmd.reset [] [] [0x00#8, 0x00#8]))).map State.err
    = some .invalidExtendedLength := by decide

/-- Vector V72: `81 7f 00 00 00 00 00 00 00 05 68 65 6c 6c 6f`. -/
theorem test_l64u : received (exec (.l64u 0x81#8) (small Cmd.reset [] []
      [0x00#8, 0x00#8, 0x00#8, 0x00#8, 0x00#8, 0x00#8, 0x00#8, 0x05#8, 0x68#8, 0x65#8, 0x6C#8, 0x6C#8, 0x6F#8]))
    = some (1#4, [0x68#8, 0x65#8, 0x6C#8, 0x6C#8, 0x6F#8], true) := by decide

/-- Vector V90: an extension of 2^63 raises MalformedPacket. -/
theorem test_l64u_top_bit : (nextOf (exec (.l64u 0x81#8) (small Cmd.reset [] []
      [0x80#8, 0x00#8, 0x00#8, 0x00#8, 0x00#8, 0x00#8, 0x00#8, 0x00#8]))).map State.err
    = some .malformedPacket := by decide

/-- Vector V62: `81 82 01 02 03 04 40 40`. -/
theorem test_l7m : received (exec (.l7m 0x81#8 2#7) (small Cmd.reset [] []
      [0x01#8, 0x02#8, 0x03#8, 0x04#8, 0x40#8, 0x40#8])) = some (1#4, [0x41#8, 0x42#8], true) := by decide

/-- 30_encoding.md R97 with the payload of V31: the key follows the extension. -/
theorem test_l16m : received (exec (.l16m 0x81#8) (small Cmd.reset [] []
      [0x00#8, 0x02#8, 0x01#8, 0x02#8, 0x03#8, 0x04#8, 0x40#8, 0x40#8])) = some (1#4, [0x41#8, 0x42#8], true) := by decide

/-- 30_encoding.md R98 with the payload of V31. -/
theorem test_l64m : received (exec (.l64m 0x81#8) (small Cmd.reset [] []
      [0x00#8, 0x00#8, 0x00#8, 0x00#8, 0x00#8, 0x00#8, 0x00#8, 0x02#8, 0x01#8, 0x02#8, 0x03#8, 0x04#8, 0x40#8, 0x40#8]))
    = some (1#4, [0x41#8, 0x42#8], true) := by decide

/-! ### Operations -/

/-- Vector V45: `81 82 01 02 03 04 40 40`. -/
theorem test_encode_masked : (nextOf (exec .encode
      { small { lenCmd .encode 2 with opcode := 1#4, useMask := 1#1 } [0x41#8, 0x42#8] [] [] with
        keys := [⟨0x01#8, 0x02#8, 0x03#8, 0x04#8⟩] })).map (fun t => (Memory.bytes t.txo, t.txv, t.keys))
    = some ([0x81#8, 0x82#8, 0x01#8, 0x02#8, 0x03#8, 0x04#8, 0x40#8, 0x40#8], true, []) := by decide

/-- Vector V59: `85 01 61`. -/
theorem test_encode_reserved : (nextOf (exec .encode (small { lenCmd .encode 1 with opcode := 5#4 } [0x61#8] [] []))).map
      (fun t => (Memory.bytes t.txo, t.draws)) = some ([0x85#8, 0x01#8, 0x61#8], 0) := by decide

/-- Vector V81: all `rsv` bits are reported. -/
theorem test_decode_op : (nextOf (exec .decode (small (lenCmd .decode 8) []
      [0xF9#8, 0x82#8, 0x01#8, 0x02#8, 0x03#8, 0x04#8, 0x40#8, 0x40#8] []))).map
      (fun t => (t.rx.rsv, t.rx.opcode, t.rx.paylen, t.rx.key, Memory.bytes t.rxp))
    = some (7#3, 9#4, 2#64, ⟨0x01#8, 0x02#8, 0x03#8, 0x04#8⟩, [0x41#8, 0x42#8]) := by decide

/-- Vector V77: one trailing byte raises MalformedPacket. -/
theorem test_decode_op_trailing : (nextOf (exec .decode (small (lenCmd .decode 8) []
      [0x81#8, 0x05#8, 0x68#8, 0x65#8, 0x6C#8, 0x6C#8, 0x6F#8, 0x00#8] []))).map (fun t => (t.err, t.rxv))
    = some (.malformedPacket, false) := by decide

/-- Vector V96f: RECV takes exactly one frame. Its `MemWrite` leaves the byte that the host placed in RXI behind it (R11). -/
theorem test_recv : (nextOf (exec .recv (small Cmd.reset [] [1#8, 2#8, 3#8, 4#8, 5#8, 6#8, 7#8, 8#8]
      [0x81#8, 0x05#8, 0x68#8, 0x65#8, 0x6C#8, 0x6C#8, 0x6F#8, 0x81#8, 0x00#8]))).map
      (fun t => (Memory.bytes t.rxp, t.rxq, Memory.bytes t.rxi))
    = some ([0x68#8, 0x65#8, 0x6C#8, 0x6C#8, 0x6F#8], [0x81#8, 0x00#8],
        [0x81#8, 0x05#8, 0x68#8, 0x65#8, 0x6C#8, 0x6C#8, 0x6F#8, 8#8]) := by decide

/-- Vector V96e: RECV holds. -/
theorem test_recv_hold : (nextOf (exec .recv (small Cmd.reset [] [] [0x81#8, 0x05#8, 0x68#8, 0x65#8, 0x6C#8]))).map
      (fun t => (t.recv, t.rxq)) = some (some [0x81#8, 0x05#8], [0x68#8, 0x65#8, 0x6C#8]) := by decide

/-- Vector V35: byte 4 uses `key[0]` again. -/
theorem test_xmask : (nextOf (exec .xmask
      (small { lenCmd .xmask 5 with key := [0x01#8, 0x02#8, 0x03#8, 0x04#8] } [0x41#8, 0x42#8, 0x43#8, 0x44#8, 0x45#8] [] []))).map
      (fun t => Memory.bytes t.xmo) = some [0x40#8, 0x40#8, 0x40#8, 0x40#8, 0x44#8] := by decide

/-- 95_test_vectors.md section 2.3: a 3-byte key is refused. -/
theorem test_xmask_bad_key : refusalOf (exec .xmask (small { lenCmd .xmask 2 with key := [0x01#8, 0x02#8, 0x03#8] }
      [0x41#8, 0x42#8] [] [])) = some .badKey := by decide

/-- Vector V111: RESET clears the error and RXQ. -/
theorem test_reset : (nextOf (exec .reset { small Cmd.reset [] [] [0x7A#8] with err := .invalidExtendedLength })).map
      (fun t => (t.err, t.rxq)) = some (.none, []) := by decide

/-! ### Functions -/

/-- Vector V9 with fin = 1, rsv = 111: `fa fe`. -/
theorem test_hpack : (nextOf (exec (.hpack 1#1 7#3 10#4 1#1 126#7) State.reset)).map State.reply
    = some (.bytes [0xFA#8, 0xFE#8]) := by decide

/-- Vector V6: `a8 80` has `rsv[1]` alone. -/
theorem test_hunpack : (nextOf (exec (.hunpack 0xA8#8 0x80#8) State.reset)).map State.reply
    = some (.header ⟨1#1, 2#3, 8#4, 1#1, 0#7⟩) := by decide

/-- Vector V13: the first 16-bit length. -/
theorem test_lsel_126 : (nextOf (exec (.lsel 126#64) State.reset)).map State.reply
    = some (.lengthField 126#7 [0x00#8, 0x7E#8]) := by decide

/-- Vector V21: both 32-bit words, high word first. -/
theorem test_lsel_words : (nextOf (exec (.lsel 4294967297#64) State.reset)).map State.reply
    = some (.lengthField 127#7 [0x00#8, 0x00#8, 0x00#8, 0x01#8, 0x00#8, 0x00#8, 0x00#8, 0x01#8]) := by decide

/-- `EXTN(127) = 8`, never 4 (90_conflicts.md C1). -/
theorem test_extn : (nextOf (exec (.extn 127#7) State.reset)).map State.reply = some (.value 8#64) := by decide

/-- Vector V25: a non-minimal 16-bit length is taken as it stands. -/
theorem test_lext_16 : (nextOf (exec (.lext 126#7 [0x00#8, 0x05#8]) State.reset)).map State.reply = some (.value 5#64) := by decide

/-- Vector V28: `LEXT` itself gives 2^63. -/
theorem test_lext_64 : (nextOf (exec (.lext 127#7 [0x80#8, 0#8, 0#8, 0#8, 0#8, 0#8, 0#8, 0#8]) State.reset)).map State.reply
    = some (.value 0x8000000000000000#64) := by decide

/-- 41_length_field.md R143: `POFF(0, 127) = 10`. -/
theorem test_poff : (nextOf (exec (.poff 0#1 127#7) State.reset)).map State.reply = some (.value 10#64) := by decide

/-- 42_masking.md R153: the next supplied key. -/
theorem test_keygen : (nextOf (exec .keygen { State.reset with keys := [⟨0xA1#8, 0xB2#8, 0xC3#8, 0xD4#8⟩] })).map
      (fun t => (t.reply, t.keys)) = some (.bytes [0xA1#8, 0xB2#8, 0xC3#8, 0xD4#8], []) := by decide

/-- 30_encoding.md R122 with the masked digit of V57: WRITE of code 5 and no message. -/
theorem test_write : (nextOf (exec (.write 5 []) { State.reset with keys := [⟨0xFF#8, 0xFF#8, 0xFF#8, 0xFF#8⟩] })).map
      (fun t => Memory.bytes t.txo) = some [0x81#8, 0x81#8, 0xFF#8, 0xFF#8, 0xFF#8, 0xFF#8, 0xCA#8] := by decide

/-! ### Steps -/

/-- Vector V96e: after `PUSH 6c 6f` the held RECV completes with "hello". -/
theorem test_step_resume : (nextOf (step { small Cmd.reset [] [] [0x68#8, 0x65#8, 0x6C#8, 0x6C#8, 0x6F#8] with
      recv := some [0x81#8, 0x05#8], rxPos := 2#64 })).map (fun t => (Memory.bytes t.rxp, t.rxv, t.recv))
    = some ([0x68#8, 0x65#8, 0x6C#8, 0x6C#8, 0x6F#8], true, none) := by decide

/-- Vector V109: ENCODE while a RECV holds is refused. -/
theorem test_step_busy : refusalOf (step { small Cmd.reset [] [] [] with
      recv := some [0x81#8, 0x7F#8], host := [.issue (lenCmd .encode 0)] }) = some .busy := by decide

/-- Vector V106: a read of `RX.OPCODE` after reset is refused. -/
theorem test_step_no_value : refusalOf (step { State.reset with host := [.readField .rx .opcode] }) = some .noValue := by decide

/-- 60_exceptions.md R214: a read of TXO while `TXV` is 0 is refused, also of no bytes. -/
theorem test_step_no_value_of_nothing :
    refusalOf (step { State.reset with host := [.readBytes .txo 0 0] }) = some .noValue := by decide

/-- 70_reset_and_hazards.md R260 item 4: a push that leaves out the first byte the socket delivered is refused. -/
theorem test_step_push_omits_a_byte : refusalOf (step { State.reset with
      socket := ⟨[⟨0x81#8, true⟩, ⟨0x00#8, false⟩], true⟩, host := [.push [0x00#8]] }) = some .notFromSocket := by decide

/-- 70_reset_and_hazards.md R252: the first push after a reset begins with byte 0 of a frame. -/
theorem test_step_push_not_aligned : refusalOf (step { State.reset with
      socket := ⟨[⟨0x00#8, false⟩, ⟨0x81#8, true⟩], false⟩, host := [.push [0x00#8]] }) = some .streamNotAligned := by decide

/-- 70_reset_and_hazards.md R241: bytes read before a RESET can be pushed after it. -/
theorem test_step_reset_keeps_socket_bytes :
    (nextOf (step { State.reset with socket := ⟨[⟨0x81#8, true⟩], true⟩, host := [.issue Cmd.reset, .push [0x81#8]] })).map
      (fun t => (nextOf (step t)).map State.rxq) = some (some [0x81#8]) := by decide

/-- 10_state.md R46: the socket's next byte goes to the tail of RXQ. -/
theorem test_step_push : (nextOf (step { State.reset with
      rxq := [0x81#8], socket := ⟨[⟨0x05#8, false⟩, ⟨0x68#8, false⟩], true⟩, host := [.push [0x05#8]] })).map
      (fun t => (t.rxq, t.socket)) = some ([0x81#8, 0x05#8], ⟨[⟨0x68#8, false⟩], true⟩) := by decide

/-- The header `81 00` placed by `withFetchWord` runs as the first instruction after reset. -/
theorem test_step_fetch : step (State.reset.withFetchWord 16 0x8100)
    = exec (.text 1#1 0#3 0#1 0#7) { State.reset.withFetchWord 16 0x8100 with rxq := List.replicate 12 0#8 } := by rfl

/-! ### Witnesses: concrete states and operands that meet the hypotheses of each statement -/

/-- `OpcodeRowsDecodeBack`. -/
theorem witness_OpcodeRowsDecodeBack : (15#4, Instr.rsvd15 1#1 7#3 1#1 127#7) ∈ opcodeRows 1#1 7#3 1#1 127#7 := by decide

/-- `ShapeRowsDecodeBack`, at the largest literal length and for a selector. -/
theorem witness_ShapeRowsDecodeBack : (125#7 : BitVec 7).toNat ≤ 125
    ∧ (1#1, 125#7, Instr.l7m 0x81#8 125#7) ∈ shapeRows 0x81#8 125#7
    ∧ (0#1, 127#7, Instr.l64u 0x81#8) ∈ shapeRows 0x81#8 125#7 := by decide

/-- `HeldReceiveRunsTheOpcodeRow`. -/
theorem witness_HeldReceiveRunsTheOpcodeRow :
    let s : State := { small Cmd.reset [] [] [0x81#8, 0x05#8] with recv := some [] }
    s.recv = some [] ∧ s.rxq = 0x81#8 :: 0x05#8 :: []
      ∧ decode s.rxq = .ok ⟨.text 1#1 0#3 0#1 5#7, .l7u 0x81#8 5#7, []⟩ := by decide

/-- `HeldReceiveRunsTheShapeRow`, with exactly the bytes of the group. -/
theorem witness_HeldReceiveRunsTheShapeRow :
    let s : State := { small Cmd.reset [] [] [0x00#8, 0x01#8] with recv := some [0x81#8, 0x7E#8] }
    s.recv = some (0x81#8 :: 0x7E#8 :: []) ∧ groupEnd [0x81#8, 0x7E#8] ≤ [0x81#8, 0x7E#8].length + s.rxq.length
      ∧ decode [0x81#8, 0x7E#8] = .ok ⟨.text 1#1 0#3 0#1 126#7, .l16u 0x81#8, []⟩ := by decide

/-- `StepRunsTheHostsInstruction`: each of its clauses, with a command of each KIND. -/
theorem witness_StepRunsTheHostsInstruction :
    State.reset.recv = none ∧ State.reset.host = []
      ∧ ({ State.reset with host := [.issue Cmd.reset] } : State).host = .issue Cmd.reset :: [] ∧ Cmd.reset.kind = .reset
      ∧ (∀ k, ({ State.reset with host := [.issue (lenCmd k 0)] } : State).host = .issue (lenCmd k 0) :: []
          ∧ (lenCmd k 0).kind = k)
      ∧ ({ State.reset with host := [.write 6 []] } : State).host = .write 6 [] :: [] :=
  ⟨rfl, rfl, rfl, rfl, fun _ => ⟨rfl, rfl⟩, rfl⟩

/-- `RecvIsTheRowsOfItsHeader`. -/
theorem witness_RecvIsTheRowsOfItsHeader :
    let s := small Cmd.reset [] [] [0x81#8, 0x05#8, 0x68#8]
    s.Idle ∧ s.rxq = 0x81#8 :: 0x05#8 :: [0x68#8]
      ∧ decode s.rxq = .ok ⟨.text 1#1 0#3 0#1 5#7, .l7u 0x81#8 5#7, [0x68#8]⟩ :=
  ⟨⟨rfl, rfl⟩, rfl, by decide⟩

/-- `LengthShapeSelection` and `LextInvertsLsel`: the boundary lengths of its clauses. -/
theorem witness_LengthShapeSelection :
    125 ≤ 2 ^ 63 - 1 ∧ 125 < 126 ∧ 126 ≤ 65535 ∧ 65535 < 65536 ∧ 65536 ≤ 2 ^ 63 - 1 ∧ 65535 < 2 ^ 63 - 1 := by decide

/-- `LselChoosesTheShortestShape`: the largest length of the operand type, in the reset state. -/
theorem witness_LselChoosesTheShortestShape :
    (0x7FFFFFFFFFFFFFFF#64 : Word64).toNat ≤ 2 ^ 63 - 1
      ∧ (65535 < (0x7FFFFFFFFFFFFFFF#64 : Word64).toNat → State.reset.hasLen64 = true) := by decide

/-- `LextReadsTheLength` and `PoffPerShape`: the largest literal. -/
theorem witness_LextReadsTheLength : (125#7 : BitVec 7).toNat ≤ 125 := by decide

/-- `KeygenDrawsOneKey`: both clauses. -/
theorem witness_KeygenDrawsOneKey :
    ({ State.reset with keys := [⟨1#8, 2#8, 3#8, 4#8⟩] } : State).keys = ⟨1#8, 2#8, 3#8, 4#8⟩ :: [] ∧ State.reset.keys = [] := by
  decide

/-- A command length above every capacity. -/
def hugeCmd (k : CmdKind) : Cmd := { Cmd.reset with kind := k, len := 0xFFFFFFFFFFFFFFFF#64 }

theorem hugeCmd_len (k : CmdKind) : 14 + Config.maxPayload < (hugeCmd k).len.toNat := by
  have := maxPayload_le
  show 14 + Config.maxPayload < (0xFFFFFFFFFFFFFFFF#64 : BitVec 64).toNat
  simp only [BitVec.toNat_ofNat]
  omega

/-- Lengths up to 70000 are within every capacity. -/
theorem small_length (n : Nat) (h : n ≤ 70000) : n ≤ Config.maxPayload := by
  have := maxPayload_ge
  omega

/-- `MaskingTransform`, the refusal. -/
theorem witness_MaskingTransform :
    let s := small { lenCmd .xmask 2 with key := [1#8, 2#8, 3#8] } [0x41#8, 0x42#8] [] []
    s.Idle ∧ s.cmd.len.toNat ≤ Config.maxPayload ∧ s.cmd.key.length ≠ 4 :=
  ⟨⟨rfl, rfl⟩, small_length _ (by decide), by decide⟩

/-- `XmaskOperation`, the result, on the data of V35. -/
theorem witness_XmaskOperation :
    let s := small { lenCmd .xmask 5 with key := [1#8, 2#8, 3#8, 4#8] } [0x41#8, 0x42#8, 0x43#8, 0x44#8, 0x45#8] [] []
    s.Idle ∧ s.cmd.len.toNat ≤ Config.maxPayload ∧ s.cmd.key = [1#8, 2#8, 3#8, 4#8]
      ∧ Memory.readBytes s.txp 0 s.cmd.len.toNat = some [0x41#8, 0x42#8, 0x43#8, 0x44#8, 0x45#8] :=
  ⟨⟨rfl, rfl⟩, small_length _ (by decide), rfl, by decide⟩

/-- `XmaskOperation`, the refusals; and the first case of `XmaskRefusals` and `EncodeRefusals`. -/
theorem witness_XmaskOperation_refusals :
    ({ State.reset with err := .malformedPacket } : State).err ≠ .none
      ∧ (small (hugeCmd .xmask) [] [] []).Idle
      ∧ Config.maxPayload < (small (hugeCmd .xmask) [] [] []).cmd.len.toNat :=
  ⟨by decide, ⟨rfl, rfl⟩, Nat.lt_of_le_of_lt (Nat.le_add_left _ _) (hugeCmd_len .xmask)⟩

/-- `XmaskRefusals`: its middle cases. -/
theorem witness_XmaskRefusals :
    let s := small { lenCmd .xmask 2 with key := [1#8, 2#8, 3#8] } [] [] []
    let u := small (lenCmd .xmask 2) [0x41#8] [] []
    s.Idle ∧ ¬ Config.maxPayload < s.cmd.len.toNat ∧ s.cmd.key.length ≠ 4
      ∧ u.Idle ∧ ¬ Config.maxPayload < u.cmd.len.toNat ∧ u.cmd.key.length = 4
      ∧ Memory.readBytes u.txp 0 u.cmd.len.toNat = none :=
  ⟨⟨rfl, rfl⟩, Nat.not_lt.mpr (small_length _ (by decide)), by decide, ⟨rfl, rfl⟩,
    Nat.not_lt.mpr (small_length _ (by decide)), by decide, by decide⟩

/-- 65536 bytes of TXP. -/
def bigPayload : List Byte := List.replicate 65536 0x78#8

theorem bigPayload_length : bigPayload.length = 65536 := List.length_replicate

/-- `EncodeBuildsTheFrame`, `EncodeRoundTrip`: a masked frame with a supplied key and one with none. -/
theorem witness_EncodeBuildsTheFrame :
    let s : State := { small { lenCmd .encode 2 with opcode := 1#4, useMask := 1#1 } [0x41#8, 0x42#8] [] [] with
      keys := [⟨1#8, 2#8, 3#8, 4#8⟩] }
    s.Idle ∧ s.cmd.len.toNat ≤ Config.maxPayload ∧ (65535 < s.cmd.len.toNat → s.hasLen64 = true)
      ∧ Memory.readBytes s.txp 0 s.cmd.len.toNat = some [0x41#8, 0x42#8]
      ∧ s.cmd.useMask = 1#1 ∧ s.keys = ⟨1#8, 2#8, 3#8, 4#8⟩ :: []
      ∧ ({ s with keys := [] } : State).Idle ∧ ({ s with keys := [] } : State).keys = [] :=
  ⟨⟨rfl, rfl⟩, small_length _ (by decide), by decide, by decide, rfl, rfl, ⟨rfl, rfl⟩, rfl⟩

/-- `EncodeBuildsTheFrame`, `EncodeRoundTrip`: the empty unmasked frame. -/
theorem witness_EncodeRoundTrip_empty :
    let s := small { lenCmd .encode 0 with opcode := 1#4 } [] [] []
    s.Idle ∧ s.cmd.len.toNat ≤ Config.maxPayload ∧ (65535 < s.cmd.len.toNat → s.hasLen64 = true)
      ∧ Memory.readBytes s.txp 0 s.cmd.len.toNat = some [] ∧ s.cmd.useMask = 0#1 :=
  ⟨⟨rfl, rfl⟩, small_length _ (by decide), by decide, by decide, rfl⟩

/-- `EncodeBuildsTheFrame`, `EncodeRoundTrip`: the first 64-bit length. -/
theorem witness_EncodeRoundTrip_64 :
    let s := small { lenCmd .encode 65536 with opcode := 1#4 } bigPayload [] []
    s.Idle ∧ s.cmd.len.toNat ≤ Config.maxPayload ∧ 65535 < s.cmd.len.toNat ∧ s.hasLen64 = true
      ∧ Memory.readBytes s.txp 0 s.cmd.len.toNat = some bigPayload :=
  ⟨⟨rfl, rfl⟩, small_length _ (by decide), by decide, rfl, by
    have := readBytes_ofBytes bigPayload
    rwa [bigPayload_length] at this⟩

/-- `EncodedFrameLength`: an ENCODE that completes. -/
theorem witness_EncodedFrameLength :
    ∃ t, exec .encode (small { lenCmd .encode 1 with opcode := 5#4 } [0x61#8] [] []) = .next t := ⟨_, rfl⟩

/-- `EncodeRefusals`: its second and third case. -/
theorem witness_EncodeRefusals :
    let s : State := { small (lenCmd .encode 65536) [] [] [] with hasLen64 := false }
    let u := small (lenCmd .encode 2) [0x41#8] [] []
    s.Idle ∧ ¬ Config.maxPayload < s.cmd.len.toNat ∧ 65535 < s.cmd.len.toNat ∧ s.hasLen64 = false
      ∧ u.Idle ∧ ¬ Config.maxPayload < u.cmd.len.toNat ∧ Memory.readBytes u.txp 0 u.cmd.len.toNat = none :=
  ⟨⟨rfl, rfl⟩, Nat.not_lt.mpr (small_length _ (by decide)), by decide, rfl, ⟨rfl, rfl⟩,
    Nat.not_lt.mpr (small_length _ (by decide)), by decide⟩

/-- `WriteExpandsToEncode`, `WriteEmitsMaskedText`. -/
theorem witness_WriteEmitsMaskedText :
    State.reset.Idle ∧ ([0x61#8] : List Byte).length + 1 ≤ Config.maxPayload
      ∧ (65535 < ([0x61#8] : List Byte).length + 1 → State.reset.hasLen64 = true) :=
  ⟨⟨rfl, rfl⟩, small_length _ (by decide), by decide⟩

/-- A frame of each kind that fits: `FrameFits` with no, a 16-bit and a 64-bit extension. -/
theorem witness_FrameFits :
    FrameFits ⟨1#1, 0#3, 1#4, 0#1, 1#7⟩ [] [0x61#8] ∧ FrameFits ⟨1#1, 0#3, 1#4, 1#1, 126#7⟩ [0#8, 1#8] [0x61#8]
      ∧ FrameFits ⟨1#1, 0#3, 1#4, 0#1, 127#7⟩ [0#8, 0#8, 0#8, 0#8, 0#8, 0#8, 0#8, 0#8] [] :=
  ⟨⟨by decide, by decide, small_length _ (by decide)⟩, ⟨by decide, by decide, small_length _ (by decide)⟩,
    ⟨by decide, by decide, small_length _ (by decide)⟩⟩

/-- `DecodeExposesTheFrame`: the smallest buffer that decodes (V68), and V73 in the 64-bit shape. -/
theorem witness_DecodeExposesTheFrame :
    let h : Header := ⟨1#1, 0#3, 1#4, 0#1, 1#7⟩
    let k : Key := ⟨0#8, 0#8, 0#8, 0#8⟩
    let s := small (lenCmd .decode 3) [] [0x81#8, 0x01#8, 0x61#8] []
    s.Idle ∧ (h.len7 = 127#7 → s.hasLen64 = true) ∧ 3 ≤ poff h.mask h.len7 + [0x61#8].length
      ∧ s.cmd.len.toNat = poff h.mask h.len7 + [0x61#8].length
      ∧ Memory.readUpTo s.rxi 0 s.cmd.len.toNat = rawFrame h [] k [0x61#8] :=
  ⟨⟨rfl, rfl⟩, by decide, by decide, by decide, by decide⟩

theorem witness_DecodeExposesTheFrame_64 :
    let h : Header := ⟨1#1, 0#3, 1#4, 0#1, 127#7⟩
    let k : Key := ⟨0#8, 0#8, 0#8, 0#8⟩
    let s := small (lenCmd .decode 10) [] [0x81#8, 0x7F#8, 0#8, 0#8, 0#8, 0#8, 0#8, 0#8, 0#8, 0#8] []
    s.Idle ∧ s.hasLen64 = true ∧ 3 ≤ poff h.mask h.len7 + 0
      ∧ s.cmd.len.toNat = poff h.mask h.len7 + 0
      ∧ Memory.readUpTo s.rxi 0 s.cmd.len.toNat = rawFrame h [0#8, 0#8, 0#8, 0#8, 0#8, 0#8, 0#8, 0#8] k [] :=
  ⟨⟨rfl, rfl⟩, by decide, by decide, by decide, by decide⟩

/-- `ShortRawBuffersAreMalformed`: a command length of 2. -/
theorem witness_ShortRawBuffersAreMalformed :
    (small (lenCmd .decode 2) [] [] []).Idle ∧ (small (lenCmd .decode 2) [] [] []).cmd.len.toNat ≤ 2 :=
  ⟨⟨rfl, rfl⟩, by decide⟩

/-- `DecodeRaisesMalformedPacket`: each of its four conditions (V66, V69, V75, V77). -/
theorem witness_DecodeRaisesMalformedPacket :
    ([0x81#8, 0x00#8] : List Byte).length < 3
      ∧ [0x81#8, 0x7E#8, 0x00#8].length < 2 + extn (headerOf [0x81#8, 0x7E#8, 0x00#8]).len7
      ∧ 2 ^ 63 ≤ lengthOf [0x81#8, 0x7F#8, 0x80#8, 0#8, 0#8, 0#8, 0#8, 0#8, 0#8, 0#8]
      ∧ [0x89#8, 0x00#8, 0xAA#8].length ≠ poff (headerOf [0x89#8, 0x00#8, 0xAA#8]).mask
          (headerOf [0x89#8, 0x00#8, 0xAA#8]).len7 + lengthOf [0x89#8, 0x00#8, 0xAA#8] := by decide

/-- `DecodeRaisesMalformedPacket`: the state of V78. -/
theorem witness_DecodeRaisesMalformedPacket_state :
    let s := small (lenCmd .decode 3) [] [0x89#8, 0x00#8, 0xAA#8] []
    s.Idle ∧ ((headerOf [0x89#8, 0x00#8, 0xAA#8]).len7 = 127#7 → s.hasLen64 = true)
      ∧ s.cmd.len.toNat = [0x89#8, 0x00#8, 0xAA#8].length
      ∧ [0x89#8, 0x00#8, 0xAA#8].length ≤ 14 + Config.maxPayload
      ∧ Memory.readUpTo s.rxi 0 s.cmd.len.toNat = [0x89#8, 0x00#8, 0xAA#8] :=
  ⟨⟨rfl, rfl⟩, by decide, by decide, Nat.le_trans (small_length _ (by decide)) (Nat.le_add_left _ _), by decide⟩

/-- `DecodeRefusals`: its clauses. -/
theorem witness_DecodeRefusals :
    let s := small (lenCmd .decode 3) [] [0x81#8] []
    let u : State := { small (lenCmd .decode 3) [] [0x81#8, 0x7F#8] [] with hasLen64 := false }
    let v := small (lenCmd .decode 3) [] [0x81#8, 0x01#8, 0x61#8] []
    (14 + Config.maxPayload < (small (hugeCmd .decode) [] [] []).cmd.len.toNat)
      ∧ s.Idle ∧ s.cmd.len.toNat ≤ 14 + Config.maxPayload ∧ 3 ≤ s.cmd.len.toNat
      ∧ (Memory.readUpTo s.rxi 0 s.cmd.len.toNat).length < 2
      ∧ u.Idle ∧ 2 ≤ (Memory.readUpTo u.rxi 0 u.cmd.len.toNat).length
      ∧ (headerOf (Memory.readUpTo u.rxi 0 u.cmd.len.toNat)).len7 = 127#7 ∧ u.hasLen64 = false
      ∧ v.Idle ∧ (Memory.readUpTo v.rxi 0 v.cmd.len.toNat).length = v.cmd.len.toNat
      ∧ v.cmd.len.toNat = poff 0#1 1#7 + lengthOf [0x81#8, 0x01#8, 0x61#8] ∧ lengthOf [0x81#8, 0x01#8, 0x61#8] < 2 ^ 63 :=
  ⟨hugeCmd_len .decode, ⟨rfl, rfl⟩, Nat.le_trans (small_length _ (by decide)) (Nat.le_add_left _ _), by decide, by decide,
    ⟨rfl, rfl⟩, by decide, by decide, rfl, ⟨rfl, rfl⟩, by decide, by decide, by decide⟩

/-- `DecodeRefusals`: buffers placed in part, one for each branch of that clause but the payload above the capacity:
`81 7e` of 3 bytes and of 6, `81 02` of 5, `81 7e 00 02 61` of 6. -/
theorem witness_DecodeRefusals_placed_in_part :
    let part : Nat → List Byte → State := fun n rxi => small (lenCmd .decode n) [] rxi []
    let raw : State → List Byte := fun s => Memory.readUpTo s.rxi 0 s.cmd.len.toNat
    let u := part 3 [0x81#8, 0x7E#8]
    let v := part 6 [0x81#8, 0x7E#8]
    let w := part 5 [0x81#8, 0x02#8]
    let x := part 6 [0x81#8, 0x7E#8, 0x00#8, 0x02#8, 0x61#8]
    u.Idle ∧ 2 ≤ (raw u).length ∧ (raw u).length < u.cmd.len.toNat ∧ u.hasLen64 = true
      ∧ u.cmd.len.toNat < 2 + extn (headerOf (raw u)).len7
      ∧ ¬ v.cmd.len.toNat < 2 + extn (headerOf (raw v)).len7 ∧ (raw v).length < 2 + extn (headerOf (raw v)).len7
      ∧ w.cmd.len.toNat ≠ poff 0#1 2#7 + lengthOf (raw w) ∧ ¬ (raw w).length < 2 + extn (headerOf (raw w)).len7
      ∧ x.cmd.len.toNat = poff 0#1 126#7 + lengthOf (raw x) ∧ (raw x).length = 5 ∧ ¬ 2 ^ 63 ≤ lengthOf (raw x)
      ∧ ¬ Config.maxPayload < lengthOf (raw x) :=
  ⟨⟨rfl, rfl⟩, by decide, by decide, rfl, by decide, by decide, by decide, by decide, by decide, by decide, by decide,
    by decide, Nat.not_lt.mpr (small_length _ (by decide))⟩

/-- `DecodeDependsOnTheRawBytesAlone`: two states that differ in RXQ. -/
theorem witness_DecodeDependsOnTheRawBytesAlone :
    let s := small (lenCmd .decode 3) [] [0x81#8, 0x01#8, 0x61#8] []
    let u := small (lenCmd .decode 3) [] [0x81#8, 0x01#8, 0x61#8] [0x00#8]
    s.Idle ∧ u.Idle ∧ s.hasLen64 = u.hasLen64 ∧ s.cmd.len = u.cmd.len
      ∧ ∀ a, a < s.cmd.len.toNat → Memory.read s.rxi a = Memory.read u.rxi a :=
  ⟨⟨rfl, rfl⟩, ⟨rfl, rfl⟩, rfl, rfl, fun _ _ => rfl⟩

/-- `RecvTakesOneFrame`: V96d with bytes behind it. -/
theorem witness_RecvTakesOneFrame :
    let h : Header := ⟨1#1, 0#3, 1#4, 0#1, 126#7⟩
    let s := small Cmd.reset [] [] [0x81#8, 0x7E#8, 0x00#8, 0x01#8, 0x61#8, 0x99#8]
    s.Idle ∧ FrameFits h [0#8, 1#8] [0x61#8] ∧ (h.len7 = 126#7 → ([0x61#8] : List Byte) ≠ [])
      ∧ (h.len7 = 127#7 → s.hasLen64 = true) ∧ 3 ≤ poff h.mask h.len7 + [0x61#8].length
      ∧ s.rxq = rawFrame h [0#8, 1#8] ⟨0#8, 0#8, 0#8, 0#8⟩ [0x61#8] ++ [0x99#8] :=
  ⟨⟨rfl, rfl⟩, ⟨by decide, by decide, small_length _ (by decide)⟩, by decide, by decide, by decide, by decide⟩

/-- `OpcodeRowsReceiveTheirFrame`: the masked empty PONG of V96g, before its key. -/
theorem witness_OpcodeRowsReceiveTheirFrame :
    let h : Header := ⟨1#1, 0#3, 10#4, 1#1, 0#7⟩
    let s : State := small Cmd.reset [] [] [0x01#8, 0x02#8, 0x03#8, 0x04#8]
    (h.opcode, Instr.pong 1#1 0#3 1#1 0#7) ∈ opcodeRows h.fin h.rsv h.mask h.len7 ∧ s.err = .none ∧ s.AtHeader
      ∧ FrameFits h [] [] ∧ (h.len7 = 126#7 → ([] : List Byte) ≠ []) ∧ (h.len7 = 127#7 → s.hasLen64 = true)
      ∧ 3 ≤ poff h.mask h.len7 + 0 ∧ (headerBytes h).length ≤ poff h.mask h.len7 + 0
      ∧ headerBytes h ++ s.rxq = rawFrame h [] ⟨1#8, 2#8, 3#8, 4#8⟩ [] ++ [] :=
  ⟨by decide, rfl, ⟨rfl, .inl rfl⟩, ⟨by decide, by decide, small_length _ (by decide)⟩, by decide, by decide, by decide,
    by decide, by decide⟩

/-- `OpcodeRowsReceiveTheirFrame`: the same frame in a RECV that holds with its header taken. -/
theorem witness_OpcodeRowsReceiveTheirFrame_held :
    let h : Header := ⟨1#1, 0#3, 10#4, 1#1, 0#7⟩
    let s : State := { small Cmd.reset [] [] [0x01#8, 0x02#8, 0x03#8, 0x04#8] with recv := some [0x8A#8, 0x80#8] }
    s.err = .none ∧ s.recv = some [0x8A#8, 0x80#8] ∧ 2 ≤ [0x8A#8, 0x80#8].length
      ∧ [0x8A#8, 0x80#8].length ≤ poff h.mask h.len7 + 0
      ∧ [0x8A#8, 0x80#8] ++ s.rxq = rawFrame h [] ⟨1#8, 2#8, 3#8, 4#8⟩ [] ++ [] := by decide

/-- `ShapeRowsReceiveTheirFrame`: a held RECV of the frame of V62 that has its key. -/
theorem witness_ShapeRowsReceiveTheirFrame :
    let k : Key := ⟨1#8, 2#8, 3#8, 4#8⟩
    let taken : List Byte := [0x81#8, 0x82#8, 0x01#8, 0x02#8, 0x03#8, 0x04#8]
    let s : State := { small Cmd.reset [] [] [0x40#8, 0x40#8] with recv := some taken }
    (2#7 : BitVec 7).toNat ≤ 125 ∧ (1#1, 2#7, Instr.l7m 0x81#8 2#7) ∈ shapeRows 0x81#8 2#7 ∧ s.err = .none
      ∧ s.recv = some taken ∧ 2 ≤ taken.length ∧ FrameFits (hunpack 0x81#8 (byteOne 1#1 2#7)) [] [0x41#8, 0x42#8]
      ∧ 3 ≤ poff 1#1 2#7 + 2 ∧ taken.length ≤ poff 1#1 2#7 + 2
      ∧ taken ++ s.rxq = rawFrame (hunpack 0x81#8 (byteOne 1#1 2#7)) [] k [0x41#8, 0x42#8] ++ [] :=
  ⟨by decide, by decide, rfl, rfl, by decide, ⟨by decide, by decide, small_length _ (by decide)⟩, by decide, by decide,
    by decide⟩

/-- `ShapeRowsReceiveTheirFrame`: the frame of V62 from its base header on. -/
theorem witness_ShapeRowsReceiveTheirFrame_header :
    let k : Key := ⟨1#8, 2#8, 3#8, 4#8⟩
    let s := small Cmd.reset [] [] [0x01#8, 0x02#8, 0x03#8, 0x04#8, 0x40#8, 0x40#8]
    s.err = .none ∧ s.AtHeader ∧ [0x81#8, byteOne 1#1 2#7].length ≤ poff 1#1 2#7 + 2
      ∧ [0x81#8, byteOne 1#1 2#7] ++ s.rxq = rawFrame (hunpack 0x81#8 (byteOne 1#1 2#7)) [] k [0x41#8, 0x42#8] ++ [] :=
  ⟨rfl, ⟨rfl, .inl rfl⟩, by decide, by decide⟩

/-- `StreamErrorsOfRecv`, `RecvRaises`, `CapabilityIsHardwired`: V87, V88. -/
theorem witness_StreamErrorsOfRecv :
    let s := small Cmd.reset [] [] [0x81#8, 0x7E#8, 0#8, 0#8, 0x7A#8]
    let u : State := { small Cmd.reset [] [] [0x81#8, 0x7F#8] with hasLen64 := false }
    s.Idle ∧ (hunpack 0x81#8 0x7E#8).len7 = 126#7 ∧ s.rxq = 0x81#8 :: 0x7E#8 :: 0#8 :: 0#8 :: [0x7A#8]
      ∧ u.Idle ∧ (hunpack 0x81#8 0x7F#8).len7 = 127#7 ∧ u.hasLen64 = false ∧ u.rxq = 0x81#8 :: 0x7F#8 :: [] :=
  ⟨⟨rfl, rfl⟩, by decide, rfl, ⟨rfl, rfl⟩, by decide, rfl, rfl⟩

/-- `StreamErrorsOfRecv`: runs that end in each of the two errors, and one of DECODE. -/
theorem witness_StreamErrorsOfRecv_outcomes :
    (∃ t, exec .recv (small Cmd.reset [] [] [0x81#8, 0x7E#8, 0#8, 0#8]) = .next t ∧ t.err = .invalidExtendedLength)
      ∧ (∃ t, exec .recv { small Cmd.reset [] [] [0x81#8, 0x7F#8] with hasLen64 := false } = .next t
          ∧ t.err = .unsupportedPlatform)
      ∧ (∃ t, exec .decode (small (lenCmd .decode 0) [] [] []) = .next t) ∧ State.reset.err = .none
      ∧ State.reset.hasLen64 = true ∧ (∃ t, exec .recv State.reset = .next t) :=
  ⟨⟨_, rfl, rfl⟩, ⟨_, rfl, rfl⟩, ⟨_, rfl⟩, rfl, rfl, ⟨_, rfl⟩⟩

/-- `RecvRaises`: the third and fourth clause, V90 and V93. -/
theorem witness_RecvRaises :
    let e : List Byte := [0x80#8, 0#8, 0#8, 0#8, 0#8, 0#8, 0#8, 0#8]
    (hunpack 0x81#8 0x7F#8).len7 = 127#7 ∧ State.reset.hasLen64 = true ∧ e.length = 8 ∧ 2 ^ 63 ≤ beNat e
      ∧ (hunpack 0x89#8 0x00#8).len7 = 0#7 ∧ (hunpack 0x89#8 0x00#8).mask = 0#1 := by decide

/-- `RecvAgreesWithExtent`: an idle state for each outcome of `Extent` but a refusal (V96a, V92, V85). -/
theorem witness_RecvAgreesWithExtent :
    (small Cmd.reset [] [] [0x81#8]).Idle ∧ extent true [0x81#8] = .needMore
      ∧ extent true [0x81#8, 0x00#8] = .fault .malformedPacket 2 ∧ extent true [0x81#8, 0x01#8, 0x61#8] = .frame 3 :=
  ⟨⟨rfl, rfl⟩, by decide, by decide, by decide⟩

/-- `RecvAgreesWithExtent`: the refusal, a declared length of `2^63 - 1`. An instance has it where its capacity is not the
largest that 00_scope.md R7 allows; the capacity is open (log 12), so that is a premise here. -/
theorem witness_RecvAgreesWithExtent_refusal (h : Config.maxPayload < 2 ^ 63 - 1) :
    extent true [0x81#8, 0x7F#8, 0x7F#8, 0xFF#8, 0xFF#8, 0xFF#8, 0xFF#8, 0xFF#8, 0xFF#8, 0xFF#8]
      = .refuse .payloadTooLarge := by
  have hx : exceedsPayload (2 ^ 63 - 1) = true := (exceedsPayload_iff _).mpr h
  exact if_pos hx

/-- `HeldRecvResumesAsOneRecv`: V96e, resumed by `6c 6f` and not by `6c`. -/
theorem witness_HeldRecvResumesAsOneRecv :
    let s := small Cmd.reset [] [] []
    let q : List Byte := [0x81#8, 0x05#8, 0x68#8, 0x65#8, 0x6C#8]
    s.Idle ∧ (∃ t, exec .recv { s with rxq := q } = .next t ∧ t.recv = some [0x81#8, 0x05#8])
      ∧ canResume [0x81#8, 0x05#8] [0x68#8, 0x65#8, 0x6C#8, 0x6C#8, 0x6F#8] = true
      ∧ canResume [0x81#8, 0x05#8] [0x68#8, 0x65#8, 0x6C#8, 0x6C#8] = false :=
  ⟨⟨rfl, rfl⟩, ⟨_, rfl, rfl⟩, by decide, by decide⟩

/-- `DecodeAndRecvAgree`: the frame of V71. -/
theorem witness_DecodeAndRecvAgree :
    let raw : List Byte := [0x81#8, 0x7E#8, 0x00#8, 0x05#8, 0x68#8, 0x65#8, 0x6C#8, 0x6C#8, 0x6F#8]
    let s := small (lenCmd .decode 9) [] raw []
    s.Idle ∧ s.rxi = Memory.ofBytes raw ∧ s.cmd.len.toNat = raw.length
      ∧ ∃ t, exec .decode s = .next t ∧ t.rxv = true ∧ ¬ (t.rx.len7 = 126#7 ∧ t.rx.paylen = 0#64) :=
  ⟨⟨rfl, rfl⟩, rfl, by decide, _, rfl, rfl, by decide⟩

/-- `ReceiveSideLeavesTheRest`, `ValidFlags`: a receive row that goes on. -/
theorem witness_ReceiveSideLeavesTheRest :
    receives .recv = true ∧ ∃ t, exec .recv State.reset = .next t := ⟨rfl, _, rfl⟩

/-- `TransmitSideLeavesTheRest`, `ValidFlags`: ENCODE and WRITE that go on. -/
theorem witness_TransmitSideLeavesTheRest :
    (∃ t, exec .encode (small { lenCmd .encode 1 with opcode := 1#4 } [0x61#8] [] []) = .next t)
      ∧ (∃ t, exec (.write 0 []) { State.reset with keys := [⟨1#8, 2#8, 3#8, 4#8⟩] } = .next t) :=
  ⟨⟨_, rfl⟩, ⟨_, rfl⟩⟩

/-- `BusyRefusesEveryOperationButReset`: a RECV that holds after `81 7f`, against another header. -/
theorem witness_BusyRefusesEveryOperationButReset :
    let s : State := { small Cmd.reset [] [] [] with recv := some [0x81#8, 0x7F#8] }
    s.err = .none ∧ s.recv = some [0x81#8, 0x7F#8] ∧ ([0x81#8, 0x7F#8] : List Byte) ≠ []
      ∧ (10#4, Instr.pong 1#1 0#3 0#1 0#7) ∈ opcodeRows 1#1 0#3 0#1 0#7
      ∧ ([0x81#8, 0x7F#8] : List Byte).take 2 ≠ headerBytes ⟨1#1, 0#3, 10#4, 0#1, 0#7⟩
      ∧ (0#1, 126#7, Instr.l16u 0x81#8) ∈ shapeRows 0x81#8 0#7
      ∧ ([0x81#8, 0x7F#8] : List Byte).take 2 ≠ [0x81#8, byteOne 0#1 126#7] := by decide

/-- `HostWhileRecvHolds`: the state of V89 with a push to come. -/
theorem witness_HostWhileRecvHolds :
    let s : State :=
      { small Cmd.reset [] [] [] with recv := some [0x81#8, 0x7F#8], socket := ⟨[⟨0#8, false⟩], true⟩, host := [.push [0#8]] }
    s.err = .none ∧ s.recv = some [0x81#8, 0x7F#8] ∧ canResume [0x81#8, 0x7F#8] s.rxq = false
      ∧ s.host = .push [0#8] :: [] ∧ s.socket.data.take 1 = [0#8] ∧ s.socket.data.take 1 ≠ [1#8] := by decide

/-- `ErrorIsSticky`: an instruction that changes `ERR`, and a faulted state with an operation. -/
theorem witness_ErrorIsSticky :
    (∃ t, exec .decode (small (lenCmd .decode 0) [] [] []) = .next t
        ∧ t.err ≠ (small (lenCmd .decode 0) [] [] []).err)
      ∧ ({ State.reset with err := .unsupportedPlatform } : State).err ≠ .none :=
  ⟨⟨_, rfl, by decide⟩, by decide⟩

/-- `FaultedRefusesFrameRowsAndOperations`: a faulted state, with a frame row and with an operation. -/
theorem witness_FaultedRefusesFrameRowsAndOperations :
    ({ State.reset with err := .unsupportedPlatform } : State).err ≠ .none
      ∧ (Instr.l7u 0x81#8 125#7).wellFormed = true ∧ refusedWhenFaulted (.l7u 0x81#8 125#7)
      ∧ Instr.encode.wellFormed = true ∧ refusedWhenFaulted .encode :=
  ⟨by decide, by decide, .inl rfl, by decide, .inr (.inl rfl)⟩

/-- `ErrorStaysUntilReset`: a faulted state whose step is a RESET. -/
theorem witness_ErrorStaysUntilReset :
    let s : State := { State.reset with err := .malformedPacket, host := [.issue Cmd.reset] }
    s.err ≠ .none ∧ ∃ t, step s = .next t := ⟨by decide, _, rfl⟩

/-- `CapabilityIsHardwired`: a step that goes on. -/
theorem witness_CapabilityIsHardwired : ∃ t, step State.reset = .next t := ⟨_, rfl⟩

/-- `HostReads`: states for its clauses, with a register that has a value and one that has none. -/
theorem witness_HostReads :
    let s : State := { small Cmd.reset [] [] [] with rxv := true, rxp := Memory.ofBytes [0x61#8] }
    s.recv = none ∧ validFlag s .rx = true ∧ (Field.opcode = .key → (sideRegs s .rx).mask = 1#1)
      ∧ validFlag s .tx = false ∧ ¬ (Field.key = .key → (sideRegs s .rx).mask = 1#1)
      ∧ s.txv = false ∧ s.rxv = true ∧ s.rxp = Memory.ofBytes [0x61#8]
      ∧ Memory.readBytes s.rxp 0 1 = some [0x61#8] ∧ Memory.readBytes s.rxp 0 2 = none := by decide

/-- `HostReads`: the coming interaction of each clause. -/
theorem witness_HostReads_host :
    ({ State.reset with host := [.readStatus] } : State).host = .readStatus :: []
      ∧ ({ State.reset with host := [.readCap] } : State).host = .readCap :: []
      ∧ ({ State.reset with host := [.readField .rx .key] } : State).host = .readField .rx .key :: []
      ∧ ({ State.reset with host := [.readBytes .xmo 0 1] } : State).host = .readBytes .xmo 0 1 :: []
      ∧ ({ State.reset with host := [.readBytes .txo 7 0] } : State).host = .readBytes .txo 7 0 :: []
      ∧ ({ State.reset with host := [.readBytes .rxp 0 0] } : State).host = .readBytes .rxp 0 0 :: []
      ∧ State.reset.txv = false ∧ State.reset.rxv = false := by decide

/-- `HostWrites`: the coming interaction of each clause. -/
theorem witness_HostWrites :
    State.reset.recv = none ∧ ({ State.reset with host := [.push [0#8]] } : State).host = .push [0#8] :: []
      ∧ ({ State.reset with host := [.deliver [⟨0#8, true⟩]] } : State).host = .deliver [⟨0#8, true⟩] :: []
      ∧ ({ State.reset with host := [.drain 12] } : State).host = .drain 12 :: []
      ∧ (⟨[⟨0#8, true⟩], false⟩ : Socket).data.take 1 = [0#8] ∧ (⟨[⟨0#8, true⟩], false⟩ : Socket).data.take 1 ≠ [1#8]
      ∧ ([⟨0#8, true⟩] : List SocketByte).head?.map SocketByte.first = some true
      ∧ ([⟨0#8, false⟩] : List SocketByte).head?.map SocketByte.first = some false
      ∧ ({ State.reset with host := [.supplyKey ⟨1#8, 2#8, 3#8, 4#8⟩] } : State).host = .supplyKey ⟨1#8, 2#8, 3#8, 4#8⟩ :: []
      ∧ ({ State.reset with host := [.place .txp 0 [0#8]] } : State).host = .place .txp 0 [0#8] :: []
      ∧ ({ State.reset with host := [.place .rxi 0 [0#8]] } : State).host = .place .rxi 0 [0#8] :: [] := by decide

/-- `HostWrites`: the last offset of a space and the first one behind it. -/
theorem witness_HostWrites_boundary :
    (Config.maxPayload - 1) + ([0#8] : List Byte).length ≤ Config.maxPayload
      ∧ ¬ Config.maxPayload + ([0#8] : List Byte).length ≤ Config.maxPayload
      ∧ (13 + Config.maxPayload) + ([0#8] : List Byte).length ≤ 14 + Config.maxPayload
      ∧ ¬ (14 + Config.maxPayload) + ([0#8] : List Byte).length ≤ 14 + Config.maxPayload := by
  have := maxPayload_ge
  simp only [List.length_singleton]
  omega

/-- `StreamBytesComeFromTheSocket`: steps that push, deliver, drain, reset, and receive a frame. -/
theorem witness_StreamBytesComeFromTheSocket :
    (∃ t, step { State.reset with socket := ⟨[⟨0x81#8, true⟩], false⟩, host := [.push [0x81#8]] } = .next t
        ∧ t.rxq = [0x81#8] ∧ t.socket.begun = true)
      ∧ (∃ t, step { State.reset with host := [.deliver [⟨0x81#8, true⟩]] } = .next t ∧ t.socket.data = [0x81#8])
      ∧ (∃ t, step { State.reset with socket := ⟨[⟨0x0A#8, false⟩, ⟨0x81#8, true⟩], false⟩, host := [.drain 1] } = .next t
          ∧ t.socket.data = [0x81#8])
      ∧ (∃ t, step { State.reset with rxq := [0x81#8], socket := ⟨[⟨0x00#8, false⟩], true⟩, host := [.issue Cmd.reset] } = .next t
          ∧ t.rxq = [] ∧ t.socket = ⟨[⟨0x00#8, false⟩], false⟩)
      ∧ (∃ t, step { State.reset with rxq := [0x81#8, 0x01#8, 0x61#8, 0x8A#8], host := [.issue (lenCmd .recv 0)] } = .next t
          ∧ t.rxq = [0x8A#8]) :=
  ⟨⟨_, rfl, rfl, rfl⟩, ⟨_, rfl, rfl⟩, ⟨_, rfl, rfl⟩, ⟨_, rfl, rfl, rfl⟩, ⟨_, rfl, rfl⟩⟩

/-- `OperandsOutsideTheirTypeStop`: boundary operands of its clauses. -/
theorem witness_OperandsOutsideTheirTypeStop :
    125 < (126#7 : BitVec 7).toNat ∧ 2 ^ 63 ≤ (0x8000000000000000#64 : Word64).toNat
      ∧ 65535 < (65536#64 : Word64).toNat ∧ (65536#64 : Word64).toNat < 2 ^ 63
      ∧ ({ State.reset with hasLen64 := false } : State).hasLen64 = false
      ∧ ([0#8] : List Byte).length ≠ extn 126#7 := by decide

/-- A state with an encoded frame, a received payload and a key to draw. -/
def busyState : State :=
  { State.reset with
    tx := txRegs 5#4 0#1 ⟨0#8, 0#8, 0#8, 0#8⟩ 1
    txv := true
    txo := Memory.ofBytes [0x85#8, 0x01#8, 0x61#8]
    rx := { FieldRegs.reset with opcode := 1#4, len7 := 1#7, paylen := 1#64 }
    rxv := true
    rxp := Memory.ofBytes [0x62#8]
    socket := ⟨[⟨0x81#8, true⟩], false⟩
    host := [.push [0x81#8]] }

/-- `EveryStepKeepsTheInvariant`: a state with both valid flags set, whose step goes on. -/
theorem witness_EveryStepKeepsTheInvariant : busyState.Inv ∧ ∃ t, step busyState = .next t := by
  refine ⟨⟨⟨by decide, ?_, ?_, ?_, ?_, ?_⟩, ⟨rfl, rfl⟩, fun h => absurd rfl h, fun _ => ?_, fun _ => ?_⟩, _, rfl⟩
  · exact within_ofBytes (bs := []) (Nat.zero_le _)
  · exact within_ofBytes (bs := [0x85#8, 0x01#8, 0x61#8]) (Nat.le_trans (by decide) (Nat.le_add_right 14 _))
  · exact within_ofBytes (bs := []) (Nat.zero_le _)
  · exact within_ofBytes (bs := [0x62#8]) (small_length _ (by decide))
  · exact within_ofBytes (bs := []) (Nat.zero_le _)
  · exact ⟨rfl, rfl, small_length _ (by decide), by decide, [0x61#8], by decide, by decide⟩
  · exact ⟨small_length _ (by decide), [0x62#8], by decide, by decide⟩

end Sys2Proof.Tests
end

section
/-!
SUPPORT. What an instruction can leave, as one case analysis over the four kinds of instruction: `exec_next`. The
proofs about the flags, the frames, `ERR`, CAP, the stream and the invariant are case analyses of it.
-/

namespace Sys2Proof.Machine

/-! ### What an instruction can leave -/

/-- The instructions of the transmit side: ENCODE, and WRITE, which expands to it (30_encoding.md R122). -/
abbrev Transmits (i : Instr) : Prop := i = .encode ∨ ∃ code msg, i = .write code msg

/-- `m` is `old`, or `old` after one write below offset `n`. -/
def Memory.Rewritten (m old : Memory) (n : Nat) : Prop :=
  m = old ∨ ∃ a bs, a + bs.length ≤ n ∧ m = Memory.writeBytes old a bs

theorem Memory.Rewritten.wf {m old : Memory} {n : Nat} (h : m.Rewritten old n) (hw : Memory.wf old = true) :
    Memory.wf m = true := by
  rcases h with rfl | ⟨a, bs, -, rfl⟩
  · exact hw
  · exact wf_writeBytes a bs hw

theorem Memory.Rewritten.within {m old : Memory} {n : Nat} (h : m.Rewritten old n)
    (hw : Memory.within old n = true) : Memory.within m n = true := by
  rcases h with rfl | ⟨a, bs, hn, rfl⟩
  · exact hw
  · exact within_writeBytes hw hn

/-- A held RECV has taken no more than the longest header (10_state.md R31). -/
def State.HeldFits (s : State) : Prop :=
  ∀ taken, s.recv = some taken → taken.length ≤ Config.longestHeader

/-- What an instruction of the receive side can leave: a RECV that holds, an error, a frame that is exposed. The bounds
on the bytes taken and on RXI need a bound on what the RECV had taken before. -/
inductive ReceiveOutcome (s : State) : State → Prop
  | holds (u q : List Byte) (begun : u.length ≠ 1) (fits : s.HeldFits → u.length ≤ Config.longestHeader) :
    ReceiveOutcome s (holdReceive u q (startReceive s))
  | raises (e : ErrorCode) (q : List Byte) (m : Memory) (code : e ≠ .none)
    (placed : s.HeldFits → m.Rewritten s.rxi (Config.longestHeader + Config.maxPayload)) :
    ReceiveOutcome s (raise e { startReceive s with rxq := q, rxi := m })
  | exposes (f : DecodedFrame) (q : List Byte) (m : Memory) (length : f.payload.length = f.length)
    (fits : f.length ≤ Config.maxPayload)
    (placed : s.HeldFits → m.Rewritten s.rxi (Config.longestHeader + Config.maxPayload)) :
    ReceiveOutcome s (exposeFrame f { startReceive s with rxq := q, rxi := m })

/-- What ENCODE and WRITE can leave: a frame in TXO; WRITE has placed its payload in TXP and its command in CMD. -/
inductive TransmitOutcome (s : State) : State → Prop
  | emits (op : BitVec 4) (m : BitVec 1) (k : Key) (data : List Byte) (p : Memory) (c : Cmd) (ks : List Key) (d : Nat)
    (fits : data.length ≤ Config.maxPayload) (placed : p.Rewritten s.txp Config.maxPayload) :
    TransmitOutcome s (emitFrame op m k data { s with txp := p, cmd := c, keys := ks, draws := d })

/-- What XMASK and the functions can leave: another XMO, a reply, a key that is drawn. -/
inductive ComputeOutcome (s : State) : State → Prop
  | computes (x : Memory) (r : Reply) (ks : List Key) (d : Nat)
    (written : x = s.xmo ∨ ∃ bs, bs.length ≤ Config.maxPayload ∧ x = Memory.ofBytes bs) :
    ComputeOutcome s { s with xmo := x, reply := r, keys := ks, draws := d }

/-- What an instruction can leave, by its kind. -/
inductive ExecOutcome (i : Instr) (s t : State) : Prop
  | receive (kind : receives i = true) (ok : s.err = .none) (outcome : ReceiveOutcome s t)
  | transmit (kind : receives i = false) (row : Transmits i) (idle : s.Idle) (outcome : TransmitOutcome s t)
  | reset (row : i = .reset) (outcome : t = resetBlock s)
  | compute (kind : receives i = false) (noReset : i ≠ .reset) (noTransmit : ¬ Transmits i)
    (outcome : ComputeOutcome s t)

/-- The end of DECODE and RECV exposes a frame or raises. -/
theorem ReceiveOutcome.of_decodeRaw {n : Nat} {raw q : List Byte} {m : Memory} {s t : State}
    (placed : s.HeldFits → m.Rewritten s.rxi (Config.longestHeader + Config.maxPayload))
    (h : decodeRaw n raw { startReceive s with rxq := q, rxi := m } = .next t) : ReceiveOutcome s t := by
  rcases decodeRaw_next h with rfl | ⟨f, hf, rfl⟩
  · exact .raises _ q m (by decide) placed
  · obtain ⟨hlen, hfit, -⟩ := decodeFrame_frame hf
    exact .exposes f q m hlen hfit placed

/-- The framer holds, raises, or places a frame that is then decoded. -/
theorem ReceiveOutcome.of_receiveFrom {sh : Shape} {taken q : List Byte} {s t : State} (h2 : 2 ≤ taken.length)
    (fits : s.HeldFits → taken.length ≤ Config.longestHeader)
    (h : receiveFrom sh taken { startReceive s with rxq := q } = .next t) : ReceiveOutcome s t := by
  rcases receiveFrom_next h with ⟨u, r, rfl, hle, hmax⟩ | ⟨e, r, he, rfl⟩ | ⟨raw, r, hraw, hend⟩
  · refine .holds u r (by omega) fun hf => ?_
    have := fits hf
    simp only [Config.longestHeader] at this ⊢
    omega
  · exact .raises e r s.rxi he fun _ => .inl rfl
  · have placed : s.HeldFits → Memory.Rewritten (Memory.writeBytes s.rxi 0 raw) s.rxi
        (Config.longestHeader + Config.maxPayload) := fun hf => by
      have := fits hf
      refine .inr ⟨0, raw, ?_, rfl⟩
      simp only [Config.longestHeader] at this ⊢
      omega
    rcases hend with rfl | ⟨f, hf, rfl⟩
    · exact .raises _ r _ (by decide) placed
    · obtain ⟨hlen, hfit, -⟩ := decodeFrame_frame hf
      exact .exposes f r _ hlen hfit placed

theorem receives_exec_outcome {i : Instr} {s t : State} (hr : receives i = true) (h : exec i s = .next t) :
    s.err = .none ∧ ReceiveOutcome s t := by
  obtain ⟨herr, ⟨sh, taken, q, -, htaken, h2, hf⟩ | rfl | ⟨-, n, -, hd⟩⟩ := receives_exec_next hr h
  · refine ⟨herr, .of_receiveFrom h2 (fun hfits => ?_) hf⟩
    rcases htaken with hl | hrecv
    · rw [hl]; decide
    · exact hfits _ hrecv
  · exact ⟨herr, .holds [] s.rxq (by decide) fun _ => by decide⟩
  · exact ⟨herr, .of_decodeRaw (q := s.rxq) (m := s.rxi) (fun _ => .inl rfl) hd⟩

/-- A key draw touches only the key source. -/
theorem encodeKey_state (m : BitVec 1) (s : State) : ∃ ks d, (encodeKey m s).2 = { s with keys := ks, draws := d } := by
  unfold encodeKey keyDraw
  split
  · split
    · exact ⟨_, s.draws, rfl⟩
    · exact ⟨s.keys, _, rfl⟩
  · exact ⟨s.keys, s.draws, rfl⟩

theorem transmits_exec_outcome {i : Instr} {s t : State} (hi : Transmits i) (h : exec i s = .next t) :
    s.Idle ∧ TransmitOutcome s t := by
  rcases hi with rfl | ⟨code, msg, rfl⟩
  · obtain ⟨hidle, hlen, data, hd, rfl⟩ := exec_encode_next h
    obtain ⟨ks, d, hk⟩ := encodeKey_state s.cmd.useMask s
    rw [hk]
    exact ⟨hidle, .emits _ _ _ data s.txp s.cmd ks d ((readBytes_eq_some hd).1 ▸ hlen) (.inl rfl)⟩
  · obtain ⟨hidle, hlen, data, rfl, hd⟩ := exec_write_next h
    obtain ⟨ks, d, hk⟩ := encodeKey_state 1#1 (writeSetup code msg s)
    rw [hk]
    exact ⟨hidle, .emits _ _ _ data _ _ ks d (hd ▸ hlen) (.inr ⟨0, writePayload code msg, by omega, rfl⟩)⟩

theorem computes_exec_outcome {i : Instr} {s t : State} (hr : receives i = false) (hreset : i ≠ .reset)
    (htx : ¬ Transmits i) (h : exec i s = .next t) : ComputeOutcome s t := by
  rcases transmits_or_computes_next hr h with ⟨hi, -⟩ | ⟨r, rfl⟩ | ⟨-, rfl⟩ | hi | ⟨-, -, bs, hbs, rfl⟩
  · exact absurd hi hreset
  · exact .computes s.xmo r s.keys s.draws (.inl rfl)
  · obtain ⟨ks, d, hk⟩ := encodeKey_state 1#1 s
    rw [show (keyDraw s).2 = _ from hk]
    exact .computes s.xmo _ ks d (.inl rfl)
  · exact absurd hi htx
  · exact .computes _ s.reply s.keys s.draws (.inr ⟨bs, hbs, rfl⟩)

/-- Everything an instruction can leave. -/
theorem exec_next {i : Instr} {s t : State} (h : exec i s = .next t) : ExecOutcome i s t := by
  by_cases hr : receives i = true
  · obtain ⟨herr, ho⟩ := receives_exec_outcome hr h
    exact .receive hr herr ho
  rw [Bool.not_eq_true] at hr
  by_cases hreset : i = .reset
  · subst hreset; cases h; exact .reset rfl rfl
  by_cases htx : Transmits i
  · obtain ⟨hidle, ho⟩ := transmits_exec_outcome htx h
    exact .transmit hr htx hidle ho
  · exact .compute hr hreset htx (computes_exec_outcome hr hreset htx h)

/-! ### What each kind of instruction leaves unchanged -/

theorem ReceiveOutcome.sameOutsideReceive {s t : State} (h : ReceiveOutcome s t) : s.SameOutsideReceive t := by
  cases h <;> simp [State.SameOutsideReceive, Memory.Same]

theorem TransmitOutcome.sameOutsideTransmit {s t : State} (h : TransmitOutcome s t) : s.SameOutsideTransmit t := by
  cases h; simp [State.SameOutsideTransmit, Memory.Same]

/-- A receive leaves `RXV = 1` exactly where it exposes a frame. -/
theorem ReceiveOutcome.rxv_iff {s t : State} (h : ReceiveOutcome s t) (herr : s.err = .none) :
    t.rxv = true ↔ t.err = .none ∧ t.recv = none := by
  cases h with
  | holds => simp
  | raises e q m code => simp [code]
  | exposes => simp [herr]

end Sys2Proof.Machine
end

section
/-!
PROOFS. The invariant of the machine: it holds at reset, and every step that goes on keeps it.
-/

namespace Sys2Proof.Machine

/-- A length within the capacity is the value of its 64-bit register. -/
theorem toNat_ofNat_of_le_maxPayload {n : Nat} (h : n ≤ Config.maxPayload) : (BitVec.ofNat 64 n).toNat = n := by
  have := maxPayload_le
  rw [BitVec.toNat_ofNat, Nat.mod_eq_of_lt (by omega)]

theorem cursorsOk_of_recv_none {s : State} (h : s.recv = none) : s.CursorsOk ↔ s.txPos = 0#64 ∧ s.rxPos = 0#64 := by
  simp [State.CursorsOk, h]

theorem cursorsOk_of_recv_some {s : State} {taken : List Byte} (h : s.recv = some taken) : s.CursorsOk ↔
    s.txPos = 0#64 ∧ s.rxPos = BitVec.ofNat 64 taken.length ∧ taken.length ≠ 1 ∧ taken.length ≤ Config.longestHeader
      ∧ s.rxv = false ∧ s.err = .none := by
  simp [State.CursorsOk, h]

theorem State.CursorsOk.heldFits {s : State} (h : s.CursorsOk) : s.HeldFits := by
  intro taken ht
  obtain ⟨-, -, -, hfits, -⟩ := (cursorsOk_of_recv_some ht).mp h
  exact hfits

/-- A frame of a payload within the capacity lies in TXO's space (41_length_field.md R143: the header is at most 14). -/
theorem within_frameBytes (op : BitVec 4) (m : BitVec 1) (k : Key) {data : List Byte}
    (h : data.length ≤ Config.maxPayload) :
    Memory.within (Memory.ofBytes (frameBytes op m k data)) (Config.longestHeader + Config.maxPayload) = true := by
  apply within_ofBytes
  have := poff_le m (lsel data.length).1
  rw [frameBytes_length, Config.longestHeader]
  omega

theorem reset_inv : State.reset.Inv := by
  refine ⟨⟨reset_buffers_wf, ?_⟩, ⟨rfl, rfl⟩, fun _ => rfl, ?_, ?_⟩
  · exact ⟨rfl, rfl, rfl, rfl, rfl⟩
  · exact fun h => absurd h (by decide)
  · exact fun h => absurd h (by decide)

/-- The buffers after the receive side wrote RXI and RXP. -/
theorem State.BuffersOk.receive {s : State} (h : s.BuffersOk) {q : List Byte} {rxi rxp : Memory}
    (hi : rxi.Rewritten s.rxi (Config.longestHeader + Config.maxPayload))
    (hp : Memory.wf rxp = true ∧ Memory.within rxp Config.maxPayload = true) :
    ({ s with rxq := q, rxi := rxi, rxp := rxp } : State).BuffersOk := by
  obtain ⟨⟨wtxp, wtxo, wrxi, -, wxmo⟩, itxp, itxo, irxi, -, ixmo⟩ := h
  exact ⟨⟨wtxp, wtxo, hi.wf wrxi, hp.1, wxmo⟩, itxp, itxo, hi.within irxi, hp.2, ixmo⟩

theorem ReceiveOutcome.inv {s t : State} (h : ReceiveOutcome s t) (hs : s.Inv) (herr : s.err = .none) : t.Inv := by
  obtain ⟨hb, hc, hf, ht, hr⟩ := hs
  have hrxp : Memory.wf s.rxp = true ∧ Memory.within s.rxp Config.maxPayload = true := by
    obtain ⟨⟨-, -, -, w, -⟩, -, -, -, i, -⟩ := hb; exact ⟨w, i⟩
  cases h with
  | holds u q begun fits =>
    exact ⟨hb, ⟨hc.1, rfl, begun, fits hc.heldFits, rfl, herr⟩, fun _ => rfl, ht, fun h => absurd h (by simp)⟩
  | raises e q m code placed =>
    exact ⟨hb.receive (q := q) (placed hc.heldFits) hrxp, ⟨hc.1, rfl⟩, fun _ => rfl, ht, fun h => absurd h (by simp)⟩
  | exposes f q m length fits placed =>
    have hpay : (BitVec.ofNat 64 f.length).toNat = f.length := toNat_ofNat_of_le_maxPayload fits
    refine ⟨hb.receive (q := q) (placed hc.heldFits) ⟨wf_ofBytes _, within_ofBytes (length ▸ fits)⟩, ⟨hc.1, rfl⟩,
      fun h => absurd herr h, ht, fun _ => ⟨?_, f.payload, ?_, rfl⟩⟩
    · exact hpay.symm ▸ fits
    · exact length.trans hpay.symm

theorem TransmitOutcome.inv {s t : State} (h : TransmitOutcome s t) (hs : s.Inv) (hidle : s.Idle) : t.Inv := by
  obtain ⟨⟨⟨wtxp, -, wrxi, wrxp, wxmo⟩, itxp, -, irxi, irxp, ixmo⟩, hc, hf, -, hr⟩ := hs
  obtain ⟨herr, hrecv⟩ := hidle
  obtain ⟨-, hpos⟩ := (cursorsOk_of_recv_none hrecv).mp hc
  cases h with
  | emits op m k data p c ks d fits placed =>
    have hpay : (BitVec.ofNat 64 data.length).toNat = data.length := toNat_ofNat_of_le_maxPayload fits
    refine ⟨⟨⟨placed.wf wtxp, wf_ofBytes _, wrxi, wrxp, wxmo⟩, placed.within itxp, within_frameBytes op m k fits,
      irxi, irxp, ixmo⟩, ?_, hf, fun _ => ?_, hr⟩
    · exact (cursorsOk_of_recv_none (by simpa using hrecv)).mpr ⟨rfl, hpos⟩
    refine ⟨rfl, rfl, ?_, ?_, data, hpay.symm, rfl⟩
    · exact hpay.symm ▸ fits
    · exact congrArg (fun n => (lsel n).1) hpay.symm

theorem ComputeOutcome.inv {s t : State} (h : ComputeOutcome s t) (hs : s.Inv) : t.Inv := by
  obtain ⟨⟨⟨wtxp, wtxo, wrxi, wrxp, wxmo⟩, itxp, itxo, irxi, irxp, ixmo⟩, rest⟩ := hs
  cases h with
  | computes x r ks d written =>
    have hx : Memory.wf x = true ∧ Memory.within x Config.maxPayload = true := by
      rcases written with rfl | ⟨bs, hbs, rfl⟩
      · exact ⟨wxmo, ixmo⟩
      · exact ⟨wf_ofBytes bs, within_ofBytes hbs⟩
    exact ⟨⟨⟨wtxp, wtxo, wrxi, wrxp, hx.1⟩, itxp, itxo, irxi, irxp, hx.2⟩, rest⟩

theorem exec_inv {i : Instr} {s t : State} (hs : s.Inv) (h : exec i s = .next t) : t.Inv := by
  cases exec_next h with
  | receive _ herr outcome => exact outcome.inv hs herr
  | transmit _ _ hidle outcome => exact outcome.inv hs hidle
  | reset _ outcome => subst outcome; exact reset_inv
  | compute _ _ _ outcome => exact outcome.inv hs

/-- A host write inside the buffer's space (10_state.md R45). -/
theorem placeBytes_inv {b : InBuffer} {a : Nat} {bs : List Byte} {s : State} (hs : s.Inv)
    (h : inSpace b a bs.length = true) : (placeBytes b a bs s).Inv := by
  obtain ⟨⟨⟨wtxp, wtxo, wrxi, wrxp, wxmo⟩, itxp, itxo, irxi, irxp, ixmo⟩, rest⟩ := hs
  cases b with
  | txp =>
    have hn : a + bs.length ≤ Config.maxPayload := by simpa [inSpace, ← Bool.not_eq_true] using h
    exact ⟨⟨⟨wf_writeBytes a bs wtxp, wtxo, wrxi, wrxp, wxmo⟩, within_writeBytes itxp hn, itxo, irxi, irxp, ixmo⟩, rest⟩
  | rxi =>
    have hn : a + bs.length ≤ Config.longestHeader + Config.maxPayload := by
      simpa [inSpace, ← Bool.not_eq_true] using h
    exact ⟨⟨⟨wtxp, wtxo, wf_writeBytes a bs wrxi, wrxp, wxmo⟩, itxp, itxo, within_writeBytes irxi hn, irxp, ixmo⟩, rest⟩

/-- Settles O57: by the cases of a step; the fields it changes outside an instruction and a host write are none of the
invariant's. -/
theorem everyStepKeepsTheInvariant : Obligations.EveryStepKeepsTheInvariant := by
  intro s t hs h
  rcases step_next h with ⟨i, s', hfetch, he⟩ | ⟨-, rfl⟩ | ⟨a, rest, -, hturn⟩
  · obtain ⟨-, -, q, -, rfl⟩ := fetch_some hfetch
    exact exec_inv (s := { s with rxq := q }) hs he
  · exact hs
  · rcases hturn with ⟨c, -, he⟩ | ⟨code, msg, -, he⟩ | ⟨b, o, bs, -, -, hin, rfl⟩ | ⟨k, -, rfl⟩ | ⟨bs, k, -, -, -, -, rfl⟩
      | ⟨ks, rfl⟩ | ⟨r, rfl⟩
    · exact exec_inv (s := { s with host := rest, cmd := c }) hs he
    · exact exec_inv (s := { s with host := rest }) hs he
    · exact placeBytes_inv (s := { s with host := rest }) hs hin
    all_goals exact hs

/-- Settles O56: the buffers are empty, the cursors 0, the flags clear. -/
theorem resetMeetsTheInvariant : Obligations.ResetMeetsTheInvariant :=
  reset_inv

end Sys2Proof.Machine
end

section
/-!
PROOFS. The frames of the two sides, the valid flags, `ERR` and CAP, over instructions and over steps.
-/

namespace Sys2Proof.Machine

theorem Transmits.ne_reset {i : Instr} (h : Transmits i) : i ≠ .reset := by
  rcases h with rfl | ⟨code, msg, rfl⟩ <;> simp

/-- Settles O43. -/
theorem receiveSideLeavesTheRest : Obligations.ReceiveSideLeavesTheRest :=
  fun _ _ _ hr h => (receives_exec_outcome hr h).2.sameOutsideReceive

/-- Settles O45. -/
theorem transmitSideLeavesTheRest : Obligations.TransmitSideLeavesTheRest :=
  fun _ _ _ hi h => (transmits_exec_outcome hi h).2.sameOutsideTransmit

/-- Settles O44: by the kind of the instruction. -/
theorem validFlags : Obligations.ValidFlags := by
  intro i s t h
  cases exec_next h with
  | receive kind ok outcome =>
    obtain ⟨-, -, htxv, -⟩ := outcome.sameOutsideReceive
    rw [if_pos kind]
    exact ⟨htxv, outcome.rxv_iff ok⟩
  | transmit kind row _ outcome =>
    rw [kind, if_neg Bool.false_ne_true, if_neg row.ne_reset]
    cases outcome
    exact ⟨rfl, fun _ => rfl, fun hn => absurd row hn⟩
  | reset row outcome =>
    subst row outcome
    exact ⟨rfl, rfl⟩
  | compute kind noReset noTransmit outcome =>
    rw [kind, if_neg Bool.false_ne_true, if_neg noReset]
    cases outcome
    exact ⟨rfl, fun hi => absurd hi noTransmit, fun _ => rfl⟩

/-! ### ERR -/

/-- A receive that changes `ERR` ended in raise. -/
theorem ReceiveOutcome.raised {s t : State} (h : ReceiveOutcome s t) (hne : t.err ≠ s.err) : t.Raised t.err := by
  cases h with
  | holds => exact absurd rfl hne
  | raises => exact ⟨rfl, rfl, rfl, rfl⟩
  | exposes => exact absurd rfl hne

/-- `ERR` changes only by RESET and by a receive that raises (10_state.md R36). -/
theorem exec_err_changed {i : Instr} {s t : State} (h : exec i s = .next t) (hne : t.err ≠ s.err) :
    (i = .reset ∧ t.err = .none) ∨ (receives i = true ∧ s.err = .none ∧ t.Raised t.err ∧ s.SameOutsideReceive t) := by
  cases exec_next h with
  | receive kind ok outcome => exact .inr ⟨kind, ok, outcome.raised hne, outcome.sameOutsideReceive⟩
  | transmit _ _ _ outcome => cases outcome; exact absurd rfl hne
  | reset row outcome => exact .inl ⟨row, outcome ▸ rfl⟩
  | compute _ _ _ outcome => cases outcome; exact absurd rfl hne

theorem admission_of_err {s : State} (h : s.err ≠ .none) : admission s = some .faulted := by
  simp [admission, faulted, h]

theorem runFrame_of_err {s : State} (h : s.err ≠ .none) (sh : Shape) (b0 b1 : Byte) :
    runFrame sh b0 b1 s = .refused .faulted := by
  simp [runFrame, faulted, h]

theorem execL7u_of_err {s : State} (h : s.err ≠ .none) {b0 : Byte} {len7 : BitVec 7} (hl : len7.toNat ≤ 125) :
    execL7u b0 len7 s = .refused .faulted := by
  rw [execL7u, if_pos hl]; exact runFrame_of_err h ..

theorem execL7m_of_err {s : State} (h : s.err ≠ .none) {b0 : Byte} {len7 : BitVec 7} (hl : len7.toNat ≤ 125) :
    execL7m b0 len7 s = .refused .faulted := by
  rw [execL7m, if_pos hl]; exact runFrame_of_err h ..

/-- The receive side in a faulted block: every row goes to `runFrame`, but for the two operations. -/
theorem receives_exec_of_err {i : Instr} {s : State} (h : s.err ≠ .none) (hw : i.wellFormed = true)
    (hr : receives i = true) : exec i s = .refused .faulted := by
  cases i
  case decode => simp only [exec, execDecode, admission_of_err h]
  case recv => simp only [exec, execRecv, admission_of_err h]
  case l7u => exact execL7u_of_err h (of_decide_eq_true hw)
  case l7m => exact execL7m_of_err h (of_decide_eq_true hw)
  case encode | xmask | reset | hpack | hunpack | lsel | extn | lext | poff | keygen | write => cases hr
  all_goals exact runFrame_of_err h ..

/-- Settles O58. -/
theorem faultedRefusesFrameRowsAndOperations : Obligations.FaultedRefusesFrameRowsAndOperations := by
  rintro i s h hw (hr | rfl | rfl | ⟨code, msg, rfl⟩)
  · exact receives_exec_of_err h hw hr
  · simp only [exec, execEncode, admission_of_err h]
  · simp only [exec, execXmask, admission_of_err h]
  · simp only [exec, execWrite, admission_of_err h]

/-- Settles O50. -/
theorem errorIsSticky : Obligations.ErrorIsSticky := by
  refine ⟨fun i s t h hne => exec_err_changed h hne, fun s => ⟨resetBlock s, rfl, rfl⟩, fun s h => ?_⟩
  have refuses : ∀ i, i.wellFormed = true → refusedWhenFaulted i → exec i s = .refused .faulted :=
    fun i => faultedRefusesFrameRowsAndOperations i s h
  exact ⟨refuses _ rfl (.inr (.inl rfl)), refuses _ rfl (.inl rfl), refuses _ rfl (.inl rfl),
    refuses _ rfl (.inr (.inr (.inl rfl))), fun code msg => refuses _ rfl (.inr (.inr (.inr ⟨code, msg, rfl⟩)))⟩

/-- In a faulted block only RESET changes `ERR`, and it clears it. -/
theorem exec_of_err {i : Instr} {s t : State} (hs : s.err ≠ .none) (h : exec i s = .next t) :
    t.err = s.err ∨ (i = .reset ∧ t.err = .none) := by
  by_cases hne : t.err = s.err
  · exact .inl hne
  · rcases exec_err_changed h hne with hreset | ⟨-, hok, -⟩
    · exact .inr hreset
    · exact absurd hok hs

theorem commandInstr_eq_reset {k : CmdKind} (h : commandInstr k = .reset) : k = .reset := by
  cases k with
  | reset => rfl
  | _ => cases h

/-- Settles O51: by the cases of a step. -/
theorem errorStaysUntilReset : Obligations.ErrorStaysUntilReset := by
  intro s t hs h
  rcases step_next h with ⟨i, s', hfetch, he⟩ | ⟨-, rfl⟩ | ⟨a, rest, hhost, hturn⟩
  · obtain ⟨-, hr, q, -, rfl⟩ := fetch_some hfetch
    exact absurd (receives_exec_outcome hr he).1 hs
  · exact .inl rfl
  · rcases hturn with ⟨c, rfl, he⟩ | ⟨code, msg, -, he⟩ | ⟨b, o, bs, -, -, -, rfl⟩ | ⟨k, -, rfl⟩
      | ⟨bs, k, -, -, -, -, rfl⟩ | ⟨ks, rfl⟩ | ⟨r, rfl⟩
    · exact (exec_of_err (s := { s with host := rest, cmd := c }) hs he).imp id fun ⟨hi, ht⟩ =>
        ⟨ht, c, rest, hhost, commandInstr_eq_reset hi⟩
    · rcases exec_of_err (s := { s with host := rest }) hs he with ht | ⟨hi, -⟩
      · exact .inl ht
      · cases hi
    · exact .inl (placeBytes_err ..)
    all_goals exact .inl rfl

/-! ### CAP -/

theorem exec_hasLen64 {i : Instr} {s t : State} (h : exec i s = .next t) : t.hasLen64 = s.hasLen64 := by
  cases exec_next h with
  | receive _ _ outcome => cases outcome <;> rfl
  | transmit _ _ _ outcome => cases outcome; rfl
  | reset _ outcome => subst outcome; rfl
  | compute _ _ _ outcome => cases outcome; rfl

theorem step_hasLen64 {s t : State} (h : step s = .next t) : t.hasLen64 = s.hasLen64 := by
  rcases step_next h with ⟨i, s', hfetch, he⟩ | ⟨-, rfl⟩ | ⟨a, rest, -, hturn⟩
  · obtain ⟨-, -, q, -, rfl⟩ := fetch_some hfetch
    exact (exec_hasLen64 he :)
  · rfl
  · rcases hturn with ⟨c, -, he⟩ | ⟨code, msg, -, he⟩ | ⟨b, o, bs, -, -, -, rfl⟩ | ⟨k, -, rfl⟩
      | ⟨bs, k, -, -, -, -, rfl⟩ | ⟨ks, rfl⟩ | ⟨r, rfl⟩
    · exact (exec_hasLen64 he :)
    · exact (exec_hasLen64 he :)
    · exact placeBytes_hasLen64 ..
    all_goals rfl

/-- A RECV that needs the 64-bit extension without `HAS_LEN64` raises after the base header (10_state.md R43). -/
theorem exec_recv_unsupported {s : State} (hi : s.Idle) (hq : 2 ≤ s.rxq.length) (h64 : s.hasLen64 = false)
    (hl : (headerOf s.rxq).len7 = 127#7) :
    exec .recv s = .next (raise .unsupportedPlatform { startReceive s with rxq := s.rxq.drop 2 }) := by
  have h8 : extn (headerOf s.rxq).len7 = 8 := by rw [hl]; rfl
  rw [execRecv_long hi hq, framer_split _ _ 2 (le_refl 2) hq, if_pos ⟨h8, h64⟩]

/-- Settles O52. -/
theorem capabilityIsHardwired : Obligations.CapabilityIsHardwired := by
  refine ⟨rfl, fun s t h => step_hasLen64 h, fun s b0 b1 q hi h64 hl hq => ?_⟩
  have hhead : headerOf s.rxq = hunpack b0 b1 := by rw [hq]; rfl
  exact ⟨_, exec_recv_unsupported hi (by simp [hq]) h64 (hhead ▸ hl), rfl, rfl, rfl, rfl⟩

end Sys2Proof.Machine
end

section
/-!
PROOFS. Steps of the host with no RECV in progress, and the state after power-up.
-/

namespace Sys2Proof.Machine

/-- With no RECV in progress nothing is fetched: the step is the host's turn. -/
theorem step_of_recv_none {s : State} (h : s.recv = none) : step s = hostStep s := by
  have hfetch : fetch s = none := by simp only [fetch, h]
  simp only [step, hfetch]

/-- An interaction that comes to an instruction runs it. -/
theorem step_of_run {s s' : State} {a : HostAction} {rest : List HostAction} {i : Instr} (hr : s.recv = none)
    (hh : s.host = a :: rest) (ht : hostTurn a { s with host := rest } = .run i s') : step s = exec i s' := by
  rw [step_of_recv_none hr]
  simp only [hostStep, hh, ht]

/-- An interaction that is no instruction is the step. -/
theorem step_of_done {s : State} {a : HostAction} {rest : List HostAction} {o : Host.Outcome State Fault Refusal}
    (hr : s.recv = none) (hh : s.host = a :: rest) (ht : hostTurn a { s with host := rest } = .done o) : step s = o := by
  rw [step_of_recv_none hr]
  simp only [hostStep, hh, ht]

/-- An issued command is written to CMD and the operation of its KIND runs (10_state.md R41). -/
theorem step_of_issue {s : State} {c : Cmd} {rest : List HostAction} (hr : s.recv = none)
    (hh : s.host = .issue c :: rest) {k : CmdKind} (hk : c.kind = k) :
    step s = exec (commandInstr k) { s with host := rest, cmd := c } :=
  hk ▸ step_of_run hr hh rfl

/-- Settles O9. -/
theorem stepRunsTheHostsInstruction : Obligations.StepRunsTheHostsInstruction := by
  intro s rest hr
  refine ⟨fun c hh => ⟨step_of_issue hr hh, step_of_issue hr hh, step_of_issue hr hh, step_of_issue hr hh,
    step_of_issue hr hh⟩, fun code msg hh => step_of_run hr hh rfl, fun hh => ?_⟩
  rw [step_of_recv_none hr]
  simp only [hostStep, hh]

/-! ### Reads -/

theorem readField_of_value {s : State} {side : Side} {f : Field}
    (h : validFlag s side = true ∧ (f = .key → (sideRegs s side).mask = 1#1)) :
    readField s side f = some (fieldValue (sideRegs s side) f) := by
  obtain ⟨hv, hk⟩ := h
  rw [readField, if_neg (by simp [hv]), if_neg (fun hc => hc.2 (hk hc.1))]

theorem readField_of_no_value {s : State} {side : Side} {f : Field}
    (h : ¬ (validFlag s side = true ∧ (f = .key → (sideRegs s side).mask = 1#1))) : readField s side f = none := by
  unfold readField
  by_cases hv : validFlag s side = false
  · exact if_pos hv
  · rw [if_neg hv, if_pos]
    rw [Bool.not_eq_false] at hv
    by_contra hc
    exact h ⟨hv, fun hf => not_not.mp fun hm => hc ⟨hf, hm⟩⟩

/-- A read of a field register with no RECV in progress answers what `readField` gives. -/
theorem step_of_readField {s : State} {rest : List HostAction} {side : Side} {f : Field} (hr : s.recv = none)
    (hh : s.host = .readField side f :: rest) {o : Host.Outcome State Fault Refusal}
    (ht : replyOrNoValue (readField { s with host := rest } side f) { s with host := rest } = .done o) : step s = o :=
  step_of_done hr hh ((if_neg (by simp [hr])).trans ht)

/-- A read of buffer bytes with no RECV in progress answers what `readBuffer` gives. -/
theorem step_of_readBytes {s : State} {rest : List HostAction} {b : OutBuffer} {a n : Nat} (hr : s.recv = none)
    (hh : s.host = .readBytes b a n :: rest) {o : Host.Outcome State Fault Refusal}
    (ht : replyOrNoValue (readBuffer { s with host := rest } b a n) { s with host := rest } = .done o) : step s = o :=
  step_of_done hr hh ((if_neg (by simp [hr])).trans ht)

/-- A buffer that may not be read now has no value, whatever the offset and the count. -/
theorem readBuffer_of_unreadable {s : State} {b : OutBuffer} (h : readableBuffer s b = none) (a n : Nat) :
    readBuffer s b a n = none := by
  simp [readBuffer, h]

theorem readBuffer_of_readable {s : State} {b : OutBuffer} {m : Memory} (h : readableBuffer s b = some m) (a n : Nat) :
    readBuffer s b a n = (Memory.readBytes m a n).map .bytes := by
  simp [readBuffer, h]

/-- Settles O53. -/
theorem hostReads : Obligations.HostReads := by
  intro s rest hr
  refine ⟨fun hh => step_of_done hr hh rfl, fun hh => step_of_done hr hh rfl, fun side f hh => ?_,
    fun b a n hh => ⟨?_, ?_, fun m hm => ?_⟩⟩
  · have same : readField { s with host := rest } side f = readField s side f := by cases side <;> rfl
    split
    case isTrue hv => exact step_of_readField hr hh (by rw [same, readField_of_value hv]; rfl)
    case isFalse hv => exact step_of_readField hr hh (by rw [same, readField_of_no_value hv]; rfl)
  · rintro rfl hv
    exact step_of_readBytes hr hh (by rw [readBuffer_of_unreadable (by simp [readableBuffer, hv])]; rfl)
  · rintro rfl hv
    exact step_of_readBytes hr hh (by rw [readBuffer_of_unreadable (by simp [readableBuffer, hv])]; rfl)
  · have readable : readableBuffer { s with host := rest } b = some m := by
      rcases hm with ⟨rfl, hv, rfl⟩ | ⟨rfl, hv, rfl⟩ | ⟨rfl, rfl⟩
      · exact if_pos hv
      · exact if_pos hv
      · rfl
    split
    case h_1 bs hbs => exact step_of_readBytes hr hh (by rw [readBuffer_of_readable readable, hbs]; rfl)
    case h_2 hbs => exact step_of_readBytes hr hh (by rw [readBuffer_of_readable readable, hbs]; rfl)

/-! ### Power-up -/

theorem holds_nil : Memory.Holds [] [] := fun _ => rfl

/-- Settles O49: a register cannot be read, since both valid flags are 0. -/
theorem resetStateValues : Obligations.ResetStateValues := by
  have unreadable : ∀ side f, readField State.reset side f = none := by
    intro side f
    cases side <;> exact if_pos rfl
  exact ⟨rfl, rfl, rfl, rfl, rfl, rfl, rfl, rfl, unreadable, holds_nil, holds_nil, holds_nil, holds_nil, holds_nil⟩

end Sys2Proof.Machine
end

section
/-!
PROOFS. The stream: where the bytes of RXQ come from, over every step (10_state.md R46, 70_reset_and_hazards.md R252).
-/

namespace Sys2Proof.Machine

/-- DECODE reads RXI and leaves the stream as it is. -/
theorem exec_decode_stream {s t : State} (h : exec .decode s = .next t) : t.rxq = s.rxq ∧ t.socket = s.socket := by
  obtain ⟨-, -, hd⟩ := exec_decode_next h
  rcases decodeRaw_next hd with rfl | ⟨f, -, rfl⟩ <;> exact ⟨rfl, rfl⟩

/-- Outside the receive side only RESET touches the stream. -/
theorem exec_stream_of_not_receives {i : Instr} {s t : State} (hr : receives i = false) (hreset : i ≠ .reset)
    (h : exec i s = .next t) : t.rxq = s.rxq ∧ t.socket = s.socket := by
  cases exec_next h with
  | receive kind => rw [hr] at kind; cases kind
  | transmit _ _ _ outcome => cases outcome; exact ⟨rfl, rfl⟩
  | reset row => exact absurd row hreset
  | compute _ _ _ outcome => cases outcome; exact ⟨rfl, rfl⟩

/-- Of the operations only RECV takes bytes of RXQ, and only RESET does anything else to the stream. -/
theorem command_stream {k : CmdKind} {s t : State} (h : exec (commandInstr k) s = .next t) :
    (k = .reset ∧ t = resetBlock s) ∨ (t.rxq <:+ s.rxq ∧ t.socket = s.socket ∧ (t.rxq ≠ s.rxq → k = .recv)) := by
  have unchanged (hst : t.rxq = s.rxq ∧ t.socket = s.socket) :
      t.rxq <:+ s.rxq ∧ t.socket = s.socket ∧ (t.rxq ≠ s.rxq → k = .recv) :=
    ⟨hst.1 ▸ List.suffix_refl _, hst.2, fun hne => absurd hst.1 hne⟩
  cases k with
  | encode => exact .inr (unchanged (exec_stream_of_not_receives rfl (by simp [commandInstr]) h))
  | decode => exact .inr (unchanged (exec_decode_stream h))
  | recv =>
    obtain ⟨hq, hk⟩ := receives_exec_suffix rfl h
    exact .inr ⟨hq, hk, fun _ => rfl⟩
  | xmask => exact .inr (unchanged (exec_stream_of_not_receives rfl (by simp [commandInstr]) h))
  | reset => cases h; exact .inl ⟨rfl, rfl⟩

/-- The host's next interaction is a command of this kind. -/
def State.Issues (s : State) (k : CmdKind) : Prop :=
  ∃ c rest, s.host = .issue c :: rest ∧ c.kind = k

/-- How the stream may move in a step: a RECV takes bytes at its head, the socket delivers, the host drops bytes before
the stream has begun, RESET empties RXQ. -/
def StreamMoves (s t : State) : Prop :=
  (∃ taken, s.rxq ++ s.socket.data = taken ++ (t.rxq ++ t.socket.data)
      ∧ (taken ≠ [] → s.recv ≠ none ∨ s.Issues .recv))
  ∨ (∃ bs rest, s.host = .deliver bs :: rest ∧ t.rxq = s.rxq ∧ t.socket.bytes = s.socket.bytes ++ bs)
  ∨ (s.socket.begun = false ∧ ∃ n rest, s.host = .drain n :: rest ∧ t.rxq = s.rxq
    ∧ t.socket.bytes = s.socket.bytes.drop n)
  ∨ (t.rxq = [] ∧ t.socket.bytes = s.socket.bytes ∧ t.socket.begun = false ∧ s.Issues .reset)

/-- A stream begins with byte 0 of a frame, and only RESET ends it. -/
def StreamBegins (s t : State) : Prop :=
  (s.socket.begun = false → t.socket.begun = true → ∃ b, s.socket.bytes.head? = some b ∧ b.first = true)
  ∧ (s.socket.begun = true → t.socket.begun = false → s.Issues .reset)

theorem StreamBegins.of_begun {s t : State} (h : t.socket.begun = s.socket.begun) : StreamBegins s t := by
  constructor
  · intro hs ht; rw [h, hs] at ht; cases ht
  · intro hs ht; rw [h, hs] at ht; cases ht

theorem StreamMoves.of_suffix {s t : State} (hq : t.rxq <:+ s.rxq) (hk : t.socket = s.socket)
    (htakes : t.rxq ≠ s.rxq → s.recv ≠ none ∨ s.Issues .recv) : StreamMoves s t := by
  obtain ⟨taken, htaken⟩ := hq
  refine .inl ⟨taken, by rw [hk, ← htaken, List.append_assoc], fun hne => htakes fun heq => hne ?_⟩
  rw [← heq] at htaken
  exact List.append_left_eq_self.mp htaken

theorem stream_of_unchanged {s t : State} (hq : t.rxq = s.rxq) (hk : t.socket = s.socket) :
    StreamMoves s t ∧ StreamBegins s t :=
  ⟨.of_suffix (hq ▸ List.suffix_refl _) hk fun hne => absurd hq hne, .of_begun (hk ▸ rfl)⟩

/-- A delivery or a drain moves the socket's bytes and neither begins nor ends the stream. -/
theorem stream_of_socketMoves {s t : State} {a : HostAction} {rest : List HostAction} (hh : s.host = a :: rest)
    (hm : SocketMoves s a t.socket) (hq : t.rxq = s.rxq) : StreamMoves s t ∧ StreamBegins s t := by
  rcases hm with ⟨bs, rfl, hk⟩ | ⟨n, rfl, hb, hk⟩
  · exact ⟨.inr (.inl ⟨bs, rest, hh, hq, hk ▸ rfl⟩), .of_begun (hk ▸ rfl)⟩
  · exact ⟨.inr (.inr (.inl ⟨hb, n, rest, hh, hq, hk ▸ rfl⟩)), .of_begun (hk ▸ rfl)⟩

/-- An issued operation: RECV takes bytes at the head, RESET empties RXQ, the others leave the stream. -/
theorem stream_of_issue {s t : State} {c : Cmd} {rest : List HostAction} (hh : s.host = .issue c :: rest)
    (he : exec (commandInstr c.kind) { s with host := rest, cmd := c } = .next t) :
    StreamMoves s t ∧ StreamBegins s t := by
  rcases command_stream he with ⟨hk, rfl⟩ | ⟨hq, hsock, htakes⟩
  · have hissue : s.Issues .reset := ⟨c, rest, hh, hk⟩
    refine ⟨.inr (.inr (.inr ⟨rfl, rfl, rfl, hissue⟩)), fun _ hb => ?_, fun _ _ => hissue⟩
    cases hb
  · exact ⟨.of_suffix hq hsock fun hne => .inr ⟨c, rest, hh, htakes hne⟩, .of_begun (congrArg Socket.begun hsock)⟩

theorem step_stream {s t : State} (h : step s = .next t) : StreamMoves s t ∧ StreamBegins s t := by
  rcases step_next h with ⟨i, s', hfetch, he⟩ | ⟨-, rfl⟩ | ⟨a, rest, hhost, hturn⟩
  · obtain ⟨⟨taken, hrecv⟩, hr, q, hq, rfl⟩ := fetch_some hfetch
    obtain ⟨ht, hk⟩ := receives_exec_suffix hr he
    exact ⟨.of_suffix (ht.trans hq) hk fun _ => .inl (by simp [hrecv]), .of_begun (congrArg Socket.begun hk)⟩
  · exact stream_of_unchanged rfl rfl
  · rcases hturn with ⟨c, rfl, he⟩ | ⟨code, msg, -, he⟩ | ⟨b, o, bs, -, -, -, rfl⟩ | ⟨k, hm, rfl⟩
      | ⟨bs, k, -, hdata, hkeep, hbegin, rfl⟩ | ⟨ks, rfl⟩ | ⟨r, rfl⟩
    · exact stream_of_issue hhost he
    · obtain ⟨hq, hk⟩ := transmits_exec_stream (.inr ⟨code, msg, rfl⟩) he
      exact stream_of_unchanged hq hk
    · exact stream_of_unchanged (placeBytes_rxq ..) (placeBytes_socket ..)
    · exact stream_of_socketMoves hhost hm rfl
    · refine ⟨.inl ⟨[], by simp [hdata], fun hne => absurd rfl hne⟩, hbegin, fun hs hk => ?_⟩
      rw [show k.begun = true from hkeep hs] at hk; cases hk
    · exact stream_of_unchanged rfl rfl
    · exact stream_of_unchanged rfl rfl

/-- Settles O59. -/
theorem streamBytesComeFromTheSocket : Obligations.StreamBytesComeFromTheSocket :=
  fun _ _ h => step_stream h

end Sys2Proof.Machine
end

section
/-!
PROOFS. The host's writes, with no RECV in progress and while one holds (10_state.md R46, R48; 20_memory.md R66, R70,
R74; 70_reset_and_hazards.md R252, R260). A step that fetches nothing is the host's turn in both cases, so the rules of
the interactions that do not look at the RECV are stated once, over `fetch s = none`.
-/

namespace Sys2Proof.Machine

/-! ### Steps that fetch nothing -/

theorem fetch_of_recv_none {s : State} (h : s.recv = none) : fetch s = none := by
  simp only [fetch, h]

/-- A RECV holds while the group it waits for is not in RXQ. -/
theorem fetch_of_not_canResume {s : State} {taken : List Byte} (h : s.recv = some taken)
    (hc : canResume taken s.rxq = false) : fetch s = none := by
  simp only [fetch, h, hc, Bool.false_eq_true, if_false]

/-- Bytes do not begin a frame exactly when there is a first one and it is marked as inside a frame. -/
theorem beginsFrame_eq_false_iff (bs : List SocketByte) :
    beginsFrame bs = false ↔ bs.head?.map SocketByte.first = some false := by
  cases bs <;> simp [beginsFrame]

section
variable {s : State} {rest : List HostAction} (hf : fetch s = none)
include hf

theorem step_of_fetch_none_of_done {a : HostAction} {o : Host.Outcome State Fault Refusal}
    (hh : s.host = a :: rest) (ht : hostTurn a { s with host := rest } = .done o) : step s = o := by
  simp only [step, hf, hostStep, hh, ht]

theorem step_of_fetch_none_of_run {a : HostAction} {i : Instr} {s' : State} (hh : s.host = a :: rest)
    (ht : hostTurn a { s with host := rest } = .run i s') : step s = exec i s' := by
  simp only [step, hf, hostStep, hh, ht]

/-! ### The socket and the stream -/

theorem step_of_drain {n : Nat} (hh : s.host = .drain n :: rest) :
    if s.socket.begun = true then step s = .refused .streamNotAligned
    else step s = .next { s with host := rest, socket := { s.socket with bytes := s.socket.bytes.drop n } } := by
  have hstep : step s = drainSocket n { s with host := rest } := step_of_fetch_none_of_done hf hh rfl
  split
  case isTrue hb => exact hstep.trans (if_pos hb)
  case isFalse hb => exact hstep.trans (if_neg hb)

/-- A push goes on with the socket's next bytes, and as the first one after a reset only from byte 0 of a frame. -/
theorem step_of_push {bs : List Byte} (hh : s.host = .push bs :: rest) :
    if s.socket.data.take bs.length ≠ bs then step s = .refused .notFromSocket
    else if s.socket.begun = false ∧ (s.socket.bytes.take bs.length).head?.map SocketByte.first = some false then
      step s = .refused .streamNotAligned
    else step s = .next { s with host := rest, rxq := s.rxq ++ bs,
                                 socket := ⟨s.socket.bytes.drop bs.length, s.socket.begun || decide (bs ≠ [])⟩ } := by
  have hstep : step s = pushStream bs { s with host := rest } := step_of_fetch_none_of_done hf hh rfl
  have aligned : (s.socket.begun || beginsFrame (s.socket.bytes.take bs.length)) = true ↔
      ¬ (s.socket.begun = false ∧ (s.socket.bytes.take bs.length).head?.map SocketByte.first = some false) := by
    rw [← beginsFrame_eq_false_iff, ← Bool.or_eq_false_iff, Bool.not_eq_false]
  split
  case isTrue hforeign => exact hstep.trans (if_pos hforeign)
  case isFalse hnext =>
    split
    case isTrue hinside => exact hstep.trans ((if_neg hnext).trans (if_neg fun h => aligned.mp h hinside))
    case isFalse hbegins =>
      have hempty : (!bs.isEmpty) = decide (bs ≠ []) := by cases bs <;> rfl
      rw [hstep, pushStream, if_neg hnext, if_pos (aligned.mpr hbegins), hempty]

end

/-! ### Writes into TXP and RXI -/

theorem inSpace_txp_iff (a n : Nat) : inSpace .txp a n = true ↔ a + n ≤ Config.maxPayload := by
  simp [inSpace, ← Bool.not_eq_true]

theorem inSpace_rxi_iff (a n : Nat) : inSpace .rxi a n = true ↔ a + n ≤ 14 + Config.maxPayload := by
  simp [inSpace, ← Bool.not_eq_true]

section
variable {s : State} {b : InBuffer} {a : Nat} {bs : List Byte} {rest : List HostAction}

theorem step_of_place_in_space (hr : s.recv = none) (hh : s.host = .place b a bs :: rest)
    (hin : inSpace b a bs.length = true) : step s = .next (placeBytes b a bs { s with host := rest }) :=
  step_of_done hr hh ((if_neg (by simp [hr])).trans (if_pos hin))

theorem step_of_place_outside (hr : s.recv = none) (hh : s.host = .place b a bs :: rest)
    (hout : ¬ inSpace b a bs.length = true) : step s = .fault .noSuchOffset :=
  step_of_done hr hh ((if_neg (by simp [hr])).trans (if_neg hout))

theorem step_of_place_while_held {taken : List Byte} (hf : fetch s = none) (hr : s.recv = some taken)
    (hh : s.host = .place b a bs :: rest) : step s = .refused (placeRefusal b) :=
  step_of_fetch_none_of_done hf hh (if_pos (by simp [hr]))

end

/-- Settles O54: the stream by the rules above, and a write by what `Memory.writeBytes` reads. -/
theorem hostWrites : Obligations.HostWrites := by
  intro s rest hr
  have hf := fetch_of_recv_none hr
  refine ⟨fun bs hh => step_of_done hr hh rfl, fun n hh => step_of_drain hf hh, fun bs hh => step_of_push hf hh,
    fun k hh => step_of_done hr hh rfl, fun a bs hh => ?_, fun a bs hh => ?_⟩
  · split
    case isTrue hin =>
      exact ⟨_, step_of_place_in_space hr hh ((inSpace_txp_iff ..).mpr hin), read_writeBytes s.txp a bs⟩
    case isFalse hout => exact step_of_place_outside hr hh (mt (inSpace_txp_iff ..).mp hout)
  · split
    case isTrue hin =>
      exact ⟨_, step_of_place_in_space hr hh ((inSpace_rxi_iff ..).mpr hin), read_writeBytes s.rxi a bs⟩
    case isFalse hout => exact step_of_place_outside hr hh (mt (inSpace_rxi_iff ..).mp hout)

/-! ### While a RECV holds -/

theorem admission_of_held {s : State} {taken : List Byte} (he : s.err = .none) (hr : s.recv = some taken) :
    admission s = some .busy := by
  simp [admission, faulted, he, hr]

/-- The operations that CMD issues are refused as their admission says, but for RESET (60_exceptions.md R214). -/
theorem exec_command_of_not_admitted {s : State} {r : Refusal} {k : CmdKind} (hk : k ≠ .reset)
    (ha : admission s = some r) : exec (commandInstr k) s = .refused r := by
  cases k with
  | encode => simp only [commandInstr, exec, execEncode, ha]
  | decode => simp only [commandInstr, exec, execDecode, ha]
  | recv => simp only [commandInstr, exec, execRecv, ha]
  | xmask => simp only [commandInstr, exec, execXmask, ha]
  | reset => exact absurd rfl hk

theorem exec_write_of_not_admitted {s : State} {r : Refusal} (ha : admission s = some r) (code : Fin 7)
    (msg : List Byte) : exec (.write code msg) s = .refused r := by
  simp only [exec, execWrite, ha]

/-- Settles O47: the held RECV fetches nothing, so the step is the host's turn, by the kind of interaction. -/
theorem hostWhileRecvHolds : Obligations.HostWhileRecvHolds := by
  intro s taken a rest he hr hc hh
  have hf := fetch_of_not_canResume hr hc
  have held : s.recv.isSome = true := by simp [hr]
  have busy : ∀ c, admission { s with host := rest, cmd := c } = some .busy := fun _ => admission_of_held he hr
  cases a with
  | deliver bs => exact step_of_fetch_none_of_done hf hh rfl
  | drain n => exact step_of_drain hf hh
  | push bs => exact step_of_push hf hh
  | issue c =>
    have hstep := step_of_fetch_none_of_run hf hh rfl
    dsimp only
    split
    case isTrue hk =>
      rw [hk] at hstep
      exact ⟨_, hstep, rfl, rfl, rfl⟩
    case isFalse hk => exact hstep.trans (exec_command_of_not_admitted hk (busy c))
  | write code msg =>
    have hstep := step_of_fetch_none_of_run hf hh rfl
    exact hstep.trans (exec_write_of_not_admitted (busy s.cmd) code msg)
  | place b a bs => cases b <;> exact step_of_place_while_held hf hr hh
  | supplyKey k => exact step_of_fetch_none_of_done hf hh rfl
  | readStatus =>
    have hstatus : statusReply s = .status 0#2 s.txv s.rxv := by rw [statusReply, he, errorCode]
    have hstep : step s = .next { s with host := rest, reply := statusReply s } :=
      step_of_fetch_none_of_done hf hh rfl
    rw [hstatus] at hstep
    exact hstep
  | readCap => exact step_of_fetch_none_of_done hf hh rfl
  | readField side f => exact step_of_fetch_none_of_done hf hh (if_pos held)
  | readBytes b a n => exact step_of_fetch_none_of_done hf hh (if_pos held)

end Sys2Proof.Machine
end

section
/-!
PROOFS. The base header: packing and unpacking, the opcode row and the shape row of a header, and their way back through
the decoder (30_encoding.md R91 to R103).
-/

namespace Sys2Proof

/-! ### Fields and bytes -/

theorem hunpack_hpack (h : Header) : hunpack (hpack h).1 (hpack h).2 = h := by
  obtain ⟨fin, rsv, opcode, mask, len7⟩ := h
  simp only [hunpack, hpack, h16, Header.mk.injEq]
  refine ⟨?_, ?_, ?_, ?_, ?_⟩ <;> ext i hi <;> interval_cases i <;> simp

theorem hpack_hunpack (b0 b1 : Byte) : hpack (hunpack b0 b1) = (b0, b1) := by
  simp only [hunpack, hpack, h16, Prod.mk.injEq]
  refine ⟨?_, ?_⟩ <;> ext i hi <;> interval_cases i <;> simp

theorem headerBytes_hunpack (b0 b1 : Byte) : headerBytes (hunpack b0 b1) = [b0, b1] := by
  rw [headerBytes, hpack_hunpack]

@[simp] theorem hunpack_byteOne_mask (b0 : Byte) (mask : BitVec 1) (len7 : BitVec 7) :
    (hunpack b0 (byteOne mask len7)).mask = mask := by
  simp only [hunpack, byteOne]
  ext i hi; interval_cases i; simp

@[simp] theorem hunpack_byteOne_len7 (b0 : Byte) (mask : BitVec 1) (len7 : BitVec 7) :
    (hunpack b0 (byteOne mask len7)).len7 = len7 := by
  simp only [hunpack, byteOne]
  ext i hi; interval_cases i <;> simp

theorem shapeBytes_hunpack (b0 b1 : Byte) : shapeBytes b0 (hunpack b0 b1).mask (hunpack b0 b1).len7 = [b0, b1] := by
  simp only [shapeBytes, byteOne, hunpack, List.cons.injEq, and_true, true_and]
  ext i hi; interval_cases i <;> simp

/-! ### The two rows of a header -/

/-- The decoder on the bytes of a field tuple. -/
theorem decode_headerBytes (h : Header) (rest : List Byte) : decode (headerBytes h ++ rest) =
    .ok { opcodeRow := opcodeRow h, shapeRow := shapeRow (hpack h).1 h.mask h.len7, rest := rest } := by
  simp only [headerBytes, List.cons_append, List.nil_append, decode, hunpack_hpack]

/-- The decoder on the bytes of a shape row. -/
theorem decode_shapeBytes (b0 : Byte) (mask : BitVec 1) (len7 : BitVec 7) (rest : List Byte) :
    decode (shapeBytes b0 mask len7 ++ rest) =
      .ok { opcodeRow := opcodeRow (hunpack b0 (byteOne mask len7)), shapeRow := shapeRow b0 mask len7, rest := rest } := by
  simp only [shapeBytes, List.cons_append, List.nil_append, decode, hunpack_byteOne_mask, hunpack_byteOne_len7]

/-- A row of the opcode table is the row of its field tuple, and is encoded as it (45_opcodes.md R190 to R205). -/
theorem opcodeRow_encode_of_mem {h : Header} {i : Instr}
    (hi : (h.opcode, i) ∈ Machine.opcodeRows h.fin h.rsv h.mask h.len7) : opcodeRow h = i ∧ encode i = headerBytes h := by
  have rows : ∀ r ∈ Machine.opcodeRows h.fin h.rsv h.mask h.len7,
      opcodeRow ⟨h.fin, h.rsv, r.1, h.mask, h.len7⟩ = r.2 ∧ encode r.2 = headerBytes ⟨h.fin, h.rsv, r.1, h.mask, h.len7⟩ := by
    simp only [Machine.opcodeRows, List.forall_mem_cons, List.not_mem_nil, false_implies, implies_true, and_true]
    and_intros <;> rfl
  exact rows _ hi

/-- Every value of the opcode field has its row in the table (30_encoding.md R102). -/
theorem opcodeRow_mem (h : Header) : (h.opcode, opcodeRow h) ∈ Machine.opcodeRows h.fin h.rsv h.mask h.len7 := by
  obtain ⟨fin, rsv, ⟨⟨n, hn⟩⟩, mask, len7⟩ := h
  interval_cases n <;> simp [opcodeRow, Machine.opcodeRows]

/-- A row of the shape table with a literal length to 125 is well formed, is the row of its `mask` and `len7`, and is
encoded as they are. -/
theorem shapeRow_encode_of_mem {b0 : Byte} {lit l : BitVec 7} {m : BitVec 1} {i : Instr} (hlit : lit.toNat ≤ 125)
    (hi : (m, l, i) ∈ Machine.shapeRows b0 lit) :
    i.wellFormed = true ∧ shapeRow b0 m l = i ∧ encode i = shapeBytes b0 m l := by
  have h126 : lit ≠ 126#7 := by rintro rfl; simp at hlit
  have h127 : lit ≠ 127#7 := by rintro rfl; simp at hlit
  have rows : ∀ r ∈ Machine.shapeRows b0 lit,
      r.2.2.wellFormed = true ∧ shapeRow b0 r.1 r.2.1 = r.2.2 ∧ encode r.2.2 = shapeBytes b0 r.1 r.2.1 := by
    simp [Machine.shapeRows, Instr.wellFormed, shapeRow, shapeOf, encode, hlit, h126, h127]
  exact rows _ hi

/-- Every `mask` and `len7` has its row in the shape table over some literal length to 125: over `len7` itself where it
is no selector (30_encoding.md R92). -/
theorem shapeRow_mem (b0 : Byte) (m : BitVec 1) (l : BitVec 7) :
    ∃ lit : BitVec 7, lit.toNat ≤ 125 ∧ (m, l, shapeRow b0 m l) ∈ Machine.shapeRows b0 lit := by
  have hm := Machine.mask_zero_or_one m
  by_cases h126 : l = 126#7
  · subst h126
    rcases hm with rfl | rfl <;> exact ⟨0#7, by decide, by simp [shapeRow, shapeOf, Machine.shapeRows]⟩
  by_cases h127 : l = 127#7
  · subst h127
    rcases hm with rfl | rfl <;> exact ⟨0#7, by decide, by simp [shapeRow, shapeOf, Machine.shapeRows]⟩
  have hlit : l.toNat ≤ 125 := by bv_omega
  rcases hm with rfl | rfl <;> exact ⟨l, hlit, by simp [shapeRow, shapeOf, Machine.shapeRows, h126, h127]⟩

/-! ### The round trips -/

/-- Settles O2: the bytes of an opcode row are those of its field tuple, which the decoder reads back. -/
theorem opcodeRowsDecodeBack : Obligations.OpcodeRowsDecodeBack := by
  intro fin rsv mask len7 rest op i hi
  obtain ⟨hrow, henc⟩ := opcodeRow_encode_of_mem (h := ⟨fin, rsv, op, mask, len7⟩) hi
  obtain ⟨lit, hlit, hmem⟩ := shapeRow_mem (hpack ⟨fin, rsv, op, mask, len7⟩).1 mask len7
  refine ⟨_, (shapeRow_encode_of_mem hlit hmem).1, ?_⟩
  rw [henc, decode_headerBytes, hrow]

/-- Settles O3: the bytes of a shape row are its byte 0, `mask` and `len7`, which select that row again. -/
theorem shapeRowsDecodeBack : Obligations.ShapeRowsDecodeBack := by
  intro b0 lit rest m l i hlit hi
  obtain ⟨hwf, hrow, henc⟩ := shapeRow_encode_of_mem hlit hi
  refine ⟨hwf, opcodeRow (hunpack b0 (byteOne m l)), ?_⟩
  rw [henc, decode_shapeBytes, hrow]

/-- Settles O6: both tables have a row for the header, and unpacking loses no bit. -/
theorem everyHeaderHasItsTwoRows : Obligations.EveryHeaderHasItsTwoRows := by
  intro b0 b1 rest
  have hop := opcodeRow_mem (hunpack b0 b1)
  obtain ⟨lit, hlit, hsh⟩ := shapeRow_mem b0 (hunpack b0 b1).mask (hunpack b0 b1).len7
  obtain ⟨hwf, -, henc⟩ := shapeRow_encode_of_mem hlit hsh
  refine ⟨_, rfl, rfl, ⟨_, hop⟩, ⟨_, _, lit, hsh⟩, hwf, ?_, ?_⟩
  · exact (opcodeRow_encode_of_mem hop).2.trans (headerBytes_hunpack b0 b1)
  · exact henc.trans (shapeBytes_hunpack b0 b1)

/-- Settles O1: the decoder evaluated on each of the written-out headers. -/
theorem specHeadersDecode : Obligations.SpecHeadersDecode := by
  unfold Obligations.SpecHeadersDecode
  decide

end Sys2Proof
end

section
/-!
PROOFS. WRITE as a masked TEXT ENCODE, DECODE of a raw buffer too short for a frame, and operands outside their type
(30_encoding.md R93, R96, R110, R122).
-/

namespace Sys2Proof.Machine

/-! ### WRITE -/

/-- Bytes just written are read back whole. -/
theorem readBytes_writeBytes (m : Memory) (a : Nat) (bs : List Byte) :
    Memory.readBytes (Memory.writeBytes m a bs) a bs.length = some bs := by
  simp [Memory.readBytes, readUpTo_writeBytes]

/-- An ENCODE completes where its payload fits, has a length the block can carry, and is all there. -/
theorem encodePayload_of_readBytes {n : Nat} {s : State} {data : List Byte} (hn : n ≤ Config.maxPayload)
    (h64 : 65535 < n → s.hasLen64 = true) (hd : Memory.readBytes s.txp 0 n = some data) (op : BitVec 4) (m : BitVec 1) :
    encodePayload op m n s = .next (emitFrame op m (encodeKey m s).1 data (encodeKey m s).2) := by
  have hfit : ¬ exceedsPayload n = true := by rw [exceedsPayload_iff]; omega
  have hlen : ¬ (Config.extension16Max < n ∧ s.hasLen64 = false) := fun ⟨hlt, hno⟩ => by simp [h64 hlt] at hno
  rw [encodePayload, if_neg hfit, if_neg hlen, hd]

/-- WRITE that is admitted and fits is the encoder on the placed payload (30_encoding.md R122). -/
theorem exec_write_of_fits {s : State} {code : Fin 7} {msg : List Byte} (hi : s.Idle)
    (hn : msg.length + 1 ≤ Config.maxPayload) :
    exec (.write code msg) s = encodePayload 1#4 1#1 (msg.length + 1) (writeSetup code msg s) := by
  have hfit : ¬ exceedsPayload (writePayload code msg).length = true := by
    rw [exceedsPayload_iff, writePayload, List.length_cons]; omega
  simp only [exec, execWrite, admission_eq_none.mpr hi, if_neg hfit]
  rfl

theorem exec_encode_of_idle {s : State} (hi : s.Idle) :
    exec .encode s = encodePayload s.cmd.opcode s.cmd.useMask s.cmd.len.toNat s := by
  simp only [exec, execEncode, admission_eq_none.mpr hi]

/-- Settles O27: both sides are the encoder on the state that `writeSetup` leaves. -/
theorem writeExpandsToEncode : Obligations.WriteExpandsToEncode := by
  intro s code msg hi hn
  have hlen : (writeSetup code msg s).cmd.len.toNat = msg.length + 1 := toNat_ofNat_of_le_maxPayload hn
  have henc := exec_encode_of_idle (s := writeSetup code msg s) hi
  rw [hlen] at henc
  exact (exec_write_of_fits hi hn).trans henc.symm

/-- Settles O28: the placed payload is read back, so the encoder completes with the key it draws. -/
theorem writeEmitsMaskedText : Obligations.WriteEmitsMaskedText := by
  intro s code msg hi hn h64
  have hread : Memory.readBytes (writeSetup code msg s).txp 0 (msg.length + 1) = some (writePayload code msg) :=
    readBytes_writeBytes s.txp 0 (writePayload code msg)
  have henc := encodePayload_of_readBytes (s := writeSetup code msg s) hn h64 hread 1#4 1#1
  have hexec := (exec_write_of_fits hi hn).trans henc
  refine ⟨_, _, hexec, rfl, read_ofBytes _, rfl, rfl, rfl, ?_, fun a ha => ?_⟩
  · exact (transmits_exec_outcome (.inr ⟨code, msg, rfl⟩) hexec).2.sameOutsideTransmit
  · have hout : ¬ (0 ≤ a ∧ a < 0 + (writePayload code msg).length) := by rw [writePayload, List.length_cons]; omega
    rw [emitFrame_txp, encodeKey_txp, writeSetup_txp, read_writeBytes, if_neg hout]

/-! ### DECODE of a short buffer -/

/-- A raw buffer below `MIN_DECODE_BYTES` is malformed before any byte of it is read (30_encoding.md R110). -/
theorem decodeRaw_of_short {n : Nat} (hn : n < Config.minDecodeBytes) (raw : List Byte) (s : State) :
    decodeRaw n raw s = .next (raise .malformedPacket s) := by
  simp only [decodeRaw, decodeFrame, if_pos hn]

theorem exec_decode_of_fits {s : State} (hi : s.Idle) (hn : s.cmd.len.toNat ≤ Config.longestHeader + Config.maxPayload) :
    exec .decode s = decodeRaw s.cmd.len.toNat (Memory.readUpTo s.rxi 0 s.cmd.len.toNat) (startReceive s) := by
  have hfit : ¬ exceedsRaw s.cmd.len.toNat = true := by rw [exceedsRaw_iff]; omega
  simp only [exec, execDecode, admission_eq_none.mpr hi, if_neg hfit]

/-- Settles O30. -/
theorem shortRawBuffersAreMalformed : Obligations.ShortRawBuffersAreMalformed := by
  intro s hi hn
  have hfit : s.cmd.len.toNat ≤ Config.longestHeader + Config.maxPayload := by simp only [Config.longestHeader]; omega
  have hshort : s.cmd.len.toNat < Config.minDecodeBytes := by simp only [Config.minDecodeBytes]; omega
  exact ⟨_, (exec_decode_of_fits hi hfit).trans (decodeRaw_of_short hshort _ _), rfl, rfl, rfl, rfl⟩

/-! ### Operands outside their type -/

/-- Settles O55: each row tests its operand before anything else. -/
theorem operandsOutsideTheirTypeStop : Obligations.OperandsOutsideTheirTypeStop := by
  refine ⟨fun b0 len7 s h => ?_, fun length s h => ?_, fun length s hlow hhigh h64 => ?_, fun len7 ext s h => ?_⟩
  · exact ⟨if_neg (Nat.not_le.mpr h), if_neg (Nat.not_le.mpr h)⟩
  · exact if_pos (show Config.payloadLengthMax < length.toNat by simp only [Config.payloadLengthMax]; omega)
  · have hin : ¬ Config.payloadLengthMax < length.toNat := by simp only [Config.payloadLengthMax]; omega
    exact (if_neg hin).trans (if_pos ⟨hlow, h64⟩)
  · exact if_neg h

end Sys2Proof.Machine
end

section
/-!
PROOFS. HPACK and HUNPACK: the bits of the two header bytes, the round trips, and the rows that answer them
(40_header_pack_unpack.md R130 to R132).
-/

namespace Sys2Proof

/-! ### What HUNPACK reads (R131) -/

@[simp] theorem hunpack_fin_toNat (b0 b1 : Byte) : (hunpack b0 b1).fin.toNat = b0.toNat / 128 := by
  rw [hunpack, BitVec.extractLsb'_toNat, Nat.shiftRight_eq_div_pow]
  omega

@[simp] theorem hunpack_rsv_toNat (b0 b1 : Byte) : (hunpack b0 b1).rsv.toNat = b0.toNat / 16 % 8 := by
  rw [hunpack, BitVec.extractLsb'_toNat, Nat.shiftRight_eq_div_pow]

@[simp] theorem hunpack_opcode_toNat (b0 b1 : Byte) : (hunpack b0 b1).opcode.toNat = b0.toNat % 16 := by
  rw [hunpack, BitVec.extractLsb'_toNat, Nat.shiftRight_zero]

@[simp] theorem hunpack_mask_toNat (b0 b1 : Byte) : (hunpack b0 b1).mask.toNat = b1.toNat / 128 := by
  rw [hunpack, BitVec.extractLsb'_toNat, Nat.shiftRight_eq_div_pow]
  omega

@[simp] theorem hunpack_len7_toNat (b0 b1 : Byte) : (hunpack b0 b1).len7.toNat = b1.toNat % 128 := by
  rw [hunpack, BitVec.extractLsb'_toNat, Nat.shiftRight_zero]

/-- `rsv[0]` is the most significant of the three bits. -/
theorem hunpack_rsv_getMsbD (b0 b1 : Byte) {i : Nat} (hi : i < 3) :
    (hunpack b0 b1).rsv.getMsbD i = b0.getLsbD (6 - i) := by
  have hpos : 4 + (3 - 1 - i) = 6 - i := by omega
  have hlt : 3 - 1 - i < 3 := by omega
  simp [hunpack, BitVec.getMsbD_eq_getLsbD, hi, hlt, hpos]

/-! ### The bytes as sums of their fields (R130) -/

theorem byte0_eq_fields (b0 b1 : Byte) : b0.toNat =
    (hunpack b0 b1).fin.toNat * 128 + (hunpack b0 b1).rsv.toNat * 16 + (hunpack b0 b1).opcode.toNat := by
  rw [hunpack_fin_toNat, hunpack_rsv_toNat, hunpack_opcode_toNat]
  omega

theorem byte1_eq_fields (b0 b1 : Byte) :
    b1.toNat = (hunpack b0 b1).mask.toNat * 128 + (hunpack b0 b1).len7.toNat := by
  rw [hunpack_mask_toNat, hunpack_len7_toNat]
  omega

/-- A header is what HUNPACK reads from its own bytes, so these are made up of its fields. -/
theorem hpack_fst_toNat (h : Header) : (hpack h).1.toNat = h.fin.toNat * 128 + h.rsv.toNat * 16 + h.opcode.toNat := by
  have hfields := byte0_eq_fields (hpack h).1 (hpack h).2
  rwa [hunpack_hpack] at hfields

theorem hpack_snd_toNat (h : Header) : (hpack h).2.toNat = h.mask.toNat * 128 + h.len7.toNat := by
  have hfields := byte1_eq_fields (hpack h).1 (hpack h).2
  rwa [hunpack_hpack] at hfields

/-! ### The obligations -/

/-- Settles O5: the two round trips of the base header (R132). -/
theorem headerPackUnpackInverse : Obligations.HeaderPackUnpackInverse :=
  ⟨hunpack_hpack, hpack_hunpack⟩

/-- Settles O4: byte 0 carries `fin`, `rsv` and `opcode`, byte 1 `mask` and `len7`. -/
theorem headerPackAndUnpack : Obligations.HeaderPackAndUnpack := by
  refine ⟨fun h => ?_, fun b0 b1 => ⟨hunpack_fin_toNat b0 b1, fun i hi => hunpack_rsv_getMsbD b0 b1 hi,
    hunpack_opcode_toNat b0 b1, hunpack_mask_toNat b0 b1, hunpack_len7_toNat b0 b1⟩⟩
  rw [hpack_fst_toNat, hpack_snd_toNat]
  omega

/-- Settles O11: the answer is the two bytes of the packed header. -/
theorem hpackPlacesTheFields : Obligations.HpackPlacesTheFields := by
  intro fin rsv opcode mask len7 s
  let h : Header := ⟨fin, rsv, opcode, mask, len7⟩
  exact ⟨(hpack h).1, (hpack h).2, rfl, hpack_fst_toNat h, hpack_snd_toNat h⟩

/-- Settles O12: the answer is the header read from the two bytes. -/
theorem hunpackReadsTheFields : Obligations.HunpackReadsTheFields := by
  intro b0 b1 s
  exact ⟨hunpack b0 b1, rfl, byte0_eq_fields b0 b1, byte1_eq_fields b0 b1⟩

end Sys2Proof
end

section
/-!
PROOFS. The payload-length field: the bytes of a big-endian word, the three shapes of a length, and the rows LSEL,
EXTN, LEXT and POFF (41_length_field.md R140 to R143).
-/

namespace Sys2Proof.Machine

/-! ### Big-endian words as bytes written out (00_scope.md R10) -/

theorem beNat_pair (e0 e1 : Byte) : beNat [e0, e1] = e0.toNat * 256 + e1.toNat := by
  simp [beNat]

theorem beNat_quad (e0 e1 e2 e3 : Byte) :
    beNat [e0, e1, e2, e3] = e0.toNat * 2 ^ 24 + e1.toNat * 2 ^ 16 + e2.toNat * 2 ^ 8 + e3.toNat := by
  simp only [beNat, List.length_cons, List.length_nil]
  omega

theorem beNat_octet (e0 e1 e2 e3 e4 e5 e6 e7 : Byte) : beNat [e0, e1, e2, e3, e4, e5, e6, e7] =
    (e0.toNat * 2 ^ 24 + e1.toNat * 2 ^ 16 + e2.toNat * 2 ^ 8 + e3.toNat) * 2 ^ 32
      + (e4.toNat * 2 ^ 24 + e5.toNat * 2 ^ 16 + e6.toNat * 2 ^ 8 + e7.toNat) := by
  simp only [beNat, List.length_cons, List.length_nil]
  omega

theorem exists_bytes_toBe_two {n : Nat} (hn : n < 2 ^ 16) :
    ∃ e0 e1 : Byte, toBe 2 n = [e0, e1] ∧ e0.toNat * 256 + e1.toNat = n :=
  ⟨_, _, rfl, (beNat_pair _ _).symm.trans ((beNat_toBe 2 n).trans (Nat.mod_eq_of_lt hn))⟩

theorem exists_bytes_toBe_four {n : Nat} (hn : n < 2 ^ 32) :
    ∃ e0 e1 e2 e3 : Byte, toBe 4 n = [e0, e1, e2, e3]
      ∧ e0.toNat * 2 ^ 24 + e1.toNat * 2 ^ 16 + e2.toNat * 2 ^ 8 + e3.toNat = n :=
  ⟨_, _, _, _, rfl, (beNat_quad _ _ _ _).symm.trans ((beNat_toBe 4 n).trans (Nat.mod_eq_of_lt hn))⟩

/-! ### The shape of a length (R140) -/

theorem lsel_of_literal {n : Nat} (hlit : n ≤ 125) : lsel n = (BitVec.ofNat 7 n, []) := by
  have h16 : ¬ 65535 < n := by omega
  exact (if_neg h16).trans (if_neg (Nat.not_lt.mpr hlit))

theorem lsel_of_extension16 {n : Nat} (hlow : 125 < n) (hhigh : n ≤ 65535) : lsel n = (126#7, toBe 2 n) :=
  (if_neg (Nat.not_lt.mpr hhigh)).trans (if_pos hlow)

theorem lsel_of_extension64 {n : Nat} (hn : 65535 < n) :
    lsel n = (127#7, toBe 4 (n / 2 ^ 32) ++ toBe 4 (n % 2 ^ 32)) :=
  if_pos hn

theorem toNat_lsel_of_literal {n : Nat} (hn : n ≤ 125) : (lsel n).1.toNat = n := by
  rw [lsel_of_literal hn]
  exact Nat.mod_eq_of_lt (by omega)

/-- Past the literals the extension bytes are the length itself, big-endian. -/
theorem beNat_lsel_ext {n : Nat} (hlow : 125 < n) (hhigh : n ≤ 2 ^ 63 - 1) : beNat (lsel n).2 = n := by
  by_cases h16 : n ≤ 65535
  · rw [lsel_of_extension16 hlow h16, beNat_toBe]
    omega
  · rw [lsel_of_extension64 (by omega), beNat_append, beNat_toBe, beNat_toBe, toBe_length]
    omega

/-! ### What a length selector means (R141, R142) -/

theorem ne_selector_of_literal {len7 : BitVec 7} (hlit : len7.toNat ≤ 125) : len7 ≠ 126#7 ∧ len7 ≠ 127#7 := by
  constructor <;> rintro rfl <;> simp at hlit

theorem extn_of_literal {len7 : BitVec 7} (hlit : len7.toNat ≤ 125) : extn len7 = 0 := by
  obtain ⟨h126, h127⟩ := ne_selector_of_literal hlit
  rw [extn, if_neg h126, if_neg h127]

theorem lext_of_literal {len7 : BitVec 7} (hlit : len7.toNat ≤ 125) (ext : List Byte) : lext len7 ext = len7.toNat := by
  obtain ⟨h126, h127⟩ := ne_selector_of_literal hlit
  rw [lext, if_neg h126, if_neg h127]

/-- `LEXT` undoes `LSEL` (R142). -/
theorem lext_lsel {n : Nat} (hn : n ≤ 2 ^ 63 - 1) : lext (lsel n).1 (lsel n).2 = n := by
  rcases Nat.lt_or_ge 125 n with hlow | hlit
  · have hbe : beNat (lsel n).2 = n := beNat_lsel_ext hlow hn
    rcases Nat.lt_or_ge 65535 n with h64 | h16
    · rwa [lsel_of_extension64 h64] at hbe ⊢
    · rwa [lsel_of_extension16 hlow h16] at hbe ⊢
  · have hsel : (lsel n).1.toNat = n := toNat_lsel_of_literal hlit
    rw [lext_of_literal (by omega), hsel]

/-! ### The rows on operands of their type -/

theorem exec_lsel_of_le {length : Word64} {s : State} (hn : length.toNat ≤ 2 ^ 63 - 1)
    (h64 : 65535 < length.toNat → s.hasLen64 = true) :
    exec (.lsel length) s =
      .next { s with reply := .lengthField (lsel length.toNat).1 (lsel length.toNat).2 } := by
  have hcap : ¬ (Config.extension16Max < length.toNat ∧ s.hasLen64 = false) := fun ⟨hlt, hno⟩ => by simp [h64 hlt] at hno
  exact (if_neg (Nat.not_lt.mpr hn)).trans (if_neg hcap)

theorem exec_lext_of_length {len7 : BitVec 7} {ext : List Byte} (hlen : ext.length = extn len7) (s : State) :
    exec (.lext len7 ext) s = .next { s with reply := .value (BitVec.ofNat 64 (lext len7 ext)) } :=
  if_pos hlen

/-! ### The obligations -/

/-- Settles O13: the word that the bytes of each extension spell is `n`, or the high and the low word of `n`. -/
theorem lengthShapeSelection : Obligations.LengthShapeSelection := by
  intro n hn
  refine ⟨fun hlit => ⟨toNat_lsel_of_literal hlit, by rw [lsel_of_literal hlit]⟩, fun hlow hhigh => ?_, fun hhigh => ?_⟩
  · rw [lsel_of_extension16 hlow hhigh]
    exact ⟨rfl, exists_bytes_toBe_two (by omega)⟩
  · obtain ⟨e0, e1, e2, e3, hbytes, hsum⟩ := exists_bytes_toBe_four (n := n / 2 ^ 32) (by omega)
    obtain ⟨e4, e5, e6, e7, hbytes', hsum'⟩ := exists_bytes_toBe_four (n := n % 2 ^ 32) (by omega)
    rw [lsel_of_extension64 hhigh, hbytes, hbytes']
    exact ⟨rfl, e0, e1, e2, e3, e4, e5, e6, e7, rfl, hsum, hsum'⟩

/-- Settles O14: the row answers what `LSEL` chooses, whose extension has the bytes of its selector and spells the
length. -/
theorem lselChoosesTheShortestShape : Obligations.LselChoosesTheShortestShape := by
  intro length s hn h64
  refine ⟨_, _, exec_lsel_of_le hn h64, ?_⟩
  split_ifs with hlit h16
  · exact ⟨toNat_lsel_of_literal hlit, by rw [lsel_of_literal hlit]⟩
  · have hsel : (lsel length.toNat).1 = 126#7 := by rw [lsel_of_extension16 (by omega) h16]
    exact ⟨hsel, by rw [lsel_ext_length, hsel]; rfl, beNat_lsel_ext (by omega) hn⟩
  · have hsel : (lsel length.toNat).1 = 127#7 := by rw [lsel_of_extension64 (by omega)]
    exact ⟨hsel, by rw [lsel_ext_length, hsel]; rfl, beNat_lsel_ext (by omega) hn⟩

/-- Settles O17. -/
theorem lextInvertsLsel : Obligations.LextInvertsLsel :=
  fun _ => lext_lsel

/-- Settles O15: by the three cases of `EXTN`. -/
theorem extnCountsExtensionBytes : Obligations.ExtnCountsExtensionBytes := by
  intro len7 s
  simp only [exec, execExtn, answer, extn]
  split_ifs <;> rfl

/-- Settles O16: each operand has the bytes of its selector, so the row completes with what they spell. -/
theorem lextReadsTheLength : Obligations.LextReadsTheLength := by
  intro s
  refine ⟨fun len7 hlit => ?_, fun e0 e1 => ?_, fun e0 e1 e2 e3 e4 e5 e6 e7 => ?_⟩
  · have hlen : ([] : List Byte).length = extn len7 := (extn_of_literal hlit).symm
    rw [exec_lext_of_length hlen, lext_of_literal hlit, BitVec.ofNat_toNat]
  · rw [exec_lext_of_length rfl, ← beNat_pair]
    rfl
  · rw [exec_lext_of_length rfl, ← beNat_octet]
    rfl

/-- Settles O18: a literal has no extension bytes, and the selectors are computed. -/
theorem poffPerShape : Obligations.PoffPerShape := by
  intro s
  refine ⟨fun len7 hlit => ?_, rfl, rfl, rfl, rfl⟩
  simp only [exec, execPoff, answer, poff, extn_of_literal hlit]
  exact ⟨rfl, rfl⟩

end Sys2Proof.Machine
end

section
/-!
PROOFS. Masking: the masking transform byte by byte and over a split payload, the four answers of XMASK in an idle block,
and the row KEYGEN (42_masking.md R150 to R153).
-/

namespace Sys2Proof.Machine

/-! ### The bytes of a key -/

theorem keyByte_eq_getD (k : Key) (i : Nat) : keyByte k i = (keyBytes k).getD (i % 4) 0#8 := by
  have hlt : i % 4 < 4 := Nat.mod_lt i (by decide)
  unfold keyByte
  interval_cases i % 4 <;> rfl

theorem keyByte_congr (k : Key) {i j : Nat} (h : i % 4 = j % 4) : keyByte k i = keyByte k j := by
  simp only [keyByte_eq_getD, h]

/-- The key whose byte 0 is byte `n` of `k` (42_masking.md R151, item 4). -/
def rotatedKey (k : Key) (n : Nat) : Key :=
  ⟨keyByte k n, keyByte k (n + 1), keyByte k (n + 2), keyByte k (n + 3)⟩

theorem keyByte_rotatedKey (k : Key) (n j : Nat) : keyByte (rotatedKey k n) j = keyByte k (n + j) := by
  have hlt : j % 4 < 4 := Nat.mod_lt j (by decide)
  rw [keyByte_eq_getD, keyByte_congr k (show (n + j) % 4 = (n + j % 4) % 4 by omega)]
  interval_cases j % 4 <;> rfl

/-- A rotation by a multiple of the key's length is none. -/
theorem rotatedKey_of_mod_eq_zero (k : Key) {n : Nat} (h : n % 4 = 0) : rotatedKey k n = k := by
  have hbyte (j : Nat) : keyByte k (n + j) = keyByte k j := keyByte_congr k (by omega)
  have hzero : keyByte k n = keyByte k 0 := hbyte 0
  rw [rotatedKey, hbyte, hbyte, hbyte, hzero]
  rfl

/-! ### The masking transform -/

theorem getElem?_xmaskFrom (i : Nat) (k : Key) (data : List Byte) (j : Nat) :
    (xmaskFrom i k data)[j]? = (data[j]?).map fun b => b ^^^ keyByte k (i + j) := by
  induction data generalizing i j with
  | nil => rfl
  | cons b bs ih =>
    cases j with
    | zero => rfl
    | succ j => simpa [xmaskFrom, Nat.add_assoc, Nat.add_comm 1 j] using ih (i + 1) j

theorem getElem?_xmask (data : List Byte) (k : Key) (i : Nat) :
    (xmask data k)[i]? = (data[i]?).map fun b => b ^^^ (keyBytes k).getD (i % 4) 0#8 := by
  rw [xmask, getElem?_xmaskFrom, Nat.zero_add, keyByte_eq_getD]

theorem xmaskFrom_append (i : Nat) (k : Key) (a b : List Byte) :
    xmaskFrom i k (a ++ b) = xmaskFrom i k a ++ xmaskFrom (i + a.length) k b := by
  induction a generalizing i with
  | nil => rfl
  | cons x a ih => simp [xmaskFrom, ih, Nat.add_assoc, Nat.add_comm 1 a.length]

/-- To start the index at `n` is to rotate the key by `n`. -/
theorem xmaskFrom_eq_xmask_rotatedKey (n : Nat) (k : Key) (data : List Byte) :
    xmaskFrom n k data = xmask data (rotatedKey k n) := by
  refine List.ext_getElem? fun j => ?_
  rw [xmask, getElem?_xmaskFrom, getElem?_xmaskFrom, keyByte_rotatedKey, Nat.zero_add]

theorem xmask_append (a b : List Byte) (k : Key) :
    xmask (a ++ b) k = xmask a k ++ xmask b (rotatedKey k a.length) :=
  calc xmask (a ++ b) k = xmask a k ++ xmaskFrom (0 + a.length) k b := xmaskFrom_append 0 k a b
    _ = xmask a k ++ xmask b (rotatedKey k a.length) := by rw [Nat.zero_add, xmaskFrom_eq_xmask_rotatedKey]

/-- Each byte meets the same key byte twice. -/
theorem xmask_xmask (data : List Byte) (k : Key) : xmask (xmask data k) k = data := by
  refine List.ext_getElem? fun i => ?_
  rw [getElem?_xmask, getElem?_xmask]
  cases data[i]? with
  | none => rfl
  | some b => simp

/-! ### What XMASK answers in an idle block -/

theorem not_exceedsPayload {n : Nat} (h : n ≤ Config.maxPayload) : ¬ exceedsPayload n = true := by
  rw [exceedsPayload_iff]
  exact Nat.not_lt.mpr h

section Xmask
variable {s : State} (hi : s.Idle)
include hi

theorem exec_xmask_of_exceeds (hn : Config.maxPayload < s.cmd.len.toNat) : exec .xmask s = .refused .payloadTooLarge := by
  have hbig : exceedsPayload s.cmd.len.toNat = true := (exceedsPayload_iff _).mpr hn
  simp only [exec, execXmask, admission_eq_none.mpr hi, if_pos hbig]

theorem exec_xmask_of_bad_key (hn : s.cmd.len.toNat ≤ Config.maxPayload) (hk : s.cmd.key.length ≠ 4) :
    exec .xmask s = .refused .badKey := by
  have hnone : keyOf s.cmd.key = none := by rwa [← Option.not_isSome_iff_eq_none, keyOf_isSome]
  simp only [exec, execXmask, admission_eq_none.mpr hi, if_neg (not_exceedsPayload hn), hnone]

theorem exec_xmask_of_no_value {k : Key} (hn : s.cmd.len.toNat ≤ Config.maxPayload) (hk : keyOf s.cmd.key = some k)
    (hd : Memory.readBytes s.txp 0 s.cmd.len.toNat = none) : exec .xmask s = .refused .noValue := by
  simp only [exec, execXmask, admission_eq_none.mpr hi, if_neg (not_exceedsPayload hn), hk, hd]

theorem exec_xmask_of_readBytes {k : Key} {data : List Byte} (hn : s.cmd.len.toNat ≤ Config.maxPayload)
    (hk : keyOf s.cmd.key = some k) (hd : Memory.readBytes s.txp 0 s.cmd.len.toNat = some data) :
    exec .xmask s = .next { s with xmo := Memory.ofBytes (xmask data k) } := by
  simp only [exec, execXmask, admission_eq_none.mpr hi, if_neg (not_exceedsPayload hn), hk, hd]

end Xmask

/-! ### The key source -/

theorem keyDraw_of_cons {s : State} {k : Key} {ks : List Key} (h : s.keys = k :: ks) :
    keyDraw s = (k, { s with keys := ks }) := by
  rw [keyDraw, h]

theorem keyDraw_of_nil {s : State} (h : s.keys = []) :
    keyDraw s = (freeKey s.draws, { s with draws := s.draws + 1 }) := by
  rw [keyDraw, h]

theorem exec_keygen (s : State) :
    exec .keygen s = .next { (keyDraw s).2 with reply := .bytes (keyBytes (keyDraw s).1) } := rfl

/-! ### The obligations -/

/-- Settles O20. -/
theorem maskingTransform : Obligations.MaskingTransform :=
  ⟨fun data k0 k1 k2 k3 => ⟨xmask_length data _, getElem?_xmask data ⟨k0, k1, k2, k3⟩⟩,
    fun _ hi hn hk => exec_xmask_of_bad_key hi hn hk⟩

/-- Settles O21: the new XMO holds the masked bytes from offset 0 on and nothing else. -/
theorem xmaskOperation : Obligations.XmaskOperation := by
  refine ⟨fun s data k0 k1 k2 k3 hi hn hkey hd => ?_, fun s herr => ?_, fun s hi hn => exec_xmask_of_exceeds hi hn⟩
  · have hk : keyOf s.cmd.key = some ⟨k0, k1, k2, k3⟩ := by rw [hkey]; rfl
    exact ⟨_, exec_xmask_of_readBytes hi hn hk hd, fun i => (read_ofBytes _ i).trans (getElem?_xmask data _ i)⟩
  · exact exec_command_of_not_admitted (k := .xmask) (by decide) (admission_of_err herr)

/-- Settles O22: a split at a multiple of 4 is the general split with a rotation that is none. -/
theorem maskingLaws : Obligations.MaskingLaws := by
  refine ⟨xmask_xmask, xmask_length, fun a b k h4 => ?_, xmask_append⟩
  rw [xmask_append, rotatedKey_of_mod_eq_zero k h4]

/-- Settles O23: the cases of the operation in the order of its tests. -/
theorem xmaskRefusals : Obligations.XmaskRefusals := by
  intro s hi
  split_ifs with hbig hkey hnone
  · exact exec_xmask_of_exceeds hi hbig
  · exact exec_xmask_of_bad_key hi (Nat.not_lt.mp hbig) hkey
  all_goals obtain ⟨k, hk⟩ := Option.isSome_iff_exists.mp (keyOf_isSome.mpr (not_not.mp hkey))
  · exact exec_xmask_of_no_value hi (Nat.not_lt.mp hbig) hk hnone
  · obtain ⟨data, hd⟩ := Option.ne_none_iff_exists'.mp hnone
    exact ⟨_, exec_xmask_of_readBytes hi (Nat.not_lt.mp hbig) hk hd⟩

/-- Settles O19: by whether the environment has named a key. -/
theorem keygenDrawsOneKey : Obligations.KeygenDrawsOneKey := by
  refine fun s => ⟨fun k ks h => ?_, fun h => ⟨freeKey s.draws, ?_⟩⟩
  · rw [exec_keygen, keyDraw_of_cons h]
  · rw [exec_keygen, keyDraw_of_nil h]

end Sys2Proof.Machine
end

section
/-!
PROOFS. A raw frame read back (30_encoding.md R90, R100): the header, the length, the key and the payload that the decoder
finds in it, and the frame that the framer cuts off a stream which begins with it.
-/

namespace Sys2Proof.Machine

/-! ### The parts of a raw frame -/

theorem rawFrame_length {h : Header} {ext payload : List Byte} (he : ext.length = extn h.len7) (k : Key) :
    (rawFrame h ext k payload).length = poff h.mask h.len7 + payload.length := by
  simp only [rawFrame, List.length_append, headerBytes_length, keyPart_length, maskIf_length, he, poff]

theorem headerOf_headerBytes_append (h : Header) (rest : List Byte) : headerOf (headerBytes h ++ rest) = h :=
  hunpack_hpack h

theorem headerOf_rawFrame_append (h : Header) (ext : List Byte) (k : Key) (payload rest : List Byte) :
    headerOf (rawFrame h ext k payload ++ rest) = h := by
  simp only [rawFrame, List.append_assoc, headerOf_headerBytes_append]

/-- A slice that lies between two known parts is the middle one. -/
theorem slice_append_middle (a b c : List Byte) : slice (a ++ b ++ c) a.length b.length = b := by
  rw [slice, List.append_assoc, List.drop_left, List.take_left]

theorem lengthOf_rawFrame_append {h : Header} {ext payload : List Byte} (hf : FrameFits h ext payload) (k : Key)
    (rest : List Byte) : lengthOf (rawFrame h ext k payload ++ rest) = payload.length := by
  obtain ⟨he, hl, -⟩ := hf
  have hext : slice (rawFrame h ext k payload ++ rest) 2 (extn h.len7) = ext := by
    have hmid := slice_append_middle (headerBytes h) ext (keyPart h.mask k ++ maskIf h.mask payload k ++ rest)
    rwa [headerBytes_length, he, ← List.append_assoc, ← List.append_assoc] at hmid
  rw [lengthOf, headerOf_rawFrame_append, hext, hl]

theorem slice_rawFrame_payload {h : Header} {ext payload : List Byte} (he : ext.length = extn h.len7) (k : Key) :
    slice (rawFrame h ext k payload) (poff h.mask h.len7) payload.length = maskIf h.mask payload k := by
  have hmid := slice_append_middle (headerBytes h ++ ext ++ keyPart h.mask k) (maskIf h.mask payload k) []
  rwa [List.append_nil, List.length_append, List.length_append, headerBytes_length, keyPart_length, he,
    maskIf_length] at hmid

theorem slice_rawFrame_key {h : Header} {ext payload : List Byte} (he : ext.length = extn h.len7) (hm : h.mask = 1#1)
    (k : Key) : slice (rawFrame h ext k payload) (poff h.mask h.len7 - 4) 4 = keyBytes k := by
  have hkey : keyPart h.mask k = keyBytes k := if_pos hm
  have hoff : poff h.mask h.len7 - 4 = (headerBytes h ++ ext).length := by
    rw [List.length_append, headerBytes_length, he, poff, hm]
    exact Nat.add_sub_cancel _ 4
  rw [hoff, rawFrame, hkey]
  exact slice_append_middle (headerBytes h ++ ext) (keyBytes k) (maskIf h.mask payload k)

/-! ### The decoder on a raw frame -/

/-- What the decoder finds in the raw frame of these fields (44_frame_decode.md R170). -/
def decodedFrame (h : Header) (k : Key) (payload : List Byte) : DecodedFrame where
  header := h
  length := payload.length
  key := if h.mask = 1#1 then some k else none
  payload := payload

/-- The decoder's tests all pass on a whole raw frame of at least three bytes; a second masking undoes the first. -/
theorem decodeFrame_rawFrame {h : Header} {ext payload : List Byte} {b : Bool} (hf : FrameFits h ext payload)
    (h64 : h.len7 = 127#7 → b = true) (h3 : 3 ≤ poff h.mask h.len7 + payload.length) (k : Key) :
    decodeFrame b (poff h.mask h.len7 + payload.length) (rawFrame h ext k payload)
      = .frame (decodedFrame h k payload) := by
  have ⟨he, _, hfit⟩ := hf
  have hhead : headerOf (rawFrame h ext k payload) = h := by
    simpa using headerOf_rawFrame_append h ext k payload []
  have hlen : lengthOf (rawFrame h ext k payload) = payload.length := by
    simpa using lengthOf_rawFrame_append hf k []
  have hall := rawFrame_length (payload := payload) he k
  have hpoff : 2 + extn h.len7 ≤ poff h.mask h.len7 := Nat.le_add_right _ _
  have hmax := maxPayload_le
  have hcap : ¬ (h.len7 = 127#7 ∧ b = false) := fun ⟨hl, hb⟩ => by simp [h64 hl] at hb
  have hshort : ¬ poff h.mask h.len7 + payload.length < Config.minDecodeBytes := Nat.not_lt.mpr h3
  simp only [decodeFrame, hhead, hlen, hall]
  rw [if_neg hshort, if_neg (by omega), if_neg hcap, if_neg (by omega), if_neg (by omega), if_neg (by omega),
    if_neg (by omega), if_neg (by rw [exceedsPayload_iff]; omega), if_neg (by omega), slice_rawFrame_payload he]
  split
  case isTrue hm =>
    simp only [slice_rawFrame_key he hm, keyOf_keyBytes, maskIf, if_pos hm, xmask_xmask, decodedFrame]
  case isFalse hm => simp only [maskIf, if_neg hm, decodedFrame]

/-- The end of DECODE and RECV exposes a whole raw frame of at least three bytes. -/
theorem decodeRaw_rawFrame {h : Header} {ext payload : List Byte} {s : State} (hf : FrameFits h ext payload)
    (h64 : h.len7 = 127#7 → s.hasLen64 = true) (h3 : 3 ≤ poff h.mask h.len7 + payload.length) (k : Key) :
    decodeRaw (poff h.mask h.len7 + payload.length) (rawFrame h ext k payload) s
      = .next (exposeFrame (decodedFrame h k payload) s) := by
  simp only [decodeRaw, decodeFrame_rawFrame hf h64 h3]

/-- A frame that is exposed in a block without error has been received. -/
theorem exposeFrame_received {s : State} {payload : List Byte} (herr : s.err = .none)
    (hfit : payload.length ≤ Config.maxPayload) (h : Header) (k : Key) :
    (exposeFrame (decodedFrame h k payload) s).Received h k payload := by
  refine ⟨rfl, rfl, rfl, rfl, rfl, toNat_ofNat_of_le_maxPayload hfit, fun hm => ?_, read_ofBytes payload, rfl, herr,
    rfl, rfl⟩
  simp only [exposeFrame_rx, rxRegs, decodedFrame, if_pos hm, Option.getD_some]

/-! ### The framer on a stream that begins with a raw frame -/

/-- The framer takes exactly the frame; a 16-bit extension that spells 0 would be an error (44_frame_decode.md R175). -/
theorem framer_rawFrame_append {h : Header} {ext payload : List Byte} {b : Bool} (hf : FrameFits h ext payload)
    (h16 : h.len7 = 126#7 → payload ≠ []) (h64 : h.len7 = 127#7 → b = true) (k : Key) (rest : List Byte) :
    framer b (shapeOf h.mask h.len7) ((rawFrame h ext k payload ++ rest).take 2)
      ((rawFrame h ext k payload ++ rest).drop 2) = .framed (rawFrame h ext k payload) rest := by
  have ⟨he, _, hfit⟩ := hf
  have hall := rawFrame_length (payload := payload) he k
  have hpoff : 2 + extn h.len7 ≤ poff h.mask h.len7 := Nat.le_add_right _ _
  have hmax := maxPayload_le
  have htotal : (rawFrame h ext k payload ++ rest).length = poff h.mask h.len7 + payload.length + rest.length := by
    rw [List.length_append, hall]
  have hcap : ¬ (extn h.len7 = 8 ∧ b = false) := fun ⟨hl, hb⟩ => by simp [h64 (extn_eq_eight hl)] at hb
  have hnonzero : ¬ (extn h.len7 = 2 ∧ payload.length = 0) := fun ⟨hl, hz⟩ =>
    h16 (extn_eq_two hl) (List.length_eq_zero_iff.mp hz)
  have hend : max 2 (poff h.mask h.len7 + payload.length) = (rawFrame h ext k payload).length := by omega
  have hsplit := framer_split b (rawFrame h ext k payload ++ rest) 2 (le_refl 2) (by omega)
  rw [headerOf_rawFrame_append, lengthOf_rawFrame_append hf, if_neg hcap, if_neg (by omega), if_neg hnonzero,
    if_neg (by omega), if_neg (by rw [exceedsPayload_iff]; omega), if_neg (by omega), if_neg (by omega), hend,
    List.take_left, List.drop_left] at hsplit
  exact hsplit

/-- RECV on a stream that begins with a raw frame ends in the decoder on that frame. -/
theorem exec_recv_of_rawFrame {s : State} {h : Header} {ext payload rest : List Byte} {k : Key} (hi : s.Idle)
    (hf : FrameFits h ext payload) (h16 : h.len7 = 126#7 → payload ≠ []) (h64 : h.len7 = 127#7 → s.hasLen64 = true)
    (hq : s.rxq = rawFrame h ext k payload ++ rest) :
    exec .recv s = decodeRaw (poff h.mask h.len7 + payload.length) (rawFrame h ext k payload)
      (placeFrame (rawFrame h ext k payload) rest (startReceive s)) := by
  have hall := rawFrame_length (payload := payload) hf.1 k
  have hlong : 2 ≤ s.rxq.length := by rw [hq, List.length_append, hall, poff]; omega
  rw [execRecv_long hi hlong, hq, headerOf_rawFrame_append, framer_rawFrame_append hf h16 h64]
  simp only [hall]

end Sys2Proof.Machine
end

section
/-!
PROOFS. ENCODE: its four answers in an idle block, the frame it leaves in TXO, and the way of that frame back through
DECODE and RECV (43_frame_encode.md R160 to R162).
-/

namespace Sys2Proof.Machine

/-! ### What ENCODE answers in an idle block -/

section Encode
variable {s : State} (hi : s.Idle)
include hi

theorem exec_encode_of_exceeds (hn : Config.maxPayload < s.cmd.len.toNat) :
    exec .encode s = .refused .payloadTooLarge := by
  rw [exec_encode_of_idle hi, encodePayload, if_pos ((exceedsPayload_iff _).mpr hn)]

theorem exec_encode_of_no_len64 (hn : s.cmd.len.toNat ≤ Config.maxPayload)
    (h64 : 65535 < s.cmd.len.toNat ∧ s.hasLen64 = false) : exec .encode s = .refused .len64Unspecified := by
  rw [exec_encode_of_idle hi, encodePayload, if_neg (not_exceedsPayload hn), if_pos h64]

theorem exec_encode_of_no_value (hn : s.cmd.len.toNat ≤ Config.maxPayload)
    (h64 : ¬ (65535 < s.cmd.len.toNat ∧ s.hasLen64 = false))
    (hd : Memory.readBytes s.txp 0 s.cmd.len.toNat = none) : exec .encode s = .refused .noValue := by
  rw [exec_encode_of_idle hi, encodePayload, if_neg (not_exceedsPayload hn), if_neg h64, hd]

theorem exec_encode_of_readBytes {data : List Byte} (hn : s.cmd.len.toNat ≤ Config.maxPayload)
    (h64 : 65535 < s.cmd.len.toNat → s.hasLen64 = true)
    (hd : Memory.readBytes s.txp 0 s.cmd.len.toNat = some data) :
    exec .encode s = .next (emitFrame s.cmd.opcode s.cmd.useMask (encodeKey s.cmd.useMask s).1 data
      (encodeKey s.cmd.useMask s).2) :=
  (exec_encode_of_idle hi).trans (encodePayload_of_readBytes hn h64 hd _ _)

end Encode

/-- Settles O26: the cases of the operation in the order of its tests. -/
theorem encodeRefusals : Obligations.EncodeRefusals := by
  intro s hi
  split_ifs with hbig h64 hnone
  · exact exec_encode_of_exceeds hi hbig
  · exact exec_encode_of_no_len64 hi (Nat.not_lt.mp hbig) h64
  · exact exec_encode_of_no_value hi (Nat.not_lt.mp hbig) h64 hnone
  · obtain ⟨data, hd⟩ := Option.ne_none_iff_exists'.mp hnone
    have hcap : 65535 < s.cmd.len.toNat → s.hasLen64 = true := fun hlt => by simpa [hlt] using h64
    exact ⟨_, exec_encode_of_readBytes hi (Nat.not_lt.mp hbig) hcap hd⟩

/-! ### The frame in TXO and the key of an ENCODE -/

theorem encodeKey_of_masked {m : BitVec 1} (hm : m = 1#1) (s : State) : encodeKey m s = keyDraw s :=
  if_pos hm

theorem encodeKey_of_unmasked {m : BitVec 1} (hm : m = 0#1) (s : State) : encodeKey m s = (s.tx.key, s) :=
  if_neg (by simp [hm])

/-- Settles O24: the encoder completes; the key it draws is the case of the key source. -/
theorem encodeBuildsTheFrame : Obligations.EncodeBuildsTheFrame := by
  intro s data hi hn h64 hd
  have hexec := exec_encode_of_readBytes hi hn h64 hd
  obtain ⟨hlen, -, -⟩ := readBytes_eq_some hd
  refine ⟨_, (encodeKey s.cmd.useMask s).1, hexec, ?_, rfl, rfl, rfl, rfl, ?_, ?_, fun _ => rfl, rfl, rfl,
    fun hm k ks hk => ?_, fun hm hk => ?_, fun hm => ?_, ?_, encodeKey_cmd .., ?_⟩
  · rw [← hlen]
    exact read_ofBytes _
  · rw [emitFrame_tx, txRegs, hlen]
  · rw [emitFrame_tx, txRegs, hlen, BitVec.ofNat_toNat, BitVec.setWidth_eq]
  · rw [encodeKey_of_masked hm, keyDraw_of_cons hk]
    exact ⟨rfl, rfl, rfl⟩
  · rw [encodeKey_of_masked hm, keyDraw_of_nil hk]
    exact ⟨hk, rfl⟩
  · rw [encodeKey_of_unmasked hm]
    exact ⟨rfl, rfl⟩
  · rw [emitFrame_txp, encodeKey_txp]
    exact fun _ => rfl
  · exact (transmits_exec_outcome (.inl rfl) hexec).2.sameOutsideTransmit

/-- Settles O25: an ENCODE that completes leaves exactly the bytes of its frame in TXO. -/
theorem encodedFrameLength : Obligations.EncodedFrameLength := by
  intro s t h a
  obtain ⟨-, -, data, hd, rfl⟩ := exec_encode_next h
  obtain ⟨hlen, -, -⟩ := readBytes_eq_some hd
  rw [emitFrame_txo, read_ofBytes, isSome_getElem?, frameBytes_length, poff, extn_of_lsel, hlen]

/-! ### The way back -/

theorem bytes_cellsFrom (a : Nat) (bs : List Byte) : Memory.bytes (Memory.cellsFrom a bs) = bs := by
  induction bs generalizing a with
  | nil => rfl
  | cons b bs ih => exact congrArg (b :: ·) (ih (a + 1))

theorem bytes_ofBytes (bs : List Byte) : Memory.bytes (Memory.ofBytes bs) = bs :=
  bytes_cellsFrom 0 bs

/-- The base header of an encoded frame (43_frame_encode.md R160). -/
def encodedHeader (op : BitVec 4) (m : BitVec 1) (data : List Byte) : Header :=
  ⟨1#1, 0#3, op, m, (lsel data.length).1⟩

theorem frameBytes_eq_rawFrame (op : BitVec 4) (m : BitVec 1) (k : Key) (data : List Byte) :
    frameBytes op m k data = rawFrame (encodedHeader op m data) (lsel data.length).2 k data := rfl

/-- The extension that `LSEL` chooses carries the length (41_length_field.md R144). -/
theorem encodedHeader_frameFits {data : List Byte} (hn : data.length ≤ Config.maxPayload) (op : BitVec 4)
    (m : BitVec 1) : FrameFits (encodedHeader op m data) (lsel data.length).2 data :=
  ⟨lsel_ext_length _, lext_lsel (hn.trans maxPayload_le), hn⟩

/-- The 16-bit selector is chosen past the literals only, so never for an empty payload. -/
theorem ne_nil_of_lsel_eq_126 {data : List Byte} (h : (lsel data.length).1 = 126#7) : data ≠ [] := by
  rintro rfl
  exact absurd h (by decide)

/-- The 64-bit selector is chosen past `EXT16_MAX` only. -/
theorem lt_of_lsel_eq_127 {n : Nat} (h : (lsel n).1 = 127#7) : 65535 < n := by
  have hext := extn_of_lsel n
  rw [h] at hext
  split_ifs at hext with hlit h16
  · cases hext
  · cases hext
  · exact Nat.not_le.mp h16

/-- What a decoder of the encoded frame leaves: the payload and the fields, but for the empty unmasked frame
(43_frame_encode.md R162). -/
def State.DecodedBack (u : State) (op : BitVec 4) (m : BitVec 1) (k : Key) (data : List Byte) : Prop :=
  if m = 0#1 ∧ data = [] then u.Raised .malformedPacket else u.Received (encodedHeader op m data) k data

/-- Only the empty unmasked frame is shorter than `MIN_DECODE_BYTES`. -/
theorem three_le_encoded_length {m : BitVec 1} {data : List Byte} (h : ¬ (m = 0#1 ∧ data = [])) (len7 : BitVec 7) :
    3 ≤ poff m len7 + data.length := by
  rcases mask_zero_or_one m with rfl | rfl
  · have hpos : 0 < data.length := List.length_pos_iff.mpr fun hnil => h ⟨rfl, hnil⟩
    rw [poff]
    omega
  · rw [poff, show (1#1).toNat = 1 from rfl]
    omega

/-- The end of DECODE and of RECV on an encoded frame. -/
theorem decodeRaw_frameBytes {s : State} {data : List Byte} (herr : s.err = .none)
    (hn : data.length ≤ Config.maxPayload) (h64 : 65535 < data.length → s.hasLen64 = true) (op : BitVec 4)
    (m : BitVec 1) (k : Key) :
    ∃ u, decodeRaw (poff m (lsel data.length).1 + data.length) (frameBytes op m k data) s = .next u
      ∧ u.rxq = s.rxq ∧ u.DecodedBack op m k data := by
  by_cases hempty : m = 0#1 ∧ data = []
  · have hshort : poff m (lsel data.length).1 + data.length < Config.minDecodeBytes := by
      obtain ⟨rfl, rfl⟩ := hempty
      decide
    refine ⟨_, decodeRaw_of_short hshort _ s, rfl, ?_⟩
    rw [State.DecodedBack, if_pos hempty]
    exact ⟨rfl, rfl, rfl, rfl⟩
  · have hframe := decodeRaw_rawFrame (s := s) (encodedHeader_frameFits hn op m) (fun hl => h64 (lt_of_lsel_eq_127 hl))
      (three_le_encoded_length hempty _) k
    rw [← frameBytes_eq_rawFrame] at hframe
    refine ⟨_, hframe, rfl, ?_⟩
    rw [State.DecodedBack, if_neg hempty]
    exact exposeFrame_received herr hn _ k

section WayBack
variable {s : State} {data : List Byte} (hi : s.Idle) (hn : data.length ≤ Config.maxPayload)
  (h64 : 65535 < data.length → s.hasLen64 = true) {op : BitVec 4} {m : BitVec 1} {k : Key}
include hi hn h64

/-- DECODE of a buffer that holds an encoded frame. -/
theorem exec_decode_of_frameBytes (hrxi : s.rxi = Memory.ofBytes (frameBytes op m k data))
    (hlen : s.cmd.len = BitVec.ofNat 64 (poff m (lsel data.length).1 + data.length)) :
    ∃ u, exec .decode s = .next u ∧ u.DecodedBack op m k data := by
  have hpoff := poff_le m (lsel data.length).1
  have hmax := maxPayload_le
  have hlen' : s.cmd.len.toNat = poff m (lsel data.length).1 + data.length := by
    rw [hlen, BitVec.toNat_ofNat, Nat.mod_eq_of_lt (by omega)]
  have hfit : s.cmd.len.toNat ≤ Config.longestHeader + Config.maxPayload := by
    rw [hlen', Config.longestHeader]
    omega
  have hread := readUpTo_ofBytes (frameBytes op m k data)
  rw [frameBytes_length] at hread
  have hexec := exec_decode_of_fits hi hfit
  rw [hlen', hrxi, hread] at hexec
  obtain ⟨u, hu, -, hback⟩ := decodeRaw_frameBytes (s := startReceive s) hi.1 hn h64 op m k
  exact ⟨u, hexec.trans hu, hback⟩

/-- RECV of a stream that begins with an encoded frame. -/
theorem exec_recv_of_frameBytes {rest : List Byte} (hq : s.rxq = frameBytes op m k data ++ rest) :
    ∃ u, exec .recv s = .next u ∧ u.rxq = rest ∧ u.DecodedBack op m k data := by
  rw [frameBytes_eq_rawFrame] at hq
  have hexec := exec_recv_of_rawFrame hi (encodedHeader_frameFits hn op m) ne_nil_of_lsel_eq_126
    (fun hl => h64 (lt_of_lsel_eq_127 hl)) hq
  rw [← frameBytes_eq_rawFrame] at hexec
  obtain ⟨u, hu, hrest, hback⟩ := decodeRaw_frameBytes
    (s := placeFrame (frameBytes op m k data) rest (startReceive s)) hi.1 hn h64 op m k
  exact ⟨u, hexec.trans hu, hrest, hback⟩

end WayBack

/-- Settles O34: both receive paths end in the decoder on the encoded frame. -/
theorem encodeRoundTrip : Obligations.EncodeRoundTrip := by
  intro s data hi hn h64 hd
  obtain ⟨hlen, -, -⟩ := readBytes_eq_some hd
  have hidle : (encodeKey s.cmd.useMask s).2.Idle := by rwa [State.Idle, encodeKey_err, encodeKey_recv]
  have hcap : 65535 < data.length → (encodeKey s.cmd.useMask s).2.hasLen64 = true := by
    rwa [encodeKey_hasLen64, hlen]
  refine ⟨_, exec_encode_of_readBytes hi hn h64 hd, ?_, fun rest => ?_⟩
  · refine exec_decode_of_frameBytes (op := s.cmd.opcode) (m := s.cmd.useMask) (k := (encodeKey s.cmd.useMask s).1)
      ?_ (hlen ▸ hn) ?_ rfl rfl
    exacts [hidle, hcap]
  · refine exec_recv_of_frameBytes (op := s.cmd.opcode) (m := s.cmd.useMask) (k := (encodeKey s.cmd.useMask s).1)
      ?_ (hlen ▸ hn) ?_ (congrArg (· ++ rest) (bytes_ofBytes _))
    exacts [hidle, hcap]

end Sys2Proof.Machine
end

section
/-!
PROOFS. DECODE in an idle block: each answer of the decoder by the test that gives it, and what DECODE makes of it
(44_frame_decode.md R170, R172; 60_exceptions.md R212, R214).
-/

namespace Sys2Proof.Machine

/-! ### The decoder, test by test -/

theorem decodeFrame_of_short {b : Bool} {n : Nat} {raw : List Byte} (hn : n < 3) : decodeFrame b n raw = .malformed :=
  if_pos hn

/-- The two header bytes are read first. -/
theorem decodeFrame_of_missing_header {b : Bool} {n : Nat} {raw : List Byte} (hn : 3 ≤ n) (hraw : raw.length < 2) :
    decodeFrame b n raw = .refuse .noValue :=
  (if_neg (Nat.not_lt.mpr hn)).trans (if_pos hraw)

theorem decodeFrame_of_no_len64 {b : Bool} {n : Nat} {raw : List Byte} (hn : 3 ≤ n) (hraw : 2 ≤ raw.length)
    (h64 : (headerOf raw).len7 = 127#7 ∧ b = false) : decodeFrame b n raw = .refuse .len64Unspecified :=
  (if_neg (Nat.not_lt.mpr hn)).trans ((if_neg (Nat.not_lt.mpr hraw)).trans (if_pos h64))

/-- The test for a missing 64-bit capability fails in a block that has what the header needs. -/
theorem not_and_eq_false_of_imp {p : Prop} {b : Bool} (h : p → b = true) : ¬ (p ∧ b = false) :=
  fun ⟨hp, hb⟩ => by simp [h hp] at hb

/-- The extension ends before the payload begins (41_length_field.md R143). -/
theorem extension_end_le_poff (m : BitVec 1) (l : BitVec 7) : 2 + extn l ≤ poff m l :=
  Nat.le_add_right _ _

section Decoder
variable {b : Bool} {n : Nat} {raw : List Byte} (hn : 3 ≤ n) (hraw : 2 ≤ raw.length)
  (h64 : (headerOf raw).len7 = 127#7 → b = true)
include hn hraw h64

theorem decodeFrame_of_short_header (hext : n < 2 + extn (headerOf raw).len7) : decodeFrame b n raw = .malformed := by
  simp only [decodeFrame]
  rw [if_neg (Nat.not_lt.mpr hn), if_neg (Nat.not_lt.mpr hraw), if_neg (not_and_eq_false_of_imp h64), if_pos hext]

theorem decodeFrame_of_missing_extension (hext : 2 + extn (headerOf raw).len7 ≤ n)
    (hmiss : raw.length < 2 + extn (headerOf raw).len7) : decodeFrame b n raw = .refuse .noValue := by
  simp only [decodeFrame]
  rw [if_neg (Nat.not_lt.mpr hn), if_neg (Nat.not_lt.mpr hraw), if_neg (not_and_eq_false_of_imp h64),
    if_neg (Nat.not_lt.mpr hext), if_pos hmiss]

/-- The declared length is impossible, or does not give the buffer's size. -/
theorem decodeFrame_of_wrong_length (hext : 2 + extn (headerOf raw).len7 ≤ n)
    (hread : 2 + extn (headerOf raw).len7 ≤ raw.length)
    (hbad : 2 ^ 63 ≤ lengthOf raw ∨ n ≠ poff (headerOf raw).mask (headerOf raw).len7 + lengthOf raw) :
    decodeFrame b n raw = .malformed := by
  simp only [decodeFrame]
  rw [if_neg (Nat.not_lt.mpr hn), if_neg (Nat.not_lt.mpr hraw), if_neg (not_and_eq_false_of_imp h64),
    if_neg (Nat.not_lt.mpr hext), if_neg (Nat.not_lt.mpr hread)]
  by_cases hbig : 2 ^ 63 ≤ lengthOf raw
  · exact if_pos hbig
  · exact (if_neg hbig).trans (if_pos (hbad.resolve_left hbig))

section RightSize
variable (hread : 2 + extn (headerOf raw).len7 ≤ raw.length)
  (hsize : n = poff (headerOf raw).mask (headerOf raw).len7 + lengthOf raw)
include hread hsize

theorem decodeFrame_of_exceeds (hlen : lengthOf raw < 2 ^ 63) (hbig : Config.maxPayload < lengthOf raw) :
    decodeFrame b n raw = .refuse .payloadTooLarge := by
  have hpoff := extension_end_le_poff (headerOf raw).mask (headerOf raw).len7
  simp only [decodeFrame]
  rw [if_neg (Nat.not_lt.mpr hn), if_neg (Nat.not_lt.mpr hraw), if_neg (not_and_eq_false_of_imp h64),
    if_neg (by omega), if_neg (by omega), if_neg (by omega), if_neg (not_not.mpr hsize),
    if_pos ((exceedsPayload_iff _).mpr hbig)]

theorem decodeFrame_of_missing_bytes (hfit : lengthOf raw ≤ Config.maxPayload) (hmiss : raw.length < n) :
    decodeFrame b n raw = .refuse .noValue := by
  have hpoff := extension_end_le_poff (headerOf raw).mask (headerOf raw).len7
  have hmax := maxPayload_le
  simp only [decodeFrame]
  rw [if_neg (Nat.not_lt.mpr hn), if_neg (Nat.not_lt.mpr hraw), if_neg (not_and_eq_false_of_imp h64),
    if_neg (by omega), if_neg (by omega), if_neg (by omega), if_neg (not_not.mpr hsize),
    if_neg (not_exceedsPayload hfit), if_pos hmiss]

/-- A buffer that is all there and has the size its header gives is a frame: with a mask its four key bytes are there. -/
theorem decodeFrame_of_whole (hfit : lengthOf raw ≤ Config.maxPayload) (hwhole : n ≤ raw.length) :
    ∃ f, decodeFrame b n raw = .frame f := by
  have hpoff := extension_end_le_poff (headerOf raw).mask (headerOf raw).len7
  have hmax := maxPayload_le
  simp only [decodeFrame]
  rw [if_neg (Nat.not_lt.mpr hn), if_neg (Nat.not_lt.mpr hraw), if_neg (not_and_eq_false_of_imp h64),
    if_neg (by omega), if_neg (by omega), if_neg (by omega), if_neg (not_not.mpr hsize),
    if_neg (not_exceedsPayload hfit), if_neg (Nat.not_lt.mpr hwhole)]
  by_cases hm : (headerOf raw).mask = 1#1
  · have hkey : 6 ≤ poff (headerOf raw).mask (headerOf raw).len7 := by rw [hm, poff]; simp
    obtain ⟨k, hk⟩ := Option.isSome_iff_exists.mp
      (keyOf_isSome.mpr (show (slice raw (poff (headerOf raw).mask (headerOf raw).len7 - 4) 4).length = 4 by
        rw [slice_length]; omega))
    rw [if_pos hm, hk]
    exact ⟨_, rfl⟩
  · rw [if_neg hm]
    exact ⟨_, rfl⟩

end RightSize
end Decoder

/-! ### DECODE as the decoder answers -/

theorem decodeRaw_of_malformed {n : Nat} {raw : List Byte} {s : State}
    (h : decodeFrame s.hasLen64 n raw = .malformed) : decodeRaw n raw s = .next (raise .malformedPacket s) := by
  rw [decodeRaw, h]

theorem decodeRaw_of_refuse {n : Nat} {raw : List Byte} {s : State} {r : Refusal}
    (h : decodeFrame s.hasLen64 n raw = .refuse r) : decodeRaw n raw s = .refused r := by
  rw [decodeRaw, h]

theorem decodeRaw_of_frame {n : Nat} {raw : List Byte} {s : State} {f : DecodedFrame}
    (h : decodeFrame s.hasLen64 n raw = .frame f) : decodeRaw n raw s = .next (exposeFrame f s) := by
  rw [decodeRaw, h]

section Decode
variable {s : State} (hi : s.Idle)
include hi

theorem exec_decode_of_exceeds (hn : 14 + Config.maxPayload < s.cmd.len.toNat) :
    exec .decode s = .refused .payloadTooLarge := by
  simp only [exec, execDecode, admission_eq_none.mpr hi, if_pos ((exceedsRaw_iff s.cmd.len.toNat).mpr hn)]

theorem exec_decode_of_malformed (hn : s.cmd.len.toNat ≤ 14 + Config.maxPayload)
    (h : decodeFrame s.hasLen64 s.cmd.len.toNat (Memory.readUpTo s.rxi 0 s.cmd.len.toNat) = .malformed) :
    exec .decode s = .next (raise .malformedPacket (startReceive s)) :=
  (exec_decode_of_fits hi hn).trans (decodeRaw_of_malformed h)

theorem exec_decode_of_refuse {r : Refusal} (hn : s.cmd.len.toNat ≤ 14 + Config.maxPayload)
    (h : decodeFrame s.hasLen64 s.cmd.len.toNat (Memory.readUpTo s.rxi 0 s.cmd.len.toNat) = .refuse r) :
    exec .decode s = .refused r :=
  (exec_decode_of_fits hi hn).trans (decodeRaw_of_refuse h)

theorem exec_decode_of_frame {f : DecodedFrame} (hn : s.cmd.len.toNat ≤ 14 + Config.maxPayload)
    (h : decodeFrame s.hasLen64 s.cmd.len.toNat (Memory.readUpTo s.rxi 0 s.cmd.len.toNat) = .frame f) :
    exec .decode s = .next (exposeFrame f (startReceive s)) :=
  (exec_decode_of_fits hi hn).trans (decodeRaw_of_frame h)

end Decode

theorem raise_raised (e : ErrorCode) (s : State) : (raise e s).Raised e := ⟨rfl, rfl, rfl, rfl⟩

/-! ### The obligations on DECODE -/

/-- Settles O29: the decoder reads the fields of the raw frame back. -/
theorem decodeExposesTheFrame : Obligations.DecodeExposesTheFrame := by
  intro s h ext k payload hi hf h64 h3 hlen hraw
  have ⟨_, _, hfit⟩ := hf
  have hpoff := poff_le h.mask h.len7
  have hexec := exec_decode_of_frame (f := decodedFrame h k payload) hi (by omega)
    (by rw [hraw, hlen, decodeFrame_rawFrame hf h64 h3])
  exact ⟨_, hexec, exposeFrame_received hi.1 hfit h k, fun _ => rfl, rfl, receiveSideLeavesTheRest _ _ _ rfl hexec⟩

/-- Settles O31: the four conditions in the order in which the decoder tests them. -/
theorem decodeRaisesMalformedPacket : Obligations.DecodeRaisesMalformedPacket := by
  intro s raw hi h64 hlen hcap hread hbad
  have hmal : decodeFrame s.hasLen64 raw.length raw = .malformed := by
    rcases Nat.lt_or_ge raw.length 3 with hshort | h3
    · exact decodeFrame_of_short hshort
    have h2 : 2 ≤ raw.length := by omega
    rcases Nat.lt_or_ge raw.length (2 + extn (headerOf raw).len7) with hext | hext
    · exact decodeFrame_of_short_header h3 h2 (h64 h3) hext
    · exact decodeFrame_of_wrong_length h3 h2 (h64 h3) hext hext (by omega)
  have hexec := exec_decode_of_malformed hi (hlen ▸ hcap) (by rw [hread, hlen, hmal])
  exact ⟨_, hexec, raise_raised _ _, fun _ => rfl, rfl, receiveSideLeavesTheRest _ _ _ rfl hexec⟩

/-- Settles O32: the tests of the decoder in their order, on what the buffer holds. -/
theorem decodeRefusals : Obligations.DecodeRefusals := by
  intro s hi
  refine ⟨exec_decode_of_exceeds hi, fun hcap h3 raw hread => ⟨fun hraw => ?_, fun hraw hl hb => ?_,
    fun hraw hpart h64 => ?_, fun hwhole h64 hsize hlen => ?_⟩⟩
  all_goals subst hread
  · exact exec_decode_of_refuse hi hcap (decodeFrame_of_missing_header h3 hraw)
  · exact exec_decode_of_refuse hi hcap (decodeFrame_of_no_len64 h3 hraw ⟨hl, hb⟩)
  · split_ifs with hext hmiss hbad hbig
    · exact ⟨_, exec_decode_of_malformed hi hcap (decodeFrame_of_short_header h3 hraw h64 hext), raise_raised _ _⟩
    · exact exec_decode_of_refuse hi hcap
        (decodeFrame_of_missing_extension h3 hraw h64 (Nat.not_lt.mp hext) hmiss)
    · exact ⟨_, exec_decode_of_malformed hi hcap
        (decodeFrame_of_wrong_length h3 hraw h64 (Nat.not_lt.mp hext) (Nat.not_lt.mp hmiss) hbad), raise_raised _ _⟩
    all_goals
      rw [not_or, not_not] at hbad
      obtain ⟨hlen, hsize⟩ := hbad
    · exact exec_decode_of_refuse hi hcap
        (decodeFrame_of_exceeds h3 hraw h64 (Nat.not_lt.mp hmiss) hsize (Nat.not_le.mp hlen) hbig)
    · exact exec_decode_of_refuse hi hcap
        (decodeFrame_of_missing_bytes h3 hraw h64 (Nat.not_lt.mp hmiss) hsize (Nat.not_lt.mp hbig) hpart)
  · have hraw := h3.trans hwhole.ge
    have hext := (extension_end_le_poff _ _).trans ((Nat.le_add_right _ _).trans hsize.ge)
    split_ifs with hbig
    · exact exec_decode_of_refuse hi hcap
        (decodeFrame_of_exceeds h3 (by omega) h64 hext (hwhole.symm.trans hsize) hlen hbig)
    · obtain ⟨f, hf⟩ := decodeFrame_of_whole h3 (by omega) h64 hext (hwhole.symm.trans hsize) (Nat.not_lt.mp hbig)
        hwhole.ge
      exact ⟨_, exec_decode_of_frame hi hcap hf, rfl⟩

/-- A read sees no more of a buffer than the bytes it covers. -/
theorem readUpTo_congr {m m' : Memory} {n : Nat} :
    ∀ a, (∀ i, i < n → Memory.read m (a + i) = Memory.read m' (a + i)) →
      Memory.readUpTo m a n = Memory.readUpTo m' a n := by
  induction n with
  | zero => intro a _; rfl
  | succ n ih =>
    intro a h
    have hfirst : Memory.read m a = Memory.read m' a := h 0 (Nat.succ_pos n)
    have hrest := ih (a + 1) fun i hi => by
      simpa [Nat.add_assoc, Nat.add_comm 1 i] using h (i + 1) (Nat.succ_lt_succ hi)
    rw [Memory.readUpTo, Memory.readUpTo, hfirst, hrest]

/-- The key register is written exactly where the frame has a key. -/
theorem rxRegs_key_of_masked {b : Bool} {n : Nat} {raw : List Byte} {f : DecodedFrame}
    (hf : decodeFrame b n raw = .frame f) (hm : f.header.mask = 1#1) (old old' : FieldRegs) :
    (rxRegs old f).key = (rxRegs old' f).key := by
  obtain ⟨-, -, -, -, -, hkey, -⟩ := decodeFrame_frame hf
  obtain ⟨k, hk⟩ := Option.isSome_iff_exists.mp (hkey.mpr hm)
  rw [rxRegs, rxRegs, hk, Option.getD_some, Option.getD_some]

/-- Settles O33: both blocks read the same bytes, so the decoder gives them one answer. -/
theorem decodeDependsOnTheRawBytesAlone : Obligations.DecodeDependsOnTheRawBytesAlone := by
  intro s₁ s₂ hi₁ hi₂ hcap hlen hbytes
  have hread : Memory.readUpTo s₁.rxi 0 s₁.cmd.len.toNat = Memory.readUpTo s₂.rxi 0 s₂.cmd.len.toNat := by
    rw [← hlen]
    exact readUpTo_congr 0 fun i hlt => by rw [Nat.zero_add, hbytes i hlt]
  rcases Nat.lt_or_ge (14 + Config.maxPayload) s₁.cmd.len.toNat with hbig | hfit
  · rw [exec_decode_of_exceeds hi₁ hbig, exec_decode_of_exceeds hi₂ (hlen ▸ hbig)]
  have hfit₂ : s₂.cmd.len.toNat ≤ 14 + Config.maxPayload := hlen ▸ hfit
  have hsame : decodeFrame s₁.hasLen64 s₁.cmd.len.toNat (Memory.readUpTo s₁.rxi 0 s₁.cmd.len.toNat)
      = decodeFrame s₂.hasLen64 s₂.cmd.len.toNat (Memory.readUpTo s₂.rxi 0 s₂.cmd.len.toNat) := by
    rw [hcap, hread, hlen]
  cases hres : decodeFrame s₁.hasLen64 s₁.cmd.len.toNat (Memory.readUpTo s₁.rxi 0 s₁.cmd.len.toNat) with
  | malformed =>
    rw [exec_decode_of_malformed hi₁ hfit hres, exec_decode_of_malformed hi₂ hfit₂ (hsame.symm.trans hres)]
    exact ⟨rfl, rfl, fun hv => by cases hv⟩
  | refuse r => rw [exec_decode_of_refuse hi₁ hfit hres, exec_decode_of_refuse hi₂ hfit₂ (hsame.symm.trans hres)]
  | frame f =>
    rw [exec_decode_of_frame hi₁ hfit hres, exec_decode_of_frame hi₂ hfit₂ (hsame.symm.trans hres)]
    exact ⟨hi₁.1.trans hi₂.1.symm, rfl, fun _ => ⟨rfl, rfl, rfl, rfl, rfl, rfl,
      fun hm => rxRegs_key_of_masked hres hm _ _, fun _ => rfl⟩⟩

end Sys2Proof.Machine
end

section
/-!
PROOFS. Receiving a frame: RECV as the framer from the base header on, the framer on a stream that begins with a whole
frame from wherever it stopped, and the frame rows (44_frame_decode.md R175 to R177, R179; 45_opcodes.md R206).
-/

namespace Sys2Proof.Machine

/-! ### The rows of a header -/

/-- The operation of every frame row goes on from the bytes of its frame that have been taken. -/
theorem runFrame_of_progress {s : State} {b0 b1 : Byte} {taken : List Byte} (herr : s.err = .none)
    (hp : headerProgress b0 b1 s = some taken) (sh : Shape) :
    runFrame sh b0 b1 s = receiveFrom sh taken (startReceive s) := by
  simp only [runFrame, faulted_eq_false.mpr herr, Bool.false_eq_true, if_false, hp]

theorem headerProgress_of_atHeader {s : State} (h : s.recv = none ∨ s.recv = some []) (b0 b1 : Byte) :
    headerProgress b0 b1 s = some [b0, b1] := by
  rcases h with h | h <;> simp only [headerProgress, h]

/-- A held RECV of a frame that begins with this header goes on from what it has taken. -/
theorem headerProgress_of_held {s : State} {taken : List Byte} {b0 b1 : Byte} (h : s.recv = some taken)
    (ht : taken.take 2 = [b0, b1]) : headerProgress b0 b1 s = some taken := by
  cases taken with
  | nil => cases ht
  | cons c rest => simp only [headerProgress, h, if_pos ht]

theorem exec_opcodeRow (h : Header) (s : State) :
    exec (opcodeRow h) s = runFrame (shapeOf h.mask h.len7) (hpack h).1 (hpack h).2 s :=
  exec_of_mem_opcodeRows h _ (opcodeRow_mem h) s

theorem exec_shapeRow (b0 : Byte) (m : BitVec 1) (l : BitVec 7) (s : State) :
    exec (shapeRow b0 m l) s = runFrame (shapeOf m l) b0 (byteOne m l) s := by
  obtain ⟨lit, hlit, hmem⟩ := shapeRow_mem b0 m l
  exact exec_of_mem_shapeRows b0 lit hlit m l _ hmem s

theorem byteOne_hunpack (b0 b1 : Byte) : byteOne (hunpack b0 b1).mask (hunpack b0 b1).len7 = b1 := by
  simpa [shapeBytes] using shapeBytes_hunpack b0 b1

/-- Both rows that the decoder gives run the frame operation of the two header bytes (30_encoding.md R102). -/
theorem exec_rows_of_decode {b0 b1 : Byte} {q : List Byte} {d : Decoded} (hd : decode (b0 :: b1 :: q) = .ok d)
    (s : State) :
    exec d.opcodeRow s = runFrame (shapeOf (hunpack b0 b1).mask (hunpack b0 b1).len7) b0 b1 s
      ∧ exec d.shapeRow s = runFrame (shapeOf (hunpack b0 b1).mask (hunpack b0 b1).len7) b0 b1 s := by
  cases hd
  exact ⟨by rw [exec_opcodeRow, hpack_hunpack], by rw [exec_shapeRow, byteOne_hunpack]⟩

/-- RECV on at least two bytes takes the base header and receives the rest by its shape. -/
theorem exec_recv_of_header {s : State} (hi : s.Idle) (h : 2 ≤ s.rxq.length) :
    exec .recv s = receiveFrom (shapeOf (headerOf s.rxq).mask (headerOf s.rxq).len7) (s.rxq.take 2)
      { startReceive s with rxq := s.rxq.drop 2 } :=
  execRecv_long hi h

/-- Settles O10: RECV and both rows are the receiving of the rest of the frame after the two header bytes. -/
theorem recvIsTheRowsOfItsHeader : Obligations.RecvIsTheRowsOfItsHeader := by
  intro s b0 b1 q d hi hq hd
  have hrecv := exec_recv_of_header hi (by simp [hq])
  have hframe := runFrame_of_progress (s := { s with rxq := q }) hi.1
    (headerProgress_of_atHeader (.inl hi.2) b0 b1) (shapeOf (hunpack b0 b1).mask (hunpack b0 b1).len7)
  rw [hq] at hrecv hd
  obtain ⟨hop, hsh⟩ := exec_rows_of_decode hd { s with rxq := q }
  exact ⟨hrecv.trans (hop.trans hframe).symm, hrecv.trans (hsh.trans hframe).symm⟩

/-! ### What a held RECV fetches -/

theorem step_of_fetch {s s' : State} {i : Instr} (h : fetch s = some (i, s')) : step s = exec i s' := by
  simp only [step, h]

/-- Settles O7: the group of phase HDR is the two header bytes, which are in RXQ. -/
theorem heldReceiveRunsTheOpcodeRow : Obligations.HeldReceiveRunsTheOpcodeRow := by
  intro s b0 b1 q d hr hq hd
  have hresume : canResume [] s.rxq = true := decide_eq_true (by simp [hq, groupEnd, phaseOf])
  refine step_of_fetch ?_
  rw [hq] at hd hresume
  simp only [fetch, hr, hq, if_pos hresume, decodedOpcode, hd, Option.map_some, List.drop_succ_cons, List.drop_zero]

/-- Settles O8: the group the RECV waits for is in RXQ, and the header it has taken gives the row. -/
theorem heldReceiveRunsTheShapeRow : Obligations.HeldReceiveRunsTheShapeRow := by
  intro s b0 b1 u d hr hend hd
  have hresume : canResume (b0 :: b1 :: u) s.rxq = true := decide_eq_true hend
  refine step_of_fetch ?_
  simp only [fetch, hr, if_pos hresume, decodedShape, hd, Option.map_some]

/-! ### The framer on a stream that begins with a whole frame -/

/-- The framer cuts off a frame that is all there, from wherever in the frame it stopped. -/
theorem framer_of_whole {b : Bool} {S : List Byte} {p : Nat} (h2 : 2 ≤ p)
    (hp : p ≤ poff (headerOf S).mask (headerOf S).len7 + lengthOf S)
    (hS : poff (headerOf S).mask (headerOf S).len7 + lengthOf S ≤ S.length)
    (h16 : (headerOf S).len7 = 126#7 → lengthOf S ≠ 0) (h64 : (headerOf S).len7 = 127#7 → b = true)
    (hfit : lengthOf S ≤ Config.maxPayload) :
    framer b (shapeOf (headerOf S).mask (headerOf S).len7) (S.take p) (S.drop p)
      = .framed (S.take (poff (headerOf S).mask (headerOf S).len7 + lengthOf S))
          (S.drop (poff (headerOf S).mask (headerOf S).len7 + lengthOf S)) := by
  have hpoff := extension_end_le_poff (headerOf S).mask (headerOf S).len7
  have hmax := maxPayload_le
  have hcap : ¬ (extn (headerOf S).len7 = 8 ∧ b = false) := not_and_eq_false_of_imp fun hl => h64 (extn_eq_eight hl)
  have hnonzero : ¬ (extn (headerOf S).len7 = 2 ∧ lengthOf S = 0) := fun ⟨hl, hz⟩ => h16 (extn_eq_two hl) hz
  rw [framer_split b S p h2 (hp.trans hS), if_neg hcap, if_neg (by omega), if_neg hnonzero, if_neg (by omega),
    if_neg (not_exceedsPayload hfit), if_neg (by omega), if_neg (by omega), Nat.max_eq_right hp]

/-- The state in which a RECV of this frame ends. -/
def receivedState (h : Header) (ext : List Byte) (k : Key) (payload rest : List Byte) (s : State) : State :=
  exposeFrame (decodedFrame h k payload) (placeFrame (rawFrame h ext k payload) rest (startReceive s))

theorem receivedState_spec {s : State} {payload : List Byte} (herr : s.err = .none)
    (hfit : payload.length ≤ Config.maxPayload) (h : Header) (ext : List Byte) (k : Key) (rest : List Byte) :
    (receivedState h ext k payload rest s).Received h k payload ∧ (receivedState h ext k payload rest s).rxq = rest
      ∧ Memory.HoldsOver (receivedState h ext k payload rest s).rxi s.rxi (rawFrame h ext k payload)
      ∧ s.SameOutsideReceive (receivedState h ext k payload rest s) :=
  ⟨exposeFrame_received herr hfit h k, rfl, holdsOver_writeBytes _ _,
    rfl, rfl, rfl, fun _ => rfl, fun _ => rfl, fun _ => rfl, rfl, rfl, rfl, rfl, rfl, rfl, rfl⟩

section RawFrame
variable {h : Header} {ext payload : List Byte} {s : State}

/-- The end of a receive that has placed a raw frame. -/
theorem decodeRaw_of_placed (hf : FrameFits h ext payload) (h64 : h.len7 = 127#7 → s.hasLen64 = true)
    (h3 : 3 ≤ poff h.mask h.len7 + payload.length) (k : Key) (rest : List Byte) :
    decodeRaw (poff h.mask h.len7 + payload.length) (rawFrame h ext k payload)
      (placeFrame (rawFrame h ext k payload) rest (startReceive s)) = .next (receivedState h ext k payload rest s) :=
  decodeRaw_rawFrame (s := placeFrame (rawFrame h ext k payload) rest (startReceive s)) hf h64 h3 k

variable {rest : List Byte} {k : Key} (hf : FrameFits h ext payload) (h16 : h.len7 = 126#7 → payload ≠ [])
  (h64 : h.len7 = 127#7 → s.hasLen64 = true) (h3 : 3 ≤ poff h.mask h.len7 + payload.length)
include hf h16 h64 h3

/-- A receive that has taken the head of a raw frame completes with it. -/
theorem receiveFrom_of_rawFrame {taken : List Byte} (h2 : 2 ≤ taken.length)
    (hle : taken.length ≤ poff h.mask h.len7 + payload.length) (hq : taken ++ s.rxq = rawFrame h ext k payload ++ rest) :
    receiveFrom (shapeOf h.mask h.len7) taken (startReceive s) = .next (receivedState h ext k payload rest s) := by
  have ⟨he, _, hfit⟩ := hf
  have hall := rawFrame_length (payload := payload) he k
  have hwhole := framer_of_whole (b := s.hasLen64) (S := taken ++ s.rxq) h2
  rw [hq, headerOf_rawFrame_append, lengthOf_rawFrame_append hf, ← hall, List.take_left, List.drop_left, ← hq,
    List.take_left, List.drop_left] at hwhole
  have hframed := hwhole (hall ▸ hle) (by rw [hq, List.length_append]; omega)
    (fun hl hz => h16 hl (List.length_eq_zero_iff.mp hz)) h64 hfit
  simp only [receiveFrom, startReceive_hasLen64, startReceive_rxq, hframed, hall]
  exact decodeRaw_of_placed hf h64 h3 k rest

/-- A frame row receives the raw frame of its header, from its header on or from where a held RECV stopped. -/
theorem runFrame_of_rawFrame {taken : List Byte} (herr : s.err = .none)
    (ht : s.AtHeader ∧ taken = headerBytes h ∨ s.recv = some taken ∧ 2 ≤ taken.length)
    (hle : taken.length ≤ poff h.mask h.len7 + payload.length) (hq : taken ++ s.rxq = rawFrame h ext k payload ++ rest) :
    runFrame (shapeOf h.mask h.len7) (hpack h).1 (hpack h).2 s = .next (receivedState h ext k payload rest s) := by
  have hprogress : headerProgress (hpack h).1 (hpack h).2 s = some taken ∧ 2 ≤ taken.length := by
    rcases ht with ⟨⟨-, hr⟩, rfl⟩ | ⟨hr, h2⟩
    · exact ⟨headerProgress_of_atHeader hr _ _, le_refl 2⟩
    · refine ⟨headerProgress_of_held hr ?_, h2⟩
      have hhead := congrArg (List.take 2) hq
      rwa [List.take_append_of_le_length h2, rawFrame, List.append_assoc, List.append_assoc, List.append_assoc,
        List.take_left' (headerBytes_length h)] at hhead
  exact (runFrame_of_progress herr hprogress.1 _).trans (receiveFrom_of_rawFrame hf h16 h64 h3 hprogress.2 hle hq)

end RawFrame

/-! ### The obligations on whole frames -/

/-- Settles O35: RECV places the frame and the decoder exposes it. -/
theorem recvTakesOneFrame : Obligations.RecvTakesOneFrame := by
  intro s h ext k payload rest hi hf h16 h64 h3 hq
  have hexec := (exec_recv_of_rawFrame hi hf h16 h64 hq).trans (decodeRaw_of_placed hf h64 h3 k rest)
  exact ⟨_, hexec, receivedState_spec hi.1 hf.2.2 h ext k rest⟩

/-- Settles O36: the sixteen rows run one operation. -/
theorem opcodeRowsReceiveTheirFrame : Obligations.OpcodeRowsReceiveTheirFrame := by
  intro s h ext k payload rest taken i hmem herr ht hf h16 h64 h3 hle hq
  have hexec := (exec_of_mem_opcodeRows h i hmem s).trans (runFrame_of_rawFrame hf h16 h64 h3 herr ht hle hq)
  exact ⟨_, hexec, receivedState_spec herr hf.2.2 h ext k rest⟩

/-- Settles O37: a shape row runs the operation of the header that its byte 0, `mask` and `len7` make up. -/
theorem shapeRowsReceiveTheirFrame : Obligations.ShapeRowsReceiveTheirFrame := by
  intro s b0 len7 m l i ext k payload rest taken hlit hmem herr ht hf h16 h64 h3 hle hq
  have hframe := runFrame_of_rawFrame (h := hunpack b0 (byteOne m l)) (s := s) (k := k) (rest := rest) (taken := taken) hf
  rw [hpack_hunpack, headerBytes_hunpack, hunpack_byteOne_mask, hunpack_byteOne_len7] at hframe
  have hexec := (exec_of_mem_shapeRows b0 len7 hlit m l i hmem s).trans (hframe h16 h64 h3 herr ht hle hq)
  exact ⟨_, hexec, receivedState_spec herr hf.2.2 _ ext k rest⟩

theorem headerOf_append {raw : List Byte} (h : 2 ≤ raw.length) (rest : List Byte) :
    headerOf (raw ++ rest) = headerOf raw := by
  rw [← headerOf_take (raw ++ rest) raw.length h, List.take_left]

theorem lengthOf_append {raw : List Byte} (h : 2 + extn (headerOf raw).len7 ≤ raw.length) (rest : List Byte) :
    lengthOf (raw ++ rest) = lengthOf raw := by
  have hhead := headerOf_append (raw := raw) (by omega) rest
  rw [← lengthOf_take (raw ++ rest) raw.length (by rwa [hhead]), List.take_left]

/-- Settles O42: RECV cuts the same bytes off the stream and ends in the same decoder. -/
theorem decodeAndRecvAgree : Obligations.DecodeAndRecvAgree := by
  intro s t raw rest hi hrxi hlen hdec hv hzero
  obtain ⟨-, -, hraw⟩ := exec_decode_next hdec
  rw [hrxi, hlen, readUpTo_ofBytes] at hraw
  rcases decodeRaw_next hraw with rfl | ⟨f, hf, rfl⟩
  · cases hv
  obtain ⟨-, hfit, hsize, hhead, hflen, -, h3, -, h64⟩ := decodeFrame_frame hf
  rw [hhead] at hsize h64
  rw [hflen] at hsize hfit
  have hpoff := extension_end_le_poff (headerOf raw).mask (headerOf raw).len7
  have h16 : (headerOf raw).len7 = 126#7 → lengthOf raw ≠ 0 := fun hl hz =>
    hzero ⟨(congrArg Header.len7 hhead).trans hl, congrArg (BitVec.ofNat 64) (hflen.trans hz)⟩
  have hwhole := framer_of_whole (b := s.hasLen64) (S := raw ++ rest) (le_refl 2)
  rw [headerOf_append (by omega), lengthOf_append (by omega), ← hsize, List.take_left, List.drop_left] at hwhole
  have hframed := hwhole (by omega) (by simp) h16 h64 hfit
  have hrecv := execRecv_long (s := { s with rxq := raw ++ rest }) hi (by rw [List.length_append]; omega)
  dsimp only at hrecv
  rw [headerOf_append (by omega), hframed] at hrecv
  exact ⟨_, hrecv.trans (decodeRaw_of_frame hf), rfl, fun _ => rfl, rfl, rfl⟩

end Sys2Proof.Machine
end

section
/-!
PROOFS. RECV as a function of the whole stream: the outcome that `Extent` gives it, and a held RECV that later bytes
resume (20_memory.md R65, 44_frame_decode.md R177, R178).
-/

namespace Sys2Proof.Machine

/-! ### `Extent` by the tests of the framer -/

/-- A literal length is below every bound that the extensions are tested for. -/
theorem lengthOf_of_literal {q : List Byte} (h126 : (headerOf q).len7 ≠ 126#7) (h127 : (headerOf q).len7 ≠ 127#7) :
    lengthOf q < 2 ^ 63 := by
  rw [lengthOf, lext, if_neg h126, if_neg h127]
  have := (headerOf q).len7.isLt
  omega

theorem lengthOf_of_extension16 {q : List Byte} (h126 : (headerOf q).len7 = 126#7) : lengthOf q = beNat (slice q 2 2) := by
  rw [lengthOf, lext, h126]
  rfl

theorem lengthOf_of_extension64 {q : List Byte} (h127 : (headerOf q).len7 = 127#7) : lengthOf q = beNat (slice q 2 8) := by
  rw [lengthOf, lext, h127]
  rfl

/-- Sixteen bits spell no length of `2^63` or more. -/
theorem lengthOf_lt_of_extension16 {q : List Byte} (h126 : (headerOf q).len7 = 126#7) : lengthOf q < 2 ^ 63 := by
  rw [lengthOf_of_extension16 h126]
  have hbe := beNat_lt (slice q 2 2)
  have hpow : 256 ^ (slice q 2 2).length ≤ 256 ^ 2 := Nat.pow_le_pow_right (by decide) (by rw [slice_length]; omega)
  omega

/-- `Extent` on at least two bytes, with its tests in the order of the framer. -/
theorem extent_of_header {q : List Byte} (h2 : 2 ≤ q.length) (b : Bool) : extent b q =
    if extn (headerOf q).len7 = 8 ∧ b = false then .fault .unsupportedPlatform 2
    else if q.length < 2 + extn (headerOf q).len7 then .needMore
    else if extn (headerOf q).len7 = 2 ∧ lengthOf q = 0 then .fault .invalidExtendedLength (2 + extn (headerOf q).len7)
    else if 2 ^ 63 ≤ lengthOf q then .fault .malformedPacket (2 + extn (headerOf q).len7)
    else if exceedsPayload (lengthOf q) then .refuse .payloadTooLarge
    else if q.length < poff (headerOf q).mask (headerOf q).len7 + lengthOf q then .needMore
    else if poff (headerOf q).mask (headerOf q).len7 + lengthOf q < 3 then .fault .malformedPacket 2
    else .frame (poff (headerOf q).mask (headerOf q).len7 + lengthOf q) := by
  have hlong : ¬ q.length < 2 := Nat.not_lt.mpr h2
  have hlength : lext (headerOf q).len7 (slice q 2 (extn (headerOf q).len7)) = lengthOf q := rfl
  simp only [extent, if_neg hlong, hlength]
  by_cases h126 : (headerOf q).len7 = 126#7
  · have hsmall : ¬ 2 ^ 63 ≤ lengthOf q := Nat.not_le.mpr (lengthOf_lt_of_extension16 h126)
    rw [if_neg hsmall]
    simp [h126, show extn 126#7 = 2 from rfl, ← lengthOf_of_extension16 h126]
  by_cases h127 : (headerOf q).len7 = 127#7
  · simp [h127, show extn 127#7 = 8 from rfl, ← lengthOf_of_extension64 h127]
  · have hsmall : ¬ 2 ^ 63 ≤ lengthOf q := Nat.not_le.mpr (lengthOf_of_literal h126 h127)
    have hext : extn (headerOf q).len7 = 0 := by rw [extn, if_neg h126, if_neg h127]
    rw [if_neg hsmall]
    simp [h126, h127, hext, hlong]

/-! ### RECV by the outcomes of `Extent` -/

/-- RECV as `Extent` with this result has it (44_frame_decode.md R178). -/
def State.RecvHas (s : State) : ExtentResult → Prop
  | .needMore => ∃ (t : State) (u : List Byte), exec .recv s = .next t ∧ t.recv = some u ∧ u ++ t.rxq = s.rxq
      ∧ t.rxPos.toNat = u.length ∧ t.rxv = false ∧ t.err = .none ∧ Memory.Same t.rxi s.rxi ∧ s.SameOutsideReceive t
  | .fault e consumed =>
    ∃ t, exec .recv s = .next t ∧ t.Raised e ∧ t.rxq = s.rxq.drop consumed ∧ s.SameOutsideReceive t
  | .refuse r => exec .recv s = .refused r
  | .frame total => ∃ t, exec .recv s = .next t ∧ t.rxv = true ∧ t.rxq = s.rxq.drop total
      ∧ Memory.HoldsOver t.rxi s.rxi (s.rxq.take total) ∧ s.SameOutsideReceive t
      ∧ exec .decode { s with rxi := Memory.writeBytes s.rxi 0 (s.rxq.take total), rxq := s.rxq.drop total,
                              cmd := { s.cmd with len := BitVec.ofNat 64 total } }
        = .next { t with cmd := { s.cmd with len := BitVec.ofNat 64 total } }

section RecvHas
variable {s : State}

/-- A hold with `c` bytes taken loses none. -/
theorem recvHas_needMore (herr : s.err = .none) {c : Nat} (hc : c ≤ s.rxq.length) (h14 : c ≤ 14)
    (h : exec .recv s = .next (holdReceive (s.rxq.take c) (s.rxq.drop c) (startReceive s))) : s.RecvHas .needMore := by
  refine ⟨_, s.rxq.take c, h, rfl, List.take_append_drop c s.rxq, ?_, rfl, herr, fun _ => rfl,
    receiveSideLeavesTheRest _ _ _ rfl h⟩
  rw [holdReceive_rxPos, List.length_take, Nat.min_eq_left hc, BitVec.toNat_ofNat, Nat.mod_eq_of_lt (by omega)]

theorem recvHas_fault {e : ErrorCode} {consumed : Nat} {m : Memory}
    (h : exec .recv s = .next (raise e { startReceive s with rxq := s.rxq.drop consumed, rxi := m })) :
    s.RecvHas (.fault e consumed) :=
  ⟨_, h, raise_raised _ _, rfl, receiveSideLeavesTheRest _ _ _ rfl h⟩

/-- DECODE of bytes that have been written into RXI. -/
theorem exec_decode_of_written {m : Memory} {raw : List Byte} {f : DecodedFrame} (hi : s.Idle)
    (hrxi : s.rxi = Memory.writeBytes m 0 raw) (hlen : s.cmd.len = BitVec.ofNat 64 raw.length)
    (hcap : raw.length ≤ 14 + Config.maxPayload) (hf : decodeFrame s.hasLen64 raw.length raw = .frame f) :
    exec .decode s = .next (exposeFrame f (startReceive s)) := by
  have hmax := maxPayload_le
  have hlen' : s.cmd.len.toNat = raw.length := by rw [hlen, BitVec.toNat_ofNat, Nat.mod_eq_of_lt (by omega)]
  exact exec_decode_of_frame hi (hlen'.trans_le hcap) (by rw [hlen', hrxi, readUpTo_writeBytes, hf])

/-- A RECV that frames `total` bytes the decoder accepts is DECODE of them where they were placed. -/
theorem recvHas_frame (hi : s.Idle) {total : Nat} (hlen : (s.rxq.take total).length = total)
    (hcap : total ≤ 14 + Config.maxPayload) {f : DecodedFrame}
    (hf : decodeFrame s.hasLen64 total (s.rxq.take total) = .frame f)
    (h : exec .recv s = decodeRaw total (s.rxq.take total)
      (placeFrame (s.rxq.take total) (s.rxq.drop total) (startReceive s))) : s.RecvHas (.frame total) := by
  have hrecv := h.trans (decodeRaw_of_frame hf)
  refine ⟨_, hrecv, rfl, rfl, holdsOver_writeBytes _ _, receiveSideLeavesTheRest _ _ _ rfl hrecv, ?_⟩
  exact exec_decode_of_written (raw := s.rxq.take total) hi rfl (by rw [hlen]) (by rwa [hlen]) (by rwa [hlen])

end RecvHas

/-- The decoder accepts the whole frame at the head of a stream. -/
theorem decodeFrame_take_of_whole {b : Bool} {S : List Byte}
    (h3 : 3 ≤ poff (headerOf S).mask (headerOf S).len7 + lengthOf S)
    (hS : poff (headerOf S).mask (headerOf S).len7 + lengthOf S ≤ S.length)
    (h64 : (headerOf S).len7 = 127#7 → b = true) (hfit : lengthOf S ≤ Config.maxPayload) :
    ∃ f, decodeFrame b (poff (headerOf S).mask (headerOf S).len7 + lengthOf S)
      (S.take (poff (headerOf S).mask (headerOf S).len7 + lengthOf S)) = .frame f := by
  have hpoff := extension_end_le_poff (headerOf S).mask (headerOf S).len7
  generalize htotal : poff (headerOf S).mask (headerOf S).len7 + lengthOf S = total at *
  have hhead : headerOf (S.take total) = headerOf S := headerOf_take S total (by omega)
  have hlen : lengthOf (S.take total) = lengthOf S := lengthOf_take S total (by omega)
  have hall : (S.take total).length = total := List.length_take_of_le hS
  exact decodeFrame_of_whole h3 (by omega) (by rwa [hhead]) (by rw [hhead]; omega) (by rw [hhead, hlen, htotal])
    (by rwa [hlen]) hall.ge

/-- The framer's answer and `Extent` agree test by test; of a frame that is all there only the decoder asks whether it
has three bytes. -/
theorem exec_recv_has_extent {s : State} (hi : s.Idle) : s.RecvHas (extent s.hasLen64 s.rxq) := by
  rcases Nat.lt_or_ge s.rxq.length 2 with hshort | h2
  · rw [extent, if_pos hshort]
    exact recvHas_needMore (c := 0) hi.1 (Nat.zero_le _) (Nat.zero_le _) (execRecv_short hi hshort)
  have hrecv := execRecv_long hi h2
  have hpoff := extension_end_le_poff (headerOf s.rxq).mask (headerOf s.rxq).len7
  have h14 := poff_le (headerOf s.rxq).mask (headerOf s.rxq).len7
  have hgroup : ∀ n, 2 ≤ n → max 2 n = n := fun _ => Nat.max_eq_right
  rw [framer_split _ _ 2 (le_refl 2) h2, hgroup _ (by omega), hgroup _ (by omega), hgroup _ (by omega)] at hrecv
  rw [extent_of_header h2]
  split_ifs with hcap hext hzero hbig hexc hbody hsize
  · rw [if_pos hcap] at hrecv
    exact recvHas_fault hrecv
  all_goals rw [if_neg hcap] at hrecv
  · rw [if_pos hext] at hrecv
    exact recvHas_needMore hi.1 h2 (by decide) hrecv
  all_goals rw [if_neg hext] at hrecv
  · rw [if_pos hzero] at hrecv
    exact recvHas_fault hrecv
  all_goals rw [if_neg hzero] at hrecv
  · rw [if_pos hbig] at hrecv
    exact recvHas_fault hrecv
  all_goals rw [if_neg hbig] at hrecv
  · rw [if_pos hexc] at hrecv
    exact hrecv
  all_goals rw [if_neg hexc] at hrecv
  · by_cases hkey : s.rxq.length < poff (headerOf s.rxq).mask (headerOf s.rxq).len7
    · rw [if_pos hkey] at hrecv
      exact recvHas_needMore hi.1 (Nat.not_lt.mp hext) (hpoff.trans h14) hrecv
    · rw [if_neg hkey, if_pos hbody] at hrecv
      exact recvHas_needMore hi.1 (Nat.not_lt.mp hkey) h14 hrecv
  all_goals
    rw [if_neg (by omega), if_neg hbody] at hrecv
    simp only [List.length_take, Nat.min_eq_left (Nat.not_lt.mp hbody)] at hrecv
  · rw [decodeRaw_of_short hsize] at hrecv
    rw [show poff (headerOf s.rxq).mask (headerOf s.rxq).len7 + lengthOf s.rxq = 2 by omega] at hrecv
    exact recvHas_fault hrecv
  · have h64 : (headerOf s.rxq).len7 = 127#7 → s.hasLen64 = true := fun hl => by
      simpa [hl, show extn 127#7 = 8 from rfl] using hcap
    rw [exceedsPayload_iff, Nat.not_lt] at hexc
    obtain ⟨f, hf⟩ := decodeFrame_take_of_whole (Nat.not_lt.mp hsize) (Nat.not_lt.mp hbody) h64 hexc
    exact recvHas_frame hi (List.length_take_of_le (Nat.not_lt.mp hbody)) (by omega) hf hrecv

/-- Settles O40: the tests of `Extent` and of the framer, one after the other. -/
theorem recvAgreesWithExtent : Obligations.RecvAgreesWithExtent := by
  intro s hi
  have h := exec_recv_has_extent hi
  cases hx : extent s.hasLen64 s.rxq <;> rw [hx] at h <;> exact h

end Sys2Proof.Machine
end

section
/-!
PROOFS. A held RECV that later bytes resume ends as one RECV over all the bytes, and goes on holding while the group it
waits for is not complete (20_memory.md R65, 44_frame_decode.md R177).
-/

namespace Sys2Proof.Machine

/-! ### The group that a framer waits for -/

section GroupEnd
variable {S : List Byte} {p : Nat} (h2 : 2 ≤ p) (hp : p ≤ S.length)
include h2 hp

theorem groupEnd_of_extension (hext : p < 2 + extn (headerOf S).len7) :
    groupEnd (S.take p) = 2 + extn (headerOf S).len7 := by
  have hlen : (S.take p).length = p := List.length_take_of_le hp
  have hphase : phaseOf (S.take p) = .ext := by
    rw [phaseOf, headerOf_take S p h2, hlen, if_neg (Nat.not_lt.mpr h2), if_pos hext]
  rw [groupEnd, hphase, headerOf_take S p h2]

theorem groupEnd_of_key (hext : 2 + extn (headerOf S).len7 ≤ p)
    (hkey : p < poff (headerOf S).mask (headerOf S).len7) :
    groupEnd (S.take p) = poff (headerOf S).mask (headerOf S).len7 := by
  have hlen : (S.take p).length = p := List.length_take_of_le hp
  have hphase : phaseOf (S.take p) = .key := by
    rw [phaseOf, headerOf_take S p h2, hlen, if_neg (Nat.not_lt.mpr h2), if_neg (Nat.not_lt.mpr hext), if_pos hkey]
  rw [groupEnd, hphase, headerOf_take S p h2]

theorem groupEnd_of_payload (hkey : poff (headerOf S).mask (headerOf S).len7 ≤ p) :
    groupEnd (S.take p) = poff (headerOf S).mask (headerOf S).len7 + lengthOf S := by
  have hpoff := extension_end_le_poff (headerOf S).mask (headerOf S).len7
  have hlen : (S.take p).length = p := List.length_take_of_le hp
  have hext : 2 + extn (headerOf S).len7 ≤ p := hpoff.trans hkey
  have hphase : phaseOf (S.take p) = .payload := by
    rw [phaseOf, headerOf_take S p h2, hlen, if_neg (Nat.not_lt.mpr h2), if_neg (Nat.not_lt.mpr hext),
      if_neg (Nat.not_lt.mpr hkey)]
  rw [groupEnd, hphase, headerOf_take S p h2, lengthOf_take S p hext]

end GroupEnd

/-- A framer that holds has only moved its cursor. -/
theorem framer_hold_split {b : Bool} {S u q : List Byte} {p : Nat} (h2 : 2 ≤ p) (hp : p ≤ S.length)
    (hh : framer b (shapeOf (headerOf S).mask (headerOf S).len7) (S.take p) (S.drop p) = .hold u q) :
    ∃ c, p ≤ c ∧ c ≤ S.length ∧ u = S.take c ∧ q = S.drop c := by
  rw [framer_split b S p h2 hp] at hh
  split_ifs at hh <;> cases hh
  · exact ⟨p, le_refl p, hp, rfl, rfl⟩
  all_goals exact ⟨_, Nat.le_max_left _ _, by omega, rfl, rfl⟩

/-- A framer that held goes on holding with the bytes it has while its group is not complete. -/
theorem framer_holds_of_not_canResume {b : Bool} {S T u q : List Byte} (h2 : 2 ≤ S.length)
    (hh : framer b (shapeOf (headerOf S).mask (headerOf S).len7) (S.take 2) (S.drop 2) = .hold u q)
    (hc : canResume u (q ++ T) = false) :
    framer b (shapeOf (headerOf S).mask (headerOf S).len7) (S.take 2) (S.drop 2 ++ T) = .hold u (q ++ T) := by
  have hpoff := extension_end_le_poff (headerOf S).mask (headerOf S).len7
  have hgroup : ∀ n, 2 ≤ n → max 2 n = n := fun _ => Nat.max_eq_right
  have hlong : (S ++ T).length = S.length + T.length := List.length_append
  have split_at : ∀ c, c ≤ S.length → S.take c = (S ++ T).take c ∧ S.drop c ++ T = (S ++ T).drop c := fun c hle =>
    ⟨(List.take_append_of_le_length hle).symm, (List.drop_append_of_le_length hle).symm⟩
  have waits : ∀ c, c ≤ S.length → u = S.take c → q = S.drop c → (S ++ T).length < groupEnd (S.take c) := by
    rintro c hle rfl rfl
    simpa [canResume, hle, Nat.add_sub_cancel' hle, ← Nat.add_assoc] using hc
  have whole := framer_split b (S ++ T) 2 (le_refl 2) (by omega)
  rw [← (split_at 2 h2).1, ← (split_at 2 h2).2, headerOf_append h2, hgroup _ (by omega), hgroup _ (by omega)] at whole
  rw [whole]
  rw [framer_split b S 2 (le_refl 2) h2, hgroup _ (by omega), hgroup _ (by omega)] at hh
  split_ifs at hh with hcap hext hzero hbig hexc hkey hbody
  · cases hh
    have hend := waits 2 h2 rfl rfl
    rw [groupEnd_of_extension (le_refl 2) h2 (by omega)] at hend
    rw [if_neg hcap, if_pos hend]
  all_goals
    have hext' : 2 + extn (headerOf S).len7 ≤ S.length := Nat.not_lt.mp hext
    rw [lengthOf_append hext', if_neg hcap, if_neg (by omega), if_neg hzero, if_neg hbig, if_neg hexc]
  · cases hh
    have hend := waits _ hext' rfl rfl
    rw [groupEnd_of_key (by omega) hext' (le_refl _) (by omega)] at hend
    rw [if_pos hend, ← (split_at _ hext').1, ← (split_at _ hext').2]
  · cases hh
    have hkey' : poff (headerOf S).mask (headerOf S).len7 ≤ S.length := Nat.not_lt.mp hkey
    have hend := waits _ hkey' rfl rfl
    rw [groupEnd_of_payload (by omega) hkey' (le_refl _)] at hend
    rw [if_neg (by omega), if_pos hend, ← (split_at _ hkey').1, ← (split_at _ hkey').2]

/-! ### RECV that holds and is resumed -/

/-- A receive overwrites RXQ and the RECV in progress, so it depends on them by the framer's answer alone. -/
theorem receiveFrom_congr {sh : Shape} {taken taken' q q' : List Byte} {s : State}
    (h : framer s.hasLen64 sh taken q = framer s.hasLen64 sh taken' q') (r r' : Option (List Byte)) :
    receiveFrom sh taken { s with rxq := q, recv := r } = receiveFrom sh taken' { s with rxq := q', recv := r' } := by
  simp only [receiveFrom, h]
  cases framer s.hasLen64 sh taken' q' with
  | hold u p => rfl
  | raised e p => rfl
  | refuse e => rfl
  | framed raw p =>
    simp only [decodeRaw, placeFrame_hasLen64]
    cases decodeFrame s.hasLen64 raw.length raw <;> rfl

/-- RECV holds before its header, or where the framer holds. -/
theorem exec_recv_holds {s t : State} {u : List Byte} (h : exec .recv s = .next t) (hr : t.recv = some u) :
    (u = [] ∧ s.rxq.length < 2 ∧ t = holdReceive [] s.rxq (startReceive s))
    ∨ 2 ≤ s.rxq.length ∧ ∃ q, t = holdReceive u q (startReceive s)
      ∧ framer s.hasLen64 (shapeOf (headerOf s.rxq).mask (headerOf s.rxq).len7) (s.rxq.take 2) (s.rxq.drop 2)
        = .hold u q := by
  have hi := (exec_recv_next h).1
  rcases Nat.lt_or_ge s.rxq.length 2 with hshort | h2
  · rw [execRecv_short hi hshort] at h
    cases h
    cases hr
    exact .inl ⟨rfl, hshort, rfl⟩
  rw [execRecv_long hi h2] at h
  split at h
  case h_1 u' q hh =>
    cases h
    cases hr
    exact .inr ⟨h2, q, rfl, hh⟩
  case h_2 => cases h; cases hr
  case h_3 => cases h
  case h_4 => rcases decodeRaw_next h with rfl | ⟨f, -, rfl⟩ <;> cases hr

section Held
variable {t : State} (herr : t.err = .none)
include herr

/-- A RECV that held before its header takes it, once it has come, and receives the rest by its shape. -/
theorem step_of_held_before_header (hr : t.recv = some []) (h2 : 2 ≤ t.rxq.length) :
    step t = receiveFrom (shapeOf (headerOf t.rxq).mask (headerOf t.rxq).len7) (t.rxq.take 2)
      { startReceive t with rxq := t.rxq.drop 2 } := by
  match hq : t.rxq, h2 with
  | b0 :: b1 :: q, _ =>
    have hd : decode (b0 :: b1 :: q) = .ok _ := rfl
    have hstep := heldReceiveRunsTheOpcodeRow t b0 b1 q _ hr hq (hq ▸ hd)
    obtain ⟨hop, -⟩ := exec_rows_of_decode hd { t with rxq := q }
    exact hstep.trans (hop.trans (runFrame_of_progress (s := { t with rxq := q }) herr
      (headerProgress_of_atHeader (.inr hr) b0 b1) _))

/-- A RECV that held past its header goes on from the bytes it has taken, once the group it waits for has come. -/
theorem step_of_held_past_header {u : List Byte} (hr : t.recv = some u) (h2 : 2 ≤ u.length)
    (hc : canResume u t.rxq = true) :
    step t = receiveFrom (shapeOf (headerOf u).mask (headerOf u).len7) u (startReceive t) := by
  match u, h2 with
  | b0 :: b1 :: v, _ =>
    have hd : decode (b0 :: b1 :: v) = .ok _ := rfl
    have hstep := heldReceiveRunsTheShapeRow t b0 b1 v _ hr (of_decide_eq_true hc) hd
    obtain ⟨-, hsh⟩ := exec_rows_of_decode hd t
    exact hstep.trans (hsh.trans (runFrame_of_progress herr (headerProgress_of_held hr rfl) _))

end Held

/-- Settles O41: by where the RECV holds. Before its header it waits for two bytes; past it, the framer over all the
bytes passes through the point where it held. -/
theorem heldRecvResumesAsOneRecv : Obligations.HeldRecvResumesAsOneRecv := by
  intro s t q₁ q₂ u hi h hr
  rcases exec_recv_holds h hr with ⟨rfl, -, rfl⟩ | ⟨h2, q, rfl, hh⟩
  · have hwaits : canResume [] (q₁ ++ q₂) = true ↔ 2 ≤ (q₁ ++ q₂).length := by simp [canResume, groupEnd, phaseOf]
    split
    case isTrue hc =>
      have hrecv := exec_recv_of_header (s := { s with rxq := q₁ ++ q₂ }) hi (hwaits.mp hc)
      have hstep := step_of_held_before_header (t := { holdReceive [] q₁ (startReceive s) with rxq := q₁ ++ q₂ }) hi.1
        rfl (hwaits.mp hc)
      exact hstep.trans ((receiveFrom_congr (s := startReceive s) rfl _ _).trans hrecv.symm)
    case isFalse hc => exact execRecv_short (s := { s with rxq := q₁ ++ q₂ }) hi (Nat.not_le.mp (mt hwaits.mpr hc))
  have hrecv := exec_recv_of_header (s := { s with rxq := q₁ ++ q₂ }) hi
    (h2.trans (by rw [List.length_append]; exact Nat.le_add_right _ _))
  dsimp only at h2 hh hrecv
  rw [headerOf_append h2, List.take_append_of_le_length h2, List.drop_append_of_le_length h2] at hrecv
  split
  case isTrue hc =>
    obtain ⟨c, hc2, hcle, rfl, rfl⟩ := framer_hold_split (le_refl 2) h2 hh
    have hstep := step_of_held_past_header
      (t := { holdReceive (q₁.take c) (q₁.drop c) (startReceive s) with rxq := q₁.drop c ++ q₂ }) hi.1 rfl
      (by rwa [List.length_take_of_le hcle]) hc
    rw [headerOf_take q₁ c hc2] at hstep
    have hresume := framer_resume s.hasLen64 q₁ 2 (le_refl 2) h2 q₂ _ _ hh
    exact hstep.trans ((receiveFrom_congr (s := startReceive s) hresume _ _).trans hrecv.symm)
  case isFalse hc =>
    have hholds := framer_holds_of_not_canResume h2 hh (Bool.eq_false_of_not_eq_true hc)
    rw [hrecv]
    simp only [receiveFrom, startReceive_hasLen64, hholds]
    rfl

end Sys2Proof.Machine
end

section
/-!
PROOFS. The errors of the stream path and the refusals of a busy block: what RECV raises and under which conditions
(60_exceptions.md R212, R213, R215, R218), and what a held RECV refuses (60_exceptions.md R214, 20_memory.md R71).
-/

namespace Sys2Proof.Machine

/-! ### The operations while a RECV holds -/

/-- A frame row of another header than the one in progress is refused (log 5). -/
theorem runFrame_of_other_header {s : State} {taken : List Byte} {b0 b1 : Byte} (herr : s.err = .none)
    (hr : s.recv = some taken) (hbegun : taken ≠ []) (hother : taken.take 2 ≠ [b0, b1]) (sh : Shape) :
    runFrame sh b0 b1 s = .refused .busy := by
  cases taken with
  | nil => exact absurd rfl hbegun
  | cons c rest =>
    have hprogress : headerProgress b0 b1 s = none := by simp only [headerProgress, hr, if_neg hother]
    simp only [runFrame, faulted_eq_false.mpr herr, Bool.false_eq_true, if_false, hprogress]

/-- Settles O46: an operation by its admission, a frame row by the header in progress. -/
theorem busyRefusesEveryOperationButReset : Obligations.BusyRefusesEveryOperationButReset := by
  intro s taken herr hr
  have busy : ∀ k, k ≠ .reset → exec (commandInstr k) s = .refused .busy := fun _ hk =>
    exec_command_of_not_admitted hk (admission_of_held herr hr)
  refine ⟨busy .encode (by decide), busy .decode (by decide), busy .recv (by decide), busy .xmask (by decide),
    exec_write_of_not_admitted (admission_of_held herr hr), fun h i hmem hbegun hother => ?_,
    fun b0 len7 m l i hlit hmem hbegun hother => ?_⟩
  · exact (exec_of_mem_opcodeRows h i hmem s).trans (runFrame_of_other_header herr hr hbegun hother _)
  · exact (exec_of_mem_shapeRows b0 len7 hlit m l i hmem s).trans (runFrame_of_other_header herr hr hbegun hother _)

/-! ### The faults of `Extent` -/

section ExtentFaults
variable {q : List Byte}

theorem extent_of_zero_extension16 (hl : (headerOf q).len7 = 126#7) (h4 : 4 ≤ q.length) (hzero : lengthOf q = 0)
    (b : Bool) : extent b q = .fault .invalidExtendedLength 4 := by
  rw [extent_of_header (by omega), hl, hzero, show extn 126#7 = 2 from rfl, if_neg (by omega), if_neg (by omega),
    if_pos ⟨rfl, rfl⟩]

theorem extent_of_missing_capability (hl : (headerOf q).len7 = 127#7) (h2 : 2 ≤ q.length) :
    extent false q = .fault .unsupportedPlatform 2 := by
  rw [extent_of_header h2, hl, if_pos ⟨rfl, rfl⟩]

theorem extent_of_impossible_length (hl : (headerOf q).len7 = 127#7) (h10 : 10 ≤ q.length)
    (hbig : 2 ^ 63 ≤ lengthOf q) : extent true q = .fault .malformedPacket 10 := by
  rw [extent_of_header (by omega), hl, show extn 127#7 = 8 from rfl, if_neg (by simp), if_neg (by omega),
    if_neg (by omega), if_pos hbig]

/-- A frame of two bytes is shorter than any that the decoder takes (44_frame_decode.md R175). -/
theorem extent_of_empty_unmasked (hl : (headerOf q).len7 = 0#7) (hm : (headerOf q).mask = 0#1) (h2 : 2 ≤ q.length)
    (b : Bool) : extent b q = .fault .malformedPacket 2 := by
  have hempty : lengthOf q = 0 := by
    rw [lengthOf, hl, lext_of_literal (by decide)]
    rfl
  rw [extent_of_header h2, hl, hm, hempty, show extn 0#7 = 0 from rfl, show poff 0#1 0#7 = 2 from rfl,
    if_neg (by omega), if_neg (by omega), if_neg (by omega), if_neg (by omega),
    if_neg (not_exceedsPayload (Nat.zero_le _)), if_neg (by omega), if_pos (by omega)]

end ExtentFaults

/-- RECV raises the fault of `Extent`, with the bytes it consumes and nothing outside the receive side changed. -/
theorem exec_recv_of_extent_fault {s : State} (hi : s.Idle) {e : ErrorCode} {consumed : Nat}
    (hx : extent s.hasLen64 s.rxq = .fault e consumed) :
    ∃ t, exec .recv s = .next t ∧ t.Raised e ∧ t.rxq = s.rxq.drop consumed ∧ s.SameOutsideReceive t := by
  have h := exec_recv_has_extent hi
  rwa [hx] at h

/-- Settles O39: each error is a fault of `Extent`. -/
theorem recvRaises : Obligations.RecvRaises := by
  intro s b0 b1 q hi hq
  have hhead : headerOf s.rxq = hunpack b0 b1 := by rw [hq]; rfl
  have h2 : 2 ≤ s.rxq.length := by simp [hq]
  rw [← hhead]
  refine ⟨fun r hl hr => ?_, fun hl h64 => ?_, fun e r hl h64 hr he hbig => ?_, fun hl hm => ?_⟩
  · have hzero : lengthOf s.rxq = 0 := by
      rw [lengthOf_of_extension16 hl, hq, hr]
      simp [slice, beNat]
    have h := exec_recv_of_extent_fault hi (extent_of_zero_extension16 hl (by simp [hq, hr]) hzero _)
    rwa [hq, hr] at h
  · have h := exec_recv_of_extent_fault hi (h64 ▸ extent_of_missing_capability hl h2)
    rwa [hq] at h
  · have hlength : lengthOf s.rxq = beNat e := by
      rw [lengthOf_of_extension64 hl, hq, hr]
      exact congrArg beNat (List.take_left' he)
    have hdrop : s.rxq.drop 10 = r := by
      rw [hq, hr]
      exact List.drop_left' he
    have h := exec_recv_of_extent_fault hi
      (h64 ▸ extent_of_impossible_length hl (by simp [hq, hr, he]) (hlength ▸ hbig))
    rwa [hdrop] at h
  · have h := exec_recv_of_extent_fault hi (extent_of_empty_unmasked hl hm h2 _)
    rwa [hq] at h

/-! ### The conditions of an error -/

/-- RECV ends in an error by the framer's tests, or in MalformedPacket. -/
theorem exec_recv_error {s t : State} (h : exec .recv s = .next t) (hne : t.err ≠ .none) :
    2 ≤ s.rxq.length ∧ ((t.err = .unsupportedPlatform ∧ (headerOf s.rxq).len7 = 127#7 ∧ s.hasLen64 = false)
      ∨ (t.err = .invalidExtendedLength ∧ (headerOf s.rxq).len7 = 126#7 ∧ lengthOf s.rxq = 0 ∧ 4 ≤ s.rxq.length)
      ∨ t.err = .malformedPacket) := by
  obtain ⟨hi, -⟩ := exec_recv_next h
  rcases Nat.lt_or_ge s.rxq.length 2 with hshort | h2
  · rw [execRecv_short hi hshort] at h
    cases h
    exact absurd hi.1 hne
  refine ⟨h2, ?_⟩
  rw [execRecv_long hi h2] at h
  split at h
  case h_1 => cases h; exact absurd hi.1 hne
  case h_2 hf => cases h; exact framer_raised h2 hf
  case h_3 => cases h
  case h_4 =>
    rcases decodeRaw_next h with rfl | ⟨f, -, rfl⟩
    · exact .inr (.inr rfl)
    · exact absurd hi.1 hne

/-- A stream whose header declares a 16-bit extension of length 0 begins with the header and two zero bytes. -/
theorem zero_bytes_of_zero_extension16 {q : List Byte} (h4 : 4 ≤ q.length) (hl : (headerOf q).len7 = 126#7)
    (hzero : lengthOf q = 0) : ∃ b0 b1 r, q = b0 :: b1 :: 0#8 :: 0#8 :: r ∧ (hunpack b0 b1).len7 = 126#7 := by
  rw [lengthOf_of_extension16 hl] at hzero
  match q, h4 with
  | b0 :: b1 :: e0 :: e1 :: r, _ =>
    have hsum : e0.toNat * 256 + e1.toNat = 0 := (beNat_pair e0 e1).symm.trans hzero
    obtain rfl : e0 = 0#8 := BitVec.eq_of_toNat_eq (by simp; omega)
    obtain rfl : e1 = 0#8 := BitVec.eq_of_toNat_eq (by simp; omega)
    exact ⟨b0, b1, r, rfl, hl⟩

/-- Only the first test of the framer raises UnsupportedPlatform. -/
theorem framer_ne_unsupportedPlatform (sh : Shape) (taken q r : List Byte) :
    framer true sh taken q ≠ .raised .unsupportedPlatform r := by
  intro h
  rw [framer, if_neg (by simp)] at h
  split at h
  case h_1 => cases h
  case h_2 =>
    split_ifs at h
    · cases h
    · cases h
    · split at h
      case h_1 => cases h
      case h_2 => split at h <;> cases h

/-- The decoder of a raw buffer raises MalformedPacket alone. -/
theorem decodeRaw_err {n : Nat} {raw : List Byte} {s t : State} (herr : s.err = .none)
    (h : decodeRaw n raw s = .next t) : t.err = .none ∨ t.err = .malformedPacket := by
  rcases decodeRaw_next h with rfl | ⟨f, -, rfl⟩
  · exact .inr rfl
  · exact .inl herr

theorem receiveFrom_ne_unsupportedPlatform {sh : Shape} {taken : List Byte} {s t : State} (h64 : s.hasLen64 = true)
    (herr : s.err = .none) (h : receiveFrom sh taken s = .next t) : t.err ≠ .unsupportedPlatform := by
  have hframer := framer_ne_unsupportedPlatform sh taken s.rxq
  rw [receiveFrom, h64] at h
  split at h
  case h_1 => cases h; simp [herr]
  case h_2 e q hf =>
    cases h
    rintro (rfl : e = _)
    exact hframer q hf
  case h_3 => cases h
  case h_4 raw q _ => rcases decodeRaw_err (s := placeFrame raw q s) herr h with he | he <;> simp [he]

/-- Outside the receive side no instruction raises, and DECODE raises MalformedPacket alone. -/
theorem exec_err_of_not_stream {i : Instr} {s t : State} (hi : receives i = false ∨ i = .decode) (herr : s.err = .none)
    (h : exec i s = .next t) : t.err = .none ∨ t.err = .malformedPacket := by
  rcases hi with hr | rfl
  · by_cases hsame : t.err = s.err
    · exact .inl (hsame.trans herr)
    rcases exec_err_changed h hsame with ⟨-, hnone⟩ | ⟨hreceives, -⟩
    · exact .inl hnone
    · exact absurd (hr.symm.trans hreceives) (by decide)
  · obtain ⟨-, -, hdecode⟩ := exec_decode_next h
    exact decodeRaw_err herr hdecode

/-- Where `HAS_LEN64` is true no instruction finds the platform unsupported (60_exceptions.md R215). -/
theorem exec_ne_unsupportedPlatform {i : Instr} {s t : State} (h64 : s.hasLen64 = true) (herr : s.err = .none)
    (h : exec i s = .next t) : t.err ≠ .unsupportedPlatform := by
  by_cases hr : receives i = true
  · obtain ⟨-, ⟨sh, taken, q, -, -, -, hf⟩ | rfl | ⟨-, n, -, hd⟩⟩ := receives_exec_next hr h
    · exact receiveFrom_ne_unsupportedPlatform (s := { startReceive s with rxq := q }) h64 herr hf
    · simp [herr]
    · rcases decodeRaw_err herr hd with he | he <;> simp [he]
  · rcases exec_err_of_not_stream (.inl (Bool.eq_false_of_not_eq_true hr)) herr h with he | he <;> simp [he]

/-- Settles O38: the errors by their conditions from O39, the conditions by their errors from the framer's tests. -/
theorem streamErrorsOfRecv : Obligations.StreamErrorsOfRecv := by
  refine ⟨fun s b0 b1 r hi hl hq => ?_, fun s b0 b1 q hi hl h64 hq => ?_, fun s t h he => ?_, fun s t h he => ?_,
    fun i s t hi herr h => ?_, rfl, fun i s t h64 herr h => exec_ne_unsupportedPlatform h64 herr h⟩
  · obtain ⟨hzero, -⟩ := recvRaises s b0 b1 _ hi hq
    obtain ⟨t, hexec, hraised, hrxq, -⟩ := hzero r hl rfl
    exact ⟨t, hexec, hraised, hrxq⟩
  · obtain ⟨-, hmissing, -⟩ := recvRaises s b0 b1 q hi hq
    obtain ⟨t, hexec, hraised, hrxq, -⟩ := hmissing hl h64
    exact ⟨t, hexec, hraised, hrxq⟩
  · obtain ⟨-, hcause⟩ := exec_recv_error h (by simp [he])
    simp only [he, reduceCtorEq, false_and, true_and, false_or, or_false] at hcause
    obtain ⟨hl, hzero, h4⟩ := hcause
    exact zero_bytes_of_zero_extension16 h4 hl hzero
  · obtain ⟨h2, hcause⟩ := exec_recv_error h (by simp [he])
    simp only [he, reduceCtorEq, false_and, true_and, or_false] at hcause
    obtain ⟨hl, h64⟩ := hcause
    match hq : s.rxq, h2 with
    | b0 :: b1 :: q, _ => exact ⟨h64, b0, b1, q, rfl, by rwa [hq] at hl⟩
  · rcases exec_err_of_not_stream hi herr h with he | he <;> simp [he]

end Sys2Proof.Machine
end

section
/-!
PROOFS. RESET from every state (70_reset_and_hazards.md R240, R241).
-/

namespace Sys2Proof.Machine

theorem exec_reset (s : State) : exec .reset s = .next (resetBlock s) := rfl

/-- No read reaches what RESET keeps. -/
theorem readField_resetBlock (s : State) (side : Side) (f : Field) :
    readField (resetBlock s) side f = readField State.reset side f := by
  cases side <;> rfl

/-- Settles O48: RESET leaves the block as at power-up (O49), except for what R241 keeps. -/
theorem resetFromEveryState : Obligations.ResetFromEveryState := by
  intro s
  obtain ⟨herr, htxv, hrxv, htxPos, hrxPos, hrxq, -, hphase, hread, htxp, htxo, hrxi, hrxp, hxmo⟩ := resetStateValues
  have unreadable : ∀ side f, readField (resetBlock s) side f = none := fun side f =>
    (readField_resetBlock s side f).trans (hread side f)
  have kept : (resetBlock s).hasLen64 = s.hasLen64 ∧ (resetBlock s).keys = s.keys ∧ (resetBlock s).draws = s.draws
      ∧ (resetBlock s).host = s.host ∧ (resetBlock s).socket.bytes = s.socket.bytes
      ∧ (resetBlock s).socket.begun = false := by
    simp
  exact ⟨resetBlock s, exec_reset s, herr, htxv, hrxv, htxPos, hrxPos, hrxq, rfl, hphase, unreadable,
    htxp, htxo, hrxi, hrxp, hxmo, kept⟩

end Sys2Proof.Machine
end
